-- ==== Sys2Proof/Word.lean ====
section
/-! DEFINITION. The word types of the RCNB codec block. -/

namespace Sys2Proof

/-- A register of the block, or a command word: 32 bits (10_state R32, 30_encoding R120). -/
abbrev Word := BitVec 32

/-- A plaintext byte, or one byte of data memory (20_memory R81). -/
abbrev Byte := BitVec 8

/-- A symbol: one code point of `SYM_W` bits, held zero-extended to 32 (20_memory R81, 10_state R45, R49). -/
abbrev Sym := BitVec 32

/-- The value of a 2-byte unit: 16 bits (41_unit_codec R180). -/
abbrev UnitVal := BitVec 16

end Sys2Proof
end

