-- ==== Sys2Proof/Syntax.lean ====
section
/-! DEFINITION. The commands of the block: one constructor per row of spec/opcode_table.json. -/

namespace Sys2Proof

/-- The four alphabet classes, numbered R = 0, C = 1, N = 2, B = 3 (00_scope R19). -/
inductive Cls where
  | R | C | N | B
  deriving DecidableEq, Repr

/-- The four divisors of the reciprocal divider, by their names in 00_scope R10, in the order of the
selector (30_encoding R123). -/
inductive Divisor where
  /-- 2250 -/
  | scnb
  /-- 150 -/
  | snb
  /-- 10 -/
  | sb
  /-- 15 -/
  | sc
  deriving DecidableEq, Repr

/-- The command set (30_encoding R125). `ctx` is the unsigned 4-bit context number of R122. -/
inductive Instr where
  | nop
  | encInit (ctx : BitVec 4)
  | encFeed (ctx : BitVec 4)
  | encFinal (ctx : BitVec 4)
  | decInit (ctx : BitVec 4)
  | decFeed (ctx : BitVec 4)
  | decFinal (ctx : BitVec 4)
  | uenc2
  | uenc1
  | udec4
  | udec2
  | lutSym (c : Cls)
  | lutCls
  | divc (d : Divisor)
  | venc
  | vdec
  deriving DecidableEq, Repr

end Sys2Proof
end

