-- ==== Sys2Proof/Config.lean ====
section
/-! DEFINITION. The parameters of 00_scope R13 as plain data, and the one free value of the spec. -/

namespace Sys2Proof

/-- The legal symbol widths `SYM_W` (00_scope R13). -/
inductive SymWidth where
  | w16 | w32
  deriving DecidableEq, Repr

/-- `SYM_W` in bits. -/
def SymWidth.bits : SymWidth → Nat
  | .w16 => 16
  | .w32 => 32

/-- `ES = SYM_W/8`, the bytes per symbol in memory (00_scope R13). -/
def SymWidth.bytes : SymWidth → Nat
  | .w16 => 2
  | .w32 => 4

/-- `ALPHABET`: four ordered sequences of code points (40_alphabet_lut R151). -/
structure Alphabet where
  r : List Sym
  c : List Sym
  n : List Sym
  b : List Sym
  deriving DecidableEq, Repr

/-- The alphabet invariant of 40_alphabet_lut R150: the sizes of 00_scope R11, (a) and (b) all code points
distinct, (c) every one below `2^SYM_W`. The block never checks it (R151): statements take it as a premise. -/
abbrev Alphabet.Valid (a : Alphabet) (w : SymWidth) : Prop :=
  a.r.length = 15 ∧ a.c.length = 15 ∧ a.n.length = 15 ∧ a.b.length = 10 ∧
  (a.r ++ a.c ++ a.n ++ a.b).Nodup ∧
  ∀ s ∈ a.r ++ a.c ++ a.n ++ a.b, s.toNat < 2 ^ w.bits

/-- The parameters the model takes as arguments (00_scope R13). They are a field of `State` that no step
changes (DESIGN CHOICE, log 2), so a statement about every state is about every configuration. -/
structure Config where
  /-- `ALPHABET`. -/
  alphabet : Alphabet
  /-- `SYM_W`. -/
  symW : SymWidth
  /-- `NCTX`, 1 to 16. -/
  nctx : Nat
  /-- `HAS_VEC`. -/
  hasVec : Bool
  /-- `REG_BASE`, the platform bus address of the register block. -/
  regBase : Nat
  /-- The addresses for which `Accessible` is false, as (first address, number of bytes) ranges (log 5). -/
  holes : List (Nat × Nat)
  deriving DecidableEq, Repr

/-- `ES`. -/
abbrev Config.es (c : Config) : Nat := c.symW.bytes

/-- The legal values of the parameters (00_scope R13). -/
abbrev Config.Valid (c : Config) : Prop :=
  c.alphabet.Valid c.symW ∧ 1 ≤ c.nctx ∧ c.nctx ≤ 16

/-- FREE VALUE (70_reset_and_hazards R362, log 9): whether a reset that abandons a pending command leaves byte
`addr` as that command would have written it (`true`) or as it was. `n` counts such resets, so that each has
draws of its own. It has no body: nothing can be proved of its value. -/
opaque Config.resetDraw (n addr : Nat) : Bool

end Sys2Proof
end

