-- ==== Sys2Proof/WellFormed.lean ====
section
/-! DEFINITION. When a command is legal in a configuration: the checks of 30_encoding R126 that its syntax
leaves over. -/

namespace Sys2Proof

/-- The configuration-dependent checks of `Legal` (30_encoding R126): a stream command's context exists, and
VENC and VDEC need the vector unit (R128). The other checks of R126 are `decode`'s: no `Instr` breaks them. -/
def wellFormed (c : Config) : Instr → Bool
  | .encInit k | .encFeed k | .encFinal k => decide (k.toNat < c.nctx)
  | .decInit k | .decFeed k | .decFinal k => decide (k.toNat < c.nctx)
  | .venc | .vdec => c.hasVec
  | .nop | .uenc2 | .uenc1 | .udec4 | .udec2 | .lutSym _ | .lutCls | .divc _ => true

end Sys2Proof
end

