-- ==== Sys2Proof/Decode.lean ====
section
/-! DEFINITION. Command words: the decoder, the encoder, and `Legal` of 30_encoding R126. -/

namespace Sys2Proof

/-- `OPC`, bits 7:0 (30_encoding R121). -/
def opcOf (w : Word) : BitVec 8 := w.extractLsb' 0 8

/-- `CTX`, bits 11:8 (30_encoding R121). -/
def ctxOf (w : Word) : BitVec 4 := w.extractLsb' 8 4

/-- `SEL`, bits 15:12 (30_encoding R121). -/
def selOf (w : Word) : BitVec 4 := w.extractLsb' 12 4

/-- `RSV`, bits 31:16 (30_encoding R121). -/
def rsvOf (w : Word) : BitVec 16 := w.extractLsb' 16 16

/-- Why a word is no command in any configuration (30_encoding R126, R127). -/
inductive DecodeError where
  /-- `RSV` is not 0. -/
  | reservedBits
  /-- `OPC` is none of the sixteen. -/
  | reservedOpcode
  /-- `CTX` is set on a command that takes no context. -/
  | ctxNotZero
  /-- `SEL` is set on a command that takes no selector. -/
  | selNotZero
  /-- `SEL` is 4 to 15 on LUT_SYM or DIVC. -/
  | selReserved
  deriving DecidableEq, Repr

/-- What the decoder answers: a command, or a rejection by name. -/
inductive Decoded where
  | command (i : Instr)
  | rejected (why : DecodeError)
  deriving DecidableEq, Repr

/-- The class a selector names (30_encoding R123). -/
def clsOfSel (sel : BitVec 4) : Option Cls :=
  match sel.toNat with
  | 0 => some .R
  | 1 => some .C
  | 2 => some .N
  | 3 => some .B
  | _ => none

/-- The divisor a selector names (30_encoding R123). -/
def divisorOfSel (sel : BitVec 4) : Option Divisor :=
  match sel.toNat with
  | 0 => some .scnb
  | 1 => some .snb
  | 2 => some .sb
  | 3 => some .sc
  | _ => none

/-- The selector of a class (30_encoding R123). -/
def selOfCls : Cls → BitVec 4
  | .R => 0
  | .C => 1
  | .N => 2
  | .B => 3

/-- The selector of a divisor (30_encoding R123). -/
def selOfDivisor : Divisor → BitVec 4
  | .scnb => 0
  | .snb => 1
  | .sb => 2
  | .sc => 3

/-- A command whose `CTX` and `SEL` must be 0. -/
def decodePlain (w : Word) (i : Instr) : Decoded :=
  if ctxOf w ≠ 0 then .rejected .ctxNotZero
  else if selOf w ≠ 0 then .rejected .selNotZero
  else .command i

/-- A stream command: `CTX` is its context, `SEL` must be 0. -/
def decodeStream (w : Word) (f : BitVec 4 → Instr) : Decoded :=
  if selOf w ≠ 0 then .rejected .selNotZero else .command (f (ctxOf w))

/-- A command with a selector: `CTX` must be 0 and `SEL` below 4. -/
def decodeSel (w : Word) (i : Option Instr) : Decoded :=
  if ctxOf w ≠ 0 then .rejected .ctxNotZero
  else match i with
    | some i => .command i
    | none => .rejected .selReserved

/-- The decoder (30_encoding R121, R125). It is total and rejects by name; it depends on no configuration
(`CTX < NCTX` and `HAS_VEC` are `wellFormed`'s, log 14). -/
def decode (w : Word) : Decoded :=
  if rsvOf w ≠ 0 then .rejected .reservedBits
  else match (opcOf w).toNat with
    | 0x00 => decodePlain w .nop
    | 0x01 => decodeStream w .encInit
    | 0x02 => decodeStream w .encFeed
    | 0x03 => decodeStream w .encFinal
    | 0x04 => decodeStream w .decInit
    | 0x05 => decodeStream w .decFeed
    | 0x06 => decodeStream w .decFinal
    | 0x10 => decodePlain w .uenc2
    | 0x11 => decodePlain w .uenc1
    | 0x12 => decodePlain w .udec4
    | 0x13 => decodePlain w .udec2
    | 0x20 => decodeSel w ((clsOfSel (selOf w)).map .lutSym)
    | 0x21 => decodePlain w .lutCls
    | 0x30 => decodeSel w ((divisorOfSel (selOf w)).map .divc)
    | 0x40 => decodePlain w .venc
    | 0x41 => decodePlain w .vdec
    | _ => .rejected .reservedOpcode

/-- A command word from its fields with `RSV = 0`: `(SEL << 12) | (CTX << 8) | OPC` (30_encoding R121). -/
def cmdWord (opc : BitVec 8) (ctx sel : BitVec 4) : Word :=
  (sel.setWidth 32 <<< 12) ||| (ctx.setWidth 32 <<< 8) ||| opc.setWidth 32

/-- The word of a command (30_encoding R121, R125). -/
def encode : Instr → Word
  | .nop => cmdWord 0x00 0 0
  | .encInit k => cmdWord 0x01 k 0
  | .encFeed k => cmdWord 0x02 k 0
  | .encFinal k => cmdWord 0x03 k 0
  | .decInit k => cmdWord 0x04 k 0
  | .decFeed k => cmdWord 0x05 k 0
  | .decFinal k => cmdWord 0x06 k 0
  | .uenc2 => cmdWord 0x10 0 0
  | .uenc1 => cmdWord 0x11 0 0
  | .udec4 => cmdWord 0x12 0 0
  | .udec2 => cmdWord 0x13 0 0
  | .lutSym c => cmdWord 0x20 0 (selOfCls c)
  | .lutCls => cmdWord 0x21 0 0
  | .divc d => cmdWord 0x30 0 (selOfDivisor d)
  | .venc => cmdWord 0x40 0 0
  | .vdec => cmdWord 0x41 0 0

/-- The opcodes of the table (30_encoding R125). -/
def opcodes : List Nat :=
  [0x00, 0x01, 0x02, 0x03, 0x04, 0x05, 0x06] ++ [0x10, 0x11, 0x12, 0x13] ++ [0x20, 0x21, 0x30, 0x40, 0x41]

/-- `Legal(cmd)`, line for line (30_encoding R126). -/
def legal (c : Config) (w : Word) : Bool :=
  let opc := (opcOf w).toNat
  let ctx := (ctxOf w).toNat
  let sel := (selOf w).toNat
  if rsvOf w ≠ 0 then false
  else if opc ∉ opcodes then false
  else if (if 0x01 ≤ opc ∧ opc ≤ 0x06 then c.nctx ≤ ctx else ctx ≠ 0) then false
  else if (if opc = 0x20 ∨ opc = 0x30 then 4 ≤ sel else sel ≠ 0) then false
  else if (opc = 0x40 ∨ opc = 0x41) ∧ c.hasVec = false then false
  else true

/-- What the decoder reads from an instruction of `nbits` bits whose value is `w`. A command is exactly one
32-bit word (30_encoding R120), so the bits above a shorter `nbits` are 0 and no longer word exists. -/
def decodeTableWord (nbits w : Nat) : Option Instr :=
  if nbits ≤ 32 ∧ w < 2 ^ 32 then
    match decode (BitVec.ofNat 32 w) with
    | .command i => some i
    | .rejected _ => none
  else none

end Sys2Proof
end

