-- ==== Sys2Proof/Machine/Alphabet.lean ====
section
/-! DEFINITION. The alphabet look-up table and its reverse map (40_alphabet_lut), and the default
configuration of 00_scope R13. -/

namespace Sys2Proof

/-- The class code: R = 0, C = 1, N = 2, B = 3 (00_scope R19). -/
def Cls.code : Cls → Nat
  | .R => 0
  | .C => 1
  | .N => 2
  | .B => 3

/-- `size(c)` (00_scope R11). -/
def Cls.size : Cls → Nat
  | .R => 15
  | .C => 15
  | .N => 15
  | .B => 10

/-- The sequence of a class. -/
def Alphabet.lut (a : Alphabet) : Cls → List Sym
  | .R => a.r
  | .C => a.c
  | .N => a.n
  | .B => a.b

/-- `LUT[c][i]` (00_scope R19). Entries past the class have unspecified contents and no rule reads them
(40_alphabet_lut R154, log 17). -/
def Alphabet.at (a : Alphabet) (c : Cls) (i : Nat) : Sym := (a.lut c).getD i 0

/-- The first position of `s` in a sequence. -/
def indexIn : List Sym → Sym → Option Nat
  | [], _ => none
  | x :: xs, s => if x = s then some 0 else (indexIn xs s).map (· + 1)

/-- The search for `s` in the sequence of class `c`. -/
def Alphabet.find (a : Alphabet) (s : Sym) (c : Cls) : Option Nat := indexIn (a.lut c) s

/-- `Classify(s)` (40_alphabet_lut R153): the class and index of `s`, `none` for `NotFound`. -/
def Alphabet.classify (a : Alphabet) (s : Sym) : Option (Cls × Nat) :=
  match a.find s .R with
  | some i => some (.R, i)
  | none =>
    match a.find s .C with
    | some i => some (.C, i)
    | none =>
      match a.find s .N with
      | some i => some (.N, i)
      | none =>
        match a.find s .B with
        | some i => some (.B, i)
        | none => none

/-- `idx_c(s, c)` (00_scope R19, 40_alphabet_lut R155): the index of `s` if it classifies as class `c`,
`none` for `NotFound`. -/
def Alphabet.idx (a : Alphabet) (s : Sym) (c : Cls) : Option Nat :=
  match a.classify s with
  | some (d, i) => if d = c then some i else none
  | none => none

/-- The default alphabet of 40_alphabet_lut R152, which the spec marks as from general knowledge and not in
its source (PRESUMED, log 4). -/
def defaultAlphabet : Alphabet where
  r := [0x0072, 0x0052, 0x0154, 0x0155, 0x0156, 0x0157, 0x0158, 0x0159]
    ++ [0x01A6, 0x0210, 0x0211, 0x0212, 0x0213, 0x024C, 0x024D]
  c := [0x0063, 0x0043, 0x0106, 0x0107, 0x0108, 0x0109, 0x010A, 0x010B]
    ++ [0x010C, 0x010D, 0x0187, 0x0188, 0x00C7, 0x023B, 0x023C]
  n := [0x006E, 0x004E, 0x0143, 0x0144, 0x0145, 0x0146, 0x0147, 0x0148]
    ++ [0x019D, 0x019E, 0x00D1, 0x01F8, 0x01F9, 0x0220, 0x0235]
  b := [0x0062, 0x0042, 0x0180, 0x0181, 0x0183, 0x0184, 0x0185, 0x00DF, 0x00DE, 0x00FE]

/-- The defaults of 00_scope R13. `REG_BASE` is OPEN in the spec: 0 is a DESIGN CHOICE (log 3). -/
def Config.default : Config where
  alphabet := defaultAlphabet
  symW := .w32
  nctx := 1
  hasVec := true
  regBase := 0
  holes := []

end Sys2Proof
end

