-- ==== Sys2Proof/Machine/State.lean ====
section
/-! DEFINITION. The state of the block, its data memory and its host, as plain data, and the state after
reset (10_state R32 to R57). -/

namespace Sys2Proof.Machine

/-- The error codes of 60_exceptions R320. Codes 11 to 15 are reserved and never produced, so they are no
values of this type (log 25). -/
inductive ErrCode where
  /-- 0 NONE -/
  | noError
  /-- 1 INVALID_SYMBOL (R321) -/
  | invalidSymbol
  /-- 2 OUT_OF_RANGE (R322) -/
  | outOfRange
  /-- 3 MALFORMED_TAIL (R323) -/
  | malformedTail
  /-- 4 CAPACITY (R324) -/
  | capacity
  /-- 5 BAD_STATE (R325) -/
  | badState
  /-- 6 ILLEGAL_CMD (R326) -/
  | illegalCmd
  /-- 7 BAD_BUFFER (R327) -/
  | badBuffer
  /-- 8 BUS_ERROR (R328) -/
  | busError
  /-- 9 GRANULE_FAIL (R329) -/
  | granuleFail
  /-- 10 BAD_OPERAND (R330) -/
  | badOperand
  deriving DecidableEq, Repr

/-- `STATUS` (10_state R36), field by field; its reserved bits read 0. -/
structure Status where
  /-- an accepted command has not completed -/
  busy : Bool
  /-- error code of the last completed command -/
  err : ErrCode
  /-- sticky: a host write reached CMD or an RW register while busy -/
  hz : Bool
  deriving DecidableEq, Repr

/-- The lifecycle phase of a context (10_state R44). -/
inductive Phase where
  /-- 0 UNINIT -/
  | uninit
  /-- 1 OPEN -/
  | opened
  /-- 2 CLOSED -/
  | closed
  /-- 3 FAILED, decode contexts only -/
  | failed
  deriving DecidableEq, Repr

/-- An encode context `ENC[k]` (10_state R46). -/
structure EncCtx where
  /-- `CACHED`: one byte is pending. -/
  cached : Bool
  /-- `TRAILING_BYTE`: the pending byte. -/
  trailingByte : Byte
  /-- `PHASE`. -/
  phase : Phase
  deriving DecidableEq, Repr

/-- A decode context `DEC[k]` (10_state R47). `count` is the field `I`; the value 4 exists only inside a
step and is left out of the type (42_streaming R225, log 19). -/
structure DecCtx where
  /-- `I`: the number of buffered symbols. -/
  count : Fin 4
  /-- `TRAIL[0]` -/
  trail0 : Sym
  /-- `TRAIL[1]` -/
  trail1 : Sym
  /-- `TRAIL[2]` -/
  trail2 : Sym
  /-- `TRAIL[3]` -/
  trail3 : Sym
  /-- `PHASE`. -/
  phase : Phase
  deriving DecidableEq, Repr

/-- The value of every encode context after reset (10_state R46, R56). -/
def EncCtx.reset : EncCtx := { cached := false, trailingByte := 0, phase := .uninit }

/-- The value of every decode context after reset (10_state R47, R56). -/
def DecCtx.reset : DecCtx :=
  { count := 0, trail0 := 0, trail1 := 0, trail2 := 0, trail3 := 0, phase := .uninit }

/-- Data memory: (address, byte) pairs in the canonical form `Memory.wf` of Machine/Ops.lean. -/
abbrev Memory := List Host.Cell

/-- What the host does next (44_host_interface, 20_memory R80, 70_reset_and_hazards R360). -/
inductive HostAction where
  /-- A write of `width` bytes to bus address `addr` of the register space. -/
  | regWrite (addr width : Nat) (value : Word)
  /-- A read of `width` bytes at bus address `addr` of the register space. -/
  | regRead (addr width : Nat)
  /-- A store of one byte to data memory (log 23). -/
  | memWrite (addr : Word) (value : Byte)
  /-- A load of one byte from data memory (log 23). -/
  | memRead (addr : Word)
  /-- The reset input is asserted. -/
  | reset
  /-- No access: the block has the turn (log 6). -/
  | yield
  deriving DecidableEq, Repr

/-- The whole machine: configuration, register block, context files, data memory, and the host. -/
structure State where
  /-- The parameters of 00_scope R13; no step changes them (log 2). -/
  cfg : Config
  /-- `CMD` (R35). -/
  cmd : Word
  /-- `STATUS` (R36). -/
  status : Status
  /-- `SRC_ADDR` (R37). -/
  srcAddr : Word
  /-- `SRC_LEN` (R38). -/
  srcLen : Word
  /-- `DST_ADDR` (R39). -/
  dstAddr : Word
  /-- `DST_CAP` (R40). -/
  dstCap : Word
  /-- `RESULT` (R41). -/
  result : Word
  /-- `UNIT_IN` (R42). -/
  unitIn : Word
  /-- `UNIT_OUT` (R43). -/
  unitOut : Word
  /-- `SYM0` (R45). -/
  sym0 : Sym
  /-- `SYM1` (R45). -/
  sym1 : Sym
  /-- `SYM2` (R45). -/
  sym2 : Sym
  /-- `SYM3` (R45). -/
  sym3 : Sym
  /-- `ENC[0 .. NCTX-1]` (R46). -/
  enc : List EncCtx
  /-- `DEC[0 .. NCTX-1]` (R47). -/
  dec : List DecCtx
  /-- Data memory (20_memory R80). -/
  mem : Memory
  /-- The model's own: the host's actions still to come, oldest first (DESIGN CHOICE, log 6). -/
  inputs : List HostAction
  /-- The model's own: what the host's last read returned (DESIGN CHOICE, log 7). -/
  hostRead : Word
  /-- The model's own: how many resets have abandoned a pending command, the index of their free draws
  (DESIGN CHOICE, log 9). -/
  resetDraws : Nat
  deriving DecidableEq, Repr

/-- Why the machine stops with a fault. No command raises one (93_implementation_defined: "There is no
`stuck` behaviour"). -/
inductive Fault where
  /-- Raised by a host memory access to a byte the platform does not answer (`Accessible` false). The spec
  leaves what the host sees to the platform (93_implementation_defined U10). Safe (log 12). -/
  | hostMemoryNoAnswer (addr : Nat)
  deriving DecidableEq, Repr

/-- What the model has no move for. -/
inductive Refusal where
  /-- An instruction without a meaning; raised by no arm of `exec` (every arm has one). Safe. -/
  | notModelled (mnemonic : String)
  /-- Raised by a host register access that is not a naturally aligned 32-bit one: "A model refuses such an
  access" (44_host_interface R290, 93_implementation_defined U3). Safe (log 10). -/
  | registerAccessForm (addr width : Nat)
  /-- Raised by a host register access whose bus address is outside the register block: another unit of the
  platform answers it, and the spec does not say how. Safe (log 13). -/
  | outsideRegisterBlock (addr : Nat)
  /-- Raised by a host write into a window, or a host read of the destination window, of the pending command:
  "refuses the run" (70_reset_and_hazards R366, 93_implementation_defined U4). Safe (log 11). -/
  | windowHazard (addr : Nat)
  deriving DecidableEq, Repr

/-- The state after reset of a block with parameters `c` (10_state R56): `STATUS`, `CMD` and every register 0,
every context UNINIT with zero carry. Memory lists nothing (log 1), and the host has nothing to do (log 6). -/
def State.resetWith (c : Config) : State where
  cfg := c
  cmd := 0
  status := { busy := false, err := .noError, hz := false }
  srcAddr := 0
  srcLen := 0
  dstAddr := 0
  dstCap := 0
  result := 0
  unitIn := 0
  unitOut := 0
  sym0 := 0
  sym1 := 0
  sym2 := 0
  sym3 := 0
  enc := List.replicate c.nctx EncCtx.reset
  dec := List.replicate c.nctx DecCtx.reset
  mem := []
  inputs := []
  hostRead := 0
  resetDraws := 0

/-- The state after reset in the default configuration of 00_scope R13. -/
def State.reset : State := State.resetWith Config.default

end Sys2Proof.Machine
end

