-- ==== Sys2Proof/Machine/Ops.lean ====
section
/-! DEFINITION. The named operations on data memory and registers, and how a command completes: with
success or with an error (00_scope R17, R18, 10_state R31). -/

namespace Sys2Proof.Machine

/-! ## Data memory -/

/-- What a byte nothing has written reads as: 0x00 (DESIGN CHOICE, log 1, after 95_test_vectors L3). -/
def memDefault : Byte := 0

/-- The canonical form of memory: addresses strictly rising and inside the space of 20_memory R80, no entry
equal to what an unlisted address reads as. -/
abbrev Memory.wf (m : Memory) : Prop :=
  m.Pairwise (fun p q => p.1 < q.1) ∧ ∀ p ∈ m, p.1 < 2 ^ 32 ∧ p.2 ≠ memDefault

/-- `ReadByte(a)` (00_scope R17). -/
def Memory.read : Memory → Nat → Byte
  | [], _ => memDefault
  | (a, b) :: m, x => if a = x then b else Memory.read m x

/-- The list with `(x, b)` in its place. -/
def Memory.insert : Memory → Nat → Byte → Memory
  | [], x, b => [(x, b)]
  | (a, c) :: m, x, b =>
    if x < a then (x, b) :: (a, c) :: m
    else if x = a then (x, b) :: m
    else (a, c) :: Memory.insert m x b

/-- Write one byte, keeping the canonical form. -/
def Memory.write (m : Memory) (x : Nat) (b : Byte) : Memory :=
  if b = memDefault then m.filter (fun p => p.1 ≠ x) else Memory.insert m x b

/-- Write bytes to consecutive addresses from `a` upward. -/
def Memory.writeBytes : Memory → Nat → List Byte → Memory
  | m, _, [] => m
  | m, a, b :: bs => Memory.writeBytes (m.write a b) (a + 1) bs

/-- The bytes at the `n` addresses from `a` upward. -/
def Memory.readBytes (m : Memory) (a n : Nat) : List Byte := (List.range n).map fun t => m.read (a + t)

/-- `MemRead(addr, n)`: little-endian (00_scope R17, 20_memory R82). -/
def Memory.readLE (m : Memory) (a : Nat) : Nat → Nat
  | 0 => 0
  | n + 1 => (m.read a).toNat + 256 * Memory.readLE m (a + 1) n

/-- The `n` low-order bytes of `v`, least significant first, as `MemWrite` lays them out (00_scope R17). -/
def leBytes : Nat → Nat → List Byte
  | 0, _ => []
  | n + 1, v => BitVec.ofNat 8 v :: leBytes n (v / 256)

/-- `ReadSym(a)` with `ES = es` (20_memory R82). -/
def Memory.readSym (m : Memory) (es a : Nat) : Sym := BitVec.ofNat 32 (m.readLE a es)

/-- `n` consecutive symbols from `a` upward. -/
def Memory.readSyms (m : Memory) (es a n : Nat) : List Sym := (List.range n).map fun u => m.readSym es (a + es * u)

/-- The bytes of a sequence of symbols, `WriteSym` after `WriteSym` (20_memory R82). -/
def symBytes (es : Nat) (l : List Sym) : List Byte := l.flatMap fun s => leBytes es s.toNat

/-- The memory a reset leaves when it abandons a command that would have made `old` into `new`: each byte is a
free draw between the two (70_reset_and_hazards R362, log 9). -/
def Memory.drawBetween (n : Nat) (old new : Memory) : Memory :=
  (new.map Prod.fst ++ old.map Prod.fst).foldl
    (fun m a => if Config.resetDraw n a then m.write a (new.read a) else m) old

/-! ## Registers and contexts -/

/-- A value as a `SYMn` register holds it: its low `SYM_W` bits (10_state R45, log 18). -/
def clipSym (w : SymWidth) (s : Sym) : Sym :=
  match w with
  | .w16 => s &&& 0xFFFF
  | .w32 => s

/-- `ENC[k]` (10_state R46). Below `NCTX` it is the context; no rule reads past it (log 28). -/
def State.encAt (s : State) (k : Nat) : EncCtx := s.enc.getD k EncCtx.reset

/-- `DEC[k]` (10_state R47). Below `NCTX` it is the context; no rule reads past it (log 28). -/
def State.decAt (s : State) (k : Nat) : DecCtx := s.dec.getD k DecCtx.reset

/-- `ENC[k] <- c`. -/
def State.setEnc (s : State) (k : Nat) (c : EncCtx) : State := { s with enc := s.enc.set k c }

/-- `DEC[k] <- c`. -/
def State.setDec (s : State) (k : Nat) (c : DecCtx) : State := { s with dec := s.dec.set k c }

/-- `RESULT <- n`. -/
def State.setResult (s : State) (n : Nat) : State := { s with result := BitVec.ofNat 32 n }

/-- `UNIT_OUT <- v`. -/
def State.setUnitOut (s : State) (v : Word) : State := { s with unitOut := v }

/-- `SYM0 <- x`. -/
def State.setSym0 (s : State) (x : Sym) : State := { s with sym0 := clipSym s.cfg.symW x }

/-- `SYM1 <- x`. -/
def State.setSym1 (s : State) (x : Sym) : State := { s with sym1 := clipSym s.cfg.symW x }

/-- `SYM2 <- x`. -/
def State.setSym2 (s : State) (x : Sym) : State := { s with sym2 := clipSym s.cfg.symW x }

/-- `SYM3 <- x`. -/
def State.setSym3 (s : State) (x : Sym) : State := { s with sym3 := clipSym s.cfg.symW x }

/-- Data memory becomes `m`. -/
def State.setMem (s : State) (m : Memory) : State := { s with mem := m }

/-- `MemWrite` of consecutive bytes from `DST_ADDR` (20_memory R90). -/
def State.storeDst (s : State) (bs : List Byte) : State := s.setMem (s.mem.writeBytes s.dstAddr.toNat bs)

/-! ## Completion -/

/-- The end of the completion step: `STATUS.ERR <- e`, `STATUS.BUSY <- 0` (10_state R31 items 3 and 4). -/
def State.finish (s : State) (e : ErrCode) : State :=
  { s with status := { busy := false, err := e, hz := s.status.hz } }

/-- A memory command that fails before it touches memory: `RESULT <- 0` and the code (20_memory R89,
42_streaming preamble). -/
def State.failMem (s : State) (e : ErrCode) : State := (s.setResult 0).finish e

/-- An illegal word: only the code (30_encoding R126). -/
def State.illegal (s : State) : State := s.finish .illegalCmd

/-! ## Reset -/

/-- Every piece of the block's state at its reset value; configuration, data memory and host are not the
block's (10_state R56, 70_reset_and_hazards R360, log 27). -/
def State.resetBlock (s : State) : State :=
  { State.resetWith s.cfg with
    mem := s.mem, inputs := s.inputs, hostRead := s.hostRead, resetDraws := s.resetDraws }

end Sys2Proof.Machine
end

