-- ==== Sys2Proof/Machine/Control.lean ====
section
/-! DEFINITION. The control command NOP (44_host_interface). -/

namespace Sys2Proof.Machine

/-- NOP (44_host_interface R296). -/
def execNop (s : State) : Host.Outcome State Fault Refusal := .next (s.finish .noError)

end Sys2Proof.Machine
end

