-- ==== Sys2Proof/Machine/Lut.lean ====
section
/-! DEFINITION. The look-up commands LUT_SYM and LUT_CLS (40_alphabet_lut). -/

namespace Sys2Proof.Machine

/-- LUT_SYM (40_alphabet_lut R160). -/
def execLutSym (c : Cls) (s : State) : Host.Outcome State Fault Refusal :=
  let i := s.unitIn.toNat
  if Cls.size c ≤ i then .next (s.finish .badOperand)
  else .next ((s.setSym0 (s.cfg.alphabet.at c i)).finish .noError)

/-- The result word of LUT_CLS: INDEX, CLASS and FOUND, or 0 (40_alphabet_lut R161). -/
def clsWord : Option (Cls × Nat) → Word
  | some (c, i) => (1#32 <<< 8) ||| (BitVec.ofNat 32 c.code <<< 4) ||| BitVec.ofNat 32 i
  | none => 0

/-- LUT_CLS (40_alphabet_lut R161). -/
def execLutCls (s : State) : Host.Outcome State Fault Refusal :=
  .next ((s.setUnitOut (clsWord (s.cfg.alphabet.classify s.sym0))).finish .noError)

end Sys2Proof.Machine
end

