-- ==== Sys2Proof/Machine/Codec.lean ====
section
/-! DEFINITION. The mixed-radix unit codec (41_unit_codec R180 to R183), and its use over a stream of bytes or
symbols (42_streaming R212, R222). Pure functions of the alphabet and their operands. -/

namespace Sys2Proof.Machine

/-- `bits16(hi, lo)` (00_scope R15). -/
def bits16 (hi lo : Byte) : UnitVal := (hi.setWidth 16 <<< 8) ||| lo.setWidth 16

/-- The two bytes of a unit, high byte first (20_memory R83). -/
def unitBytes (v : UnitVal) : List Byte := [(v >>> 8).setWidth 8, v.setWidth 8]

/-- A group of 4 symbols (00_scope R21). -/
structure Group where
  s0 : Sym
  s1 : Sym
  s2 : Sym
  s3 : Sym
  deriving DecidableEq, Repr

/-- A tail of 2 symbols (00_scope R21). -/
structure Tail where
  s0 : Sym
  s1 : Sym
  deriving DecidableEq, Repr

/-- What a unit decoder answers: `Ok(v)` or `Err(e)` (41_unit_codec R182, R183). -/
inductive UnitResult (α : Type) where
  | ok (v : α)
  | err (e : ErrCode)
  deriving DecidableEq, Repr

/-- The symbols of a group in stream order. -/
def Group.toList (g : Group) : List Sym := [g.s0, g.s1, g.s2, g.s3]

/-- The symbols of a tail in stream order. -/
def Tail.toList (t : Tail) : List Sym := [t.s0, t.s1]

/-- `Enc2(v)` (41_unit_codec R180). -/
def enc2 (a : Alphabet) (v : UnitVal) : Group :=
  let high : Bool := decide (0x7FFF < v.toNat)
  let w := if high then (v &&& 0x7FFF).toNat else v.toNat
  let ir := w / 2250
  let ic := (w % 2250) / 150
  let inn := (w % 150) / 10
  let ib := w % 10
  if high then { s0 := a.at .N inn, s1 := a.at .B ib, s2 := a.at .R ir, s3 := a.at .C ic }
  else { s0 := a.at .R ir, s1 := a.at .C ic, s2 := a.at .N inn, s3 := a.at .B ib }

/-- `Enc1(x)` (41_unit_codec R181): in the high case the masked value is divided (90_conflicts C6). -/
def enc1 (a : Alphabet) (x : Byte) : Tail :=
  if 0x7F < x.toNat then
    let y := (x &&& 0x7F).toNat
    { s0 := a.at .N (y / 10), s1 := a.at .B (y % 10) }
  else { s0 := a.at .R (x.toNat / 15), s1 := a.at .C (x.toNat % 15) }

/-- Whether a symbol classifies as R: the test that orients a group (41_unit_codec R182). -/
def Alphabet.isR (a : Alphabet) (s : Sym) : Bool := (a.idx s .R).isSome

/-- The result of a group whose four symbols are named by the class each must have, `high` its polarity
(41_unit_codec R182). -/
def groupValue (a : Alphabet) (high : Bool) (r c n b : Sym) : UnitResult UnitVal :=
  match a.idx r .R, a.idx c .C, a.idx n .N, a.idx b .B with
  | some ir, some ic, some inn, some ib =>
    let v := ir * 2250 + ic * 150 + inn * 10 + ib
    if 0x7FFF < v then .err .outOfRange
    else if high then .ok (BitVec.ofNat 16 v ||| 0x8000)
    else .ok (BitVec.ofNat 16 v)
  | _, _, _, _ => .err .invalidSymbol

/-- `Dec4` (41_unit_codec R182): the class of position 0 decides the orientation. -/
def dec4 (a : Alphabet) (g : Group) : UnitResult UnitVal :=
  if Alphabet.isR a g.s0 then groupValue a false g.s0 g.s1 g.s2 g.s3
  else groupValue a true g.s2 g.s3 g.s0 g.s1

/-- The result of a tail once both indices are found (41_unit_codec R183). -/
def tailValue (high : Bool) (i0 i1 : Nat) : UnitResult Byte :=
  let result := if high then i0 * 10 + i1 else i0 * 15 + i1
  if 0x7F < result then .err .outOfRange
  else if high then .ok (BitVec.ofNat 8 result ||| 0x80)
  else .ok (BitVec.ofNat 8 result)

/-- `Dec2` (41_unit_codec R183). -/
def dec2 (a : Alphabet) (t : Tail) : UnitResult Byte :=
  match a.idx t.s0 .R, a.idx t.s1 .C with
  | some i0, some i1 => tailValue false i0 i1
  | _, _ =>
    match a.idx t.s0 .N, a.idx t.s1 .B with
    | some i0, some i1 => tailValue true i0 i1
    | _, _ => .err .invalidSymbol

/-- The groups of the complete pairs of a byte sequence, in order (42_streaming R212). -/
def encPairs (a : Alphabet) : List Byte → List Sym
  | b0 :: b1 :: rest => (enc2 a (bits16 b0 b1)).toList ++ encPairs a rest
  | _ => []

/-- The bytes of the complete groups of a symbol sequence up to the first bad one, and that group's error
(42_streaming R222, R223). -/
def decGroups (a : Alphabet) : List Sym → List Byte × Option ErrCode
  | s0 :: s1 :: s2 :: s3 :: rest =>
    match dec4 a { s0 := s0, s1 := s1, s2 := s2, s3 := s3 } with
    | .err e => ([], some e)
    | .ok v => (unitBytes v ++ (decGroups a rest).1, (decGroups a rest).2)
  | _ => ([], none)

/-- The bytes an encode context holds, as a sequence: `CACHED = 1 ? [TRAILING_BYTE] : []` (42_streaming R212). -/
def EncCtx.carry (c : EncCtx) : List Byte := if c.cached then [c.trailingByte] else []

/-- The open context after a feed whose bytes, carry included, are `s`: the last byte of an odd number stays
(42_streaming R212). -/
def EncCtx.after (s : List Byte) : EncCtx :=
  if s.length % 2 = 1 then { cached := true, trailingByte := s.getD (s.length - 1) 0, phase := .opened }
  else { cached := false, trailingByte := 0, phase := .opened }

/-- The buffered symbols `TRAIL[0 .. I)` (42_streaming R222). -/
def DecCtx.buffer (d : DecCtx) : List Sym := [d.trail0, d.trail1, d.trail2, d.trail3].take d.count.val

/-- The open context after a feed whose symbols, buffer included, are `t`: the `len % 4` left over are buffered
and the other slots are 0 (42_streaming R222). -/
def DecCtx.after (t : List Sym) : DecCtx :=
  let m := t.length % 4
  let left := t.drop (4 * (t.length / 4))
  { count := Fin.ofNat 4 m
    trail0 := if 0 < m then left.getD 0 0 else 0
    trail1 := if 1 < m then left.getD 1 0 else 0
    trail2 := if 2 < m then left.getD 2 0 else 0
    trail3 := if 3 < m then left.getD 3 0 else 0
    phase := .opened }

/-- An encode context with an empty carry in phase `p`. -/
def EncCtx.empty (p : Phase) : EncCtx := { cached := false, trailingByte := 0, phase := p }

/-- A decode context with an empty buffer in phase `p`. -/
def DecCtx.empty (p : Phase) : DecCtx :=
  { count := 0, trail0 := 0, trail1 := 0, trail2 := 0, trail3 := 0, phase := p }

end Sys2Proof.Machine
end

