-- ==== Sys2Proof/Machine/Operands.lean ====
section
/-! DEFINITION. Windows of data memory, the windows of each memory command, and `MemCheck`
(20_memory R85 to R90). -/

namespace Sys2Proof.Machine

/-- `Win(addr, count, es)` (20_memory R85). -/
structure Window where
  base : Nat
  count : Nat
  es : Nat
  deriving DecidableEq, Repr

/-- The empty window of a command without a source operand (20_memory R85; `MemCheck(0, 0, 1, ...)`). -/
def Window.none : Window := { base := 0, count := 0, es := 1 }

/-- The number of bytes of a window. -/
def Window.bytes (w : Window) : Nat := w.count * w.es

/-- Address `a` is a byte of the window; computed without wrap-around (20_memory R85). -/
def Window.has (w : Window) (a : Nat) : Bool := decide (w.base ≤ a ∧ a < w.base + w.bytes)

/-- `WinOK` (20_memory R86): empty, or aligned and not past `2^32`. -/
def Window.ok (w : Window) : Bool :=
  decide (w.count = 0 ∨ (w.base % w.es = 0 ∧ w.base + w.bytes ≤ 2 ^ 32))

/-- Two windows share a byte address (20_memory R88). -/
def Window.overlaps (v w : Window) : Bool :=
  decide (0 < v.bytes ∧ 0 < w.bytes ∧ v.base < w.base + w.bytes ∧ w.base < v.base + v.bytes)

/-- `Accessible(a)` (00_scope R13): no hole holds `a`. -/
def Config.accessible (c : Config) (a : Nat) : Bool :=
  c.holes.all fun h => !decide (h.1 ≤ a ∧ a < h.1 + h.2)

/-- Every byte of the window is `Accessible`: no hole meets it. -/
def Window.accessible (w : Window) (c : Config) : Bool :=
  c.holes.all fun h => !w.overlaps { base := h.1, count := h.2, es := 1 }

/-- The two windows of a memory command. -/
structure Windows where
  src : Window
  dst : Window
  deriving DecidableEq, Repr

/-- `MemCheck` (20_memory R89), its checks in the spec's order; `none` when it passes. -/
def memCheck (c : Config) (cap : Nat) (w : Windows) : Option ErrCode :=
  if cap < w.dst.count then some .capacity
  else if !(w.src.ok && w.dst.ok) then some .badBuffer
  else if w.src.overlaps w.dst then some .badBuffer
  else if !(w.src.accessible c && w.dst.accessible c) then some .busError
  else none

/-- `MemCheck` against this state's `DST_CAP`. -/
def State.memCheck (s : State) (w : Windows) : Option ErrCode :=
  Sys2Proof.Machine.memCheck s.cfg s.dstCap.toNat w

/-- `ENC[k].CACHED` as a number of pending bytes. -/
def EncCtx.pending (c : EncCtx) : Nat := if c.cached then 1 else 0

/-- The source window of bytes `Win(SRC_ADDR, SRC_LEN, 1)`. -/
def State.srcBytesWin (s : State) : Window :=
  { base := s.srcAddr.toNat, count := s.srcLen.toNat, es := 1 }

/-- The source window of symbols `Win(SRC_ADDR, SRC_LEN, ES)`. -/
def State.srcSymsWin (s : State) : Window :=
  { base := s.srcAddr.toNat, count := s.srcLen.toNat, es := s.cfg.es }

/-- A destination window of `req` symbols, `Win(DST_ADDR, req, ES)`. -/
def State.dstSymsWin (s : State) (req : Nat) : Window :=
  { base := s.dstAddr.toNat, count := req, es := s.cfg.es }

/-- A destination window of `req` bytes, `Win(DST_ADDR, req, 1)`. -/
def State.dstBytesWin (s : State) (req : Nat) : Window :=
  { base := s.dstAddr.toNat, count := req, es := 1 }

/-! The windows of each memory command, row by row of 20_memory R87. -/

/-- ENC_FEED: `req = 4 * ((CACHED + n) / 2)`. -/
def encFeedWindows (s : State) (k : Nat) : Windows :=
  { src := s.srcBytesWin
    dst := s.dstSymsWin (4 * (((s.encAt k).pending + s.srcLen.toNat) / 2)) }

/-- ENC_FINAL: `req = 2 * CACHED`. -/
def encFinalWindows (s : State) (k : Nat) : Windows :=
  { src := Window.none, dst := s.dstSymsWin (2 * (s.encAt k).pending) }

/-- DEC_FEED: `req = 2 * ((I + n) / 4)`. -/
def decFeedWindows (s : State) (k : Nat) : Windows :=
  { src := s.srcSymsWin
    dst := s.dstBytesWin (2 * (((s.decAt k).count.val + s.srcLen.toNat) / 4)) }

/-- DEC_FINAL: `req = 1` if `I = 2`, else 0. -/
def decFinalWindows (s : State) (k : Nat) : Windows :=
  { src := Window.none, dst := s.dstBytesWin (if (s.decAt k).count = 2 then 1 else 0) }

/-- VENC: `req = 2 * n`. -/
def vencWindows (s : State) : Windows :=
  { src := s.srcBytesWin, dst := s.dstSymsWin (2 * s.srcLen.toNat) }

/-- VDEC: `req = n / 2`. -/
def vdecWindows (s : State) : Windows :=
  { src := s.srcSymsWin, dst := s.dstBytesWin (s.srcLen.toNat / 2) }

/-- The windows of a command; a command that is no memory command has none. -/
def windowsOf (s : State) : Instr → Windows
  | .encFeed k => encFeedWindows s k.toNat
  | .encFinal k => encFinalWindows s k.toNat
  | .decFeed k => decFeedWindows s k.toNat
  | .decFinal k => decFinalWindows s k.toNat
  | .venc => vencWindows s
  | .vdec => vdecWindows s
  | .nop | .encInit _ | .decInit _ | .uenc2 | .uenc1 | .udec4 | .udec2 | .lutSym _ | .lutCls | .divc _ =>
    { src := Window.none, dst := Window.none }

/-- The source bytes: `[ReadByte(SRC_ADDR + t) : t in 0 .. n-1]`. -/
def State.srcBytes (s : State) : List Byte := s.mem.readBytes s.srcAddr.toNat s.srcLen.toNat

/-- The source symbols: `[ReadSym(SRC_ADDR + ES*u) : u in 0 .. n-1]`. -/
def State.srcSyms (s : State) : List Sym := s.mem.readSyms s.cfg.es s.srcAddr.toNat s.srcLen.toNat

end Sys2Proof.Machine
end

