-- ==== Sys2Proof/Machine/Stream.lean ====
section
/-! DEFINITION. The stream commands (42_streaming). Each first checks that its context exists
(30_encoding R126), then its phase, then its windows, then its data (60_exceptions R331). -/

namespace Sys2Proof.Machine

/-- A command on context `k`: ILLEGAL_CMD when there is no such context (30_encoding R126, log 14). -/
def State.onContext (s : State) (k : BitVec 4) (body : State → State) : Host.Outcome State Fault Refusal :=
  if k.toNat < s.cfg.nctx then .next (body s) else .next s.illegal

/-- A FEED or FINAL on a context in phase `p` with windows `w`: BAD_STATE outside OPEN, then `MemCheck`
(42_streaming preamble). -/
def State.whenReady (s : State) (p : Phase) (w : Windows) (body : State → State) : State :=
  if p = .opened then
    match s.memCheck w with
    | some e => s.failMem e
    | none => body s
  else s.failMem .badState

/-- ENC_INIT (42_streaming R210). -/
def execEncInit (k : BitVec 4) (s : State) : Host.Outcome State Fault Refusal :=
  s.onContext k fun s => (s.setEnc k.toNat (EncCtx.empty .opened)).finish .noError

/-- The effect of ENC_FEED once its checks pass (42_streaming R212). -/
def encFeedBody (k : Nat) (s : State) : State :=
  let bytes := (s.encAt k).carry ++ s.srcBytes
  let syms := encPairs s.cfg.alphabet bytes
  (((s.storeDst (symBytes s.cfg.es syms)).setEnc k (EncCtx.after bytes)).setResult
    (encFeedWindows s k).dst.count).finish .noError

/-- ENC_FEED (42_streaming R212). -/
def execEncFeed (k : BitVec 4) (s : State) : Host.Outcome State Fault Refusal :=
  s.onContext k fun s =>
    s.whenReady (s.encAt k.toNat).phase (encFeedWindows s k.toNat) (encFeedBody k.toNat)

/-- The effect of ENC_FINAL once its checks pass (42_streaming R215). -/
def encFinalBody (k : Nat) (s : State) : State :=
  let c := s.encAt k
  let syms := if c.cached then (enc1 s.cfg.alphabet c.trailingByte).toList else []
  (((s.storeDst (symBytes s.cfg.es syms)).setEnc k (EncCtx.empty .closed)).setResult
    (encFinalWindows s k).dst.count).finish .noError

/-- ENC_FINAL (42_streaming R215). -/
def execEncFinal (k : BitVec 4) (s : State) : Host.Outcome State Fault Refusal :=
  s.onContext k fun s =>
    s.whenReady (s.encAt k.toNat).phase (encFinalWindows s k.toNat) (encFinalBody k.toNat)

/-- DEC_INIT (42_streaming R220). -/
def execDecInit (k : BitVec 4) (s : State) : Host.Outcome State Fault Refusal :=
  s.onContext k fun s => (s.setDec k.toNat (DecCtx.empty .opened)).finish .noError

/-- A decode data error: the context goes to FAILED with an empty buffer, `RESULT` counts the bytes written
(42_streaming R222, R223, R227). -/
def State.failDecode (s : State) (k : Nat) (written : Nat) (e : ErrCode) : State :=
  ((s.setDec k (DecCtx.empty .failed)).setResult written).finish e

/-- The effect of DEC_FEED once its checks pass (42_streaming R222). -/
def decFeedBody (k : Nat) (s : State) : State :=
  let syms := (s.decAt k).buffer ++ s.srcSyms
  let out := decGroups s.cfg.alphabet syms
  match out.2 with
  | some e => (s.storeDst out.1).failDecode k out.1.length e
  | none =>
    (((s.storeDst out.1).setDec k (DecCtx.after syms)).setResult (decFeedWindows s k).dst.count).finish .noError

/-- DEC_FEED (42_streaming R222). -/
def execDecFeed (k : BitVec 4) (s : State) : Host.Outcome State Fault Refusal :=
  s.onContext k fun s =>
    s.whenReady (s.decAt k.toNat).phase (decFeedWindows s k.toNat) (decFeedBody k.toNat)

/-- The effect of DEC_FINAL once its checks pass (42_streaming R227). -/
def decFinalBody (k : Nat) (s : State) : State :=
  let d := s.decAt k
  if d.count = 1 ∨ d.count = 3 then s.failDecode k 0 .malformedTail
  else if d.count = 2 then
    match dec2 s.cfg.alphabet { s0 := d.trail0, s1 := d.trail1 } with
    | .err e => s.failDecode k 0 e
    | .ok x => (((s.storeDst [x]).setDec k (DecCtx.empty .closed)).setResult 1).finish .noError
  else ((s.setDec k (DecCtx.empty .closed)).setResult 0).finish .noError

/-- DEC_FINAL (42_streaming R227). -/
def execDecFinal (k : BitVec 4) (s : State) : Host.Outcome State Fault Refusal :=
  s.onContext k fun s =>
    s.whenReady (s.decAt k.toNat).phase (decFinalWindows s k.toNat) (decFinalBody k.toNat)

end Sys2Proof.Machine
end

