-- ==== Sys2Proof/Machine/UnitCodec.lean ====
section
/-! DEFINITION. The unit commands UENC2, UENC1, UDEC4 and UDEC2 (41_unit_codec). -/

namespace Sys2Proof.Machine

/-- `[SYM0, SYM1, SYM2, SYM3] <- g`. -/
def State.setGroup (s : State) (g : Group) : State :=
  (((s.setSym0 g.s0).setSym1 g.s1).setSym2 g.s2).setSym3 g.s3

/-- `[SYM0, SYM1] <- t`. -/
def State.setTail (s : State) (t : Tail) : State := (s.setSym0 t.s0).setSym1 t.s1

/-- UENC2 (41_unit_codec R195). -/
def execUenc2 (s : State) : Host.Outcome State Fault Refusal :=
  if 0xFFFF < s.unitIn.toNat then .next (s.finish .badOperand)
  else .next ((s.setGroup (enc2 s.cfg.alphabet (BitVec.ofNat 16 s.unitIn.toNat))).finish .noError)

/-- UENC1 (41_unit_codec R196). -/
def execUenc1 (s : State) : Host.Outcome State Fault Refusal :=
  if 0xFF < s.unitIn.toNat then .next (s.finish .badOperand)
  else .next ((s.setTail (enc1 s.cfg.alphabet (BitVec.ofNat 8 s.unitIn.toNat))).finish .noError)

/-- UDEC4 (41_unit_codec R197). -/
def execUdec4 (s : State) : Host.Outcome State Fault Refusal :=
  match dec4 s.cfg.alphabet { s0 := s.sym0, s1 := s.sym1, s2 := s.sym2, s3 := s.sym3 } with
  | .err e => .next (s.finish e)
  | .ok v => .next ((s.setUnitOut (v.setWidth 32)).finish .noError)

/-- UDEC2 (41_unit_codec R198). -/
def execUdec2 (s : State) : Host.Outcome State Fault Refusal :=
  match dec2 s.cfg.alphabet { s0 := s.sym0, s1 := s.sym1 } with
  | .err e => .next (s.finish e)
  | .ok x => .next ((s.setUnitOut (x.setWidth 32)).finish .noError)

end Sys2Proof.Machine
end

