-- ==== Sys2Proof/Machine/Divider.lean ====
section
/-! DEFINITION. The reciprocal divider and the two lane datapaths of the vector unit, and their use over the
granules of a command (43_vector_divider R250 to R263). -/

namespace Sys2Proof.Machine

/-- The divisor as a number (30_encoding R123). -/
def Divisor.value : Divisor → Nat
  | .scnb => 2250
  | .snb => 150
  | .sb => 10
  | .sc => 15

/-- `RECIP[d] = (M, S)` (43_vector_divider R251; the spec's own constants, log 20). -/
def recip : Divisor → Nat × Nat
  | .scnb => (29827, 26)
  | .snb => (55925, 23)
  | .sb => (26215, 18)
  | .sc => (34953, 19)

/-- `DivC(x, d)`: quotient by reciprocal multiplication and shift, then the remainder (43_vector_divider R250). -/
def divC (x : Nat) (d : Divisor) : Nat × Nat :=
  let p := x * (recip d).1
  let q := p >>> (recip d).2
  (q, x - q * Divisor.value d)

/-- `VEncLane(v)` (43_vector_divider R255). -/
def vEncLane (a : Alphabet) (v : UnitVal) : Group :=
  let p := v.getLsbD 15
  let w := (v &&& 0x7FFF).toNat
  let (ir, t) := divC w .scnb
  let (ic, u) := divC t .snb
  let (inn, ib) := divC u .sb
  let cr := a.at .R ir
  let cc := a.at .C ic
  let cn := a.at .N inn
  let cb := a.at .B ib
  if p then { s0 := cn, s1 := cb, s2 := cr, s3 := cc } else { s0 := cr, s1 := cc, s2 := cn, s3 := cb }

/-- The value of a decode lane whose four classifications are named by the class each must have, `none` when
the lane is not valid (43_vector_divider R258). -/
def laneValue (pol : Bool) (kr kc kn kb : Option (Cls × Nat)) : Option UnitVal :=
  match kr, kc, kn, kb with
  | some (.R, ir), some (.C, ic), some (.N, inn), some (.B, ib) =>
    let s := ir * 2250 + ic * 150 + inn * 10 + ib
    if s ≤ 0x7FFF then some (BitVec.ofNat 16 s ||| (if pol then (1 : UnitVal) <<< 15 else 0)) else none
  | _, _, _, _ => none

/-- `VDecLane(P0, P1, P2, P3)` (43_vector_divider R258): `some v` when the lane is valid. What an invalid lane
computes for `v` no rule reads. -/
def vDecLane (a : Alphabet) (g : Group) : Option UnitVal :=
  let k0 := a.classify g.s0
  let k1 := a.classify g.s1
  let k2 := a.classify g.s2
  let k3 := a.classify g.s3
  match k0 with
  | some (.R, _) => laneValue false k0 k1 k2 k3
  | _ => laneValue true k2 k3 k0 k1

/-- The lanes of a granule's bytes, each encoded and interleaved in symbol order (43_vector_divider R254). -/
def vencLanes (a : Alphabet) : List Byte → List Sym
  | b0 :: b1 :: rest => (vEncLane a (bits16 b0 b1)).toList ++ vencLanes a rest
  | _ => []

/-- `g` granules of 32 bytes (43_vector_divider R257). -/
def vencGranules (a : Alphabet) : Nat → List Byte → List Sym
  | 0, _ => []
  | g + 1, b => vencLanes a (b.take 32) ++ vencGranules a g (b.drop 32)

/-- The lanes of a granule's symbols, each decoded (43_vector_divider R254). -/
def vdecLanes (a : Alphabet) : List Sym → List (Option UnitVal)
  | s0 :: s1 :: s2 :: s3 :: rest => vDecLane a { s0 := s0, s1 := s1, s2 := s2, s3 := s3 } :: vdecLanes a rest
  | _ => []

/-- The bytes of a granule's lanes when all are valid, `none` when one is not (43_vector_divider R261). -/
def granuleBytes : List (Option UnitVal) → Option (List Byte)
  | [] => some []
  | none :: _ => none
  | some v :: rest => (granuleBytes rest).map (unitBytes v ++ ·)

/-- `g` granules of 64 symbols: the bytes of those before the first bad one, and whether there was none
(43_vector_divider R263). -/
def vdecGranules (a : Alphabet) : Nat → List Sym → List Byte × Bool
  | 0, _ => ([], true)
  | g + 1, t =>
    match granuleBytes (vdecLanes a (t.take 64)) with
    | none => ([], false)
    | some bs => (bs ++ (vdecGranules a g (t.drop 64)).1, (vdecGranules a g (t.drop 64)).2)

end Sys2Proof.Machine
end

