-- ==== Sys2Proof/Machine/VectorUnit.lean ====
section
/-! DEFINITION. The commands DIVC, VENC and VDEC (43_vector_divider). -/

namespace Sys2Proof.Machine

/-- DIVC (43_vector_divider R253). -/
def execDivc (d : Divisor) (s : State) : Host.Outcome State Fault Refusal :=
  let x := s.unitIn.toNat
  if 0x7FFF < x then .next (s.finish .badOperand)
  else
    let (q, r) := divC x d
    .next ((s.setUnitOut ((BitVec.ofNat 32 r <<< 16) ||| BitVec.ofNat 32 q)).finish .noError)

/-- A vector command over granules of `unit` source elements with windows `w`: illegal without the vector unit
(30_encoding R128), BAD_OPERAND on a partial granule, then `MemCheck` (60_exceptions R331). -/
def State.onGranules (s : State) (unit : Nat) (w : Windows) (body : State → State) :
    Host.Outcome State Fault Refusal :=
  if s.cfg.hasVec then
    if s.srcLen.toNat % unit ≠ 0 then .next (s.failMem .badOperand)
    else match s.memCheck w with
      | some e => .next (s.failMem e)
      | none => .next (body s)
  else .next s.illegal

/-- The effect of VENC once its checks pass (43_vector_divider R257). -/
def vencBody (s : State) : State :=
  let syms := vencGranules s.cfg.alphabet (s.srcLen.toNat / 32) s.srcBytes
  ((s.storeDst (symBytes s.cfg.es syms)).setResult (vencWindows s).dst.count).finish .noError

/-- VENC (43_vector_divider R257). -/
def execVenc (s : State) : Host.Outcome State Fault Refusal := s.onGranules 32 (vencWindows s) vencBody

/-- The effect of VDEC once its checks pass (43_vector_divider R263). -/
def vdecBody (s : State) : State :=
  let out := vdecGranules s.cfg.alphabet (s.srcLen.toNat / 64) s.srcSyms
  if out.2 then ((s.storeDst out.1).setResult (vdecWindows s).dst.count).finish .noError
  else ((s.storeDst out.1).setResult out.1.length).finish .granuleFail

/-- VDEC (43_vector_divider R263). -/
def execVdec (s : State) : Host.Outcome State Fault Refusal := s.onGranules 64 (vdecWindows s) vdecBody

end Sys2Proof.Machine
end

