-- ==== Sys2Proof/Machine/Dispatch.lean ====
section
/-! DEFINITION. What a command does: one arm per constructor of Instr. -/

namespace Sys2Proof.Machine

def exec (i : Instr) (s : State) : Host.Outcome State Fault Refusal :=
  match i with
  | .nop => Sys2Proof.Machine.execNop s
  | .encInit k => Sys2Proof.Machine.execEncInit k s
  | .encFeed k => Sys2Proof.Machine.execEncFeed k s
  | .encFinal k => Sys2Proof.Machine.execEncFinal k s
  | .decInit k => Sys2Proof.Machine.execDecInit k s
  | .decFeed k => Sys2Proof.Machine.execDecFeed k s
  | .decFinal k => Sys2Proof.Machine.execDecFinal k s
  | .uenc2 => Sys2Proof.Machine.execUenc2 s
  | .uenc1 => Sys2Proof.Machine.execUenc1 s
  | .udec4 => Sys2Proof.Machine.execUdec4 s
  | .udec2 => Sys2Proof.Machine.execUdec2 s
  | .lutSym c => Sys2Proof.Machine.execLutSym c s
  | .lutCls => Sys2Proof.Machine.execLutCls s
  | .divc d => Sys2Proof.Machine.execDivc d s
  | .venc => Sys2Proof.Machine.execVenc s
  | .vdec => Sys2Proof.Machine.execVdec s

end Sys2Proof.Machine
end

