-- ==== Sys2Proof/Machine/Complete.lean ====
section
/-! DEFINITION. The completion step of the block (10_state R31). -/

namespace Sys2Proof.Machine

/-- The completion step: the word in CMD is decoded and performed; a word that is no command completes with
ILLEGAL_CMD (30_encoding R126, R127). -/
def complete (s : State) : Host.Outcome State Fault Refusal :=
  match decode s.cmd with
  | .command i => exec i s
  | .rejected _ => .next s.illegal

/-- The block's turn: its completion step while BUSY = 1, and no step otherwise (10_state R31), when the machine
waits for its host (log 8). -/
def blockTurn (s : State) : Host.Outcome State Fault Refusal :=
  if s.status.busy then complete s else .next s

/-- The windows of the pending command (20_memory R87); an illegal word has none (log 26). -/
def pendingWindows (s : State) : Windows :=
  match decode s.cmd with
  | .command i => if wellFormed s.cfg i then windowsOf s i else { src := Window.none, dst := Window.none }
  | .rejected _ => { src := Window.none, dst := Window.none }

/-- What data memory would be if the pending command completed now. -/
def memAfterPending (s : State) : Memory :=
  match complete s with
  | .next t => t.mem
  | .fault _ => s.mem
  | .refused _ => s.mem

end Sys2Proof.Machine
end

