-- ==== Sys2Proof/Machine/Flags.lean ====
section
/-! DEFINITION. The codes and the STATUS word, and what the host's register writes do to STATUS
(10_state R36, R44, 60_exceptions R320, 44_host_interface R292, R293). -/

namespace Sys2Proof.Machine

/-- The code of an error (60_exceptions R320). -/
def ErrCode.code : ErrCode → BitVec 4
  | .noError => 0
  | .invalidSymbol => 1
  | .outOfRange => 2
  | .malformedTail => 3
  | .capacity => 4
  | .badState => 5
  | .illegalCmd => 6
  | .badBuffer => 7
  | .busError => 8
  | .granuleFail => 9
  | .badOperand => 10

/-- The value of a phase (10_state R44). -/
def Phase.code : Phase → BitVec 2
  | .uninit => 0
  | .opened => 1
  | .closed => 2
  | .failed => 3

/-- A flag as bit 0 of a word. -/
def bit (b : Bool) : Word := if b then 1 else 0

/-- The STATUS register as it reads: BUSY bit 0, ERR bits 7:4, HZ bit 8, every other bit 0 (10_state R36). -/
def Status.word (t : Status) : Word :=
  (bit t.hz <<< 8) ||| (t.err.code.setWidth 32 <<< 4) ||| bit t.busy

/-- An accepted write of `w` to CMD (44_host_interface R292). -/
def State.accept (s : State) (w : Word) : State :=
  { s with cmd := w, status := { busy := true, err := .noError, hz := false } }

/-- A dropped write (44_host_interface R293): `STATUS.HZ <- 1`. -/
def State.markHz (s : State) : State :=
  { s with status := { busy := s.status.busy, err := s.status.err, hz := true } }

end Sys2Proof.Machine
end

