-- ==== Sys2Proof/Machine/Registers.lean ====
section
/-! DEFINITION. The register block as the host sees it: the map of 10_state R32, its reads and its writes. -/

namespace Sys2Proof.Machine

/-- `ID` (10_state R33). -/
def idValue : Word := 0x52434E42

/-- `CAP` (10_state R34): HAS_VEC bit 0, NCTX_M1 7:4, SYM_W 15:8, VERSION 23:16. -/
def capWord (c : Config) : Word :=
  (1#32 <<< 16) ||| (BitVec.ofNat 32 c.symW.bits <<< 8) |||
    ((BitVec.ofNat 4 (c.nctx - 1)).setWidth 32 <<< 4) ||| bit c.hasVec

/-- `ENC_VIEW[k]` (10_state R48): CACHED bit 0, TRAILING_BYTE 15:8, PHASE 25:24. -/
def encView (c : EncCtx) : Word :=
  (c.phase.code.setWidth 32 <<< 24) ||| (c.trailingByte.setWidth 32 <<< 8) ||| bit c.cached

/-- `DEC_VIEW[k].STATE` (10_state R49): I bits 2:0, PHASE 25:24. -/
def decView (d : DecCtx) : Word :=
  (d.phase.code.setWidth 32 <<< 24) ||| BitVec.ofNat 32 d.count.val

/-- `TRAIL[j]` for `j = 0..3` (10_state R47, R49). -/
def DecCtx.trail (d : DecCtx) : Nat → Sym
  | 0 => d.trail0
  | 1 => d.trail1
  | 2 => d.trail2
  | 3 => d.trail3
  | _ => 0

/-- The read-only context views at offsets 0x100 and up (10_state R32, R48, R49); 0 elsewhere (R50). -/
def readView (s : State) (off : Nat) : Word :=
  if 0x100 ≤ off ∧ off < 0x200 then
    let k := (off - 0x100) / 0x10
    if (off - 0x100) % 0x10 = 0 ∧ k < s.cfg.nctx then encView (s.encAt k) else 0
  else if 0x200 ≤ off then
    let k := (off - 0x200) / 0x20
    let within := (off - 0x200) % 0x20
    if k < s.cfg.nctx then
      if within = 0 then decView (s.decAt k)
      else if within % 4 = 0 ∧ within ≤ 0x10 then DecCtx.trail (s.decAt k) (within / 4 - 1)
      else 0
    else 0
  else 0

/-- The value the register at offset `off` reads as (10_state R32 to R50). -/
def readReg (s : State) (off : Nat) : Word :=
  match off with
  | 0x000 => idValue
  | 0x004 => capWord s.cfg
  | 0x008 => s.cmd
  | 0x00C => Status.word s.status
  | 0x010 => s.srcAddr
  | 0x014 => s.srcLen
  | 0x018 => s.dstAddr
  | 0x01C => s.dstCap
  | 0x020 => s.result
  | 0x024 => s.unitIn
  | 0x028 => s.unitOut
  | 0x030 => s.sym0
  | 0x034 => s.sym1
  | 0x038 => s.sym2
  | 0x03C => s.sym3
  | off => readView s off

/-- The offsets of CMD and of the RW registers (10_state R32). -/
def writableOffsets : List Nat :=
  [0x008, 0x010, 0x014, 0x018, 0x01C, 0x024] ++ [0x030, 0x034, 0x038, 0x03C]

/-- A write to an operand register while idle (44_host_interface R294); a write to any other offset is ignored
(10_state R50). -/
def writeOperand (s : State) (off : Nat) (v : Word) : State :=
  match off with
  | 0x010 => { s with srcAddr := v }
  | 0x014 => { s with srcLen := v }
  | 0x018 => { s with dstAddr := v }
  | 0x01C => { s with dstCap := v }
  | 0x024 => { s with unitIn := v }
  | 0x030 => s.setSym0 v
  | 0x034 => s.setSym1 v
  | 0x038 => s.setSym2 v
  | 0x03C => s.setSym3 v
  | _ => s

/-- A write of a register at an offset of the block: while busy a write to CMD or an RW register is dropped and
sets HZ (44_host_interface R293); while idle CMD starts a command (R292) and an operand is stored (R294). -/
def writeReg (s : State) (off : Nat) (v : Word) : State :=
  if s.status.busy then
    if off ∈ writableOffsets then s.markHz else s
  else if off = 0x008 then s.accept v
  else writeOperand s off v

end Sys2Proof.Machine
end

