-- ==== Sys2Proof/Machine/HostInterface.lean ====
section
/-! DEFINITION. The host agent's steps (44_host_interface, 70_reset_and_hazards). -/

namespace Sys2Proof.Machine

/-- A register access: refused unless it is a naturally aligned 32-bit access to the register block
(44_host_interface R290); `f` gets the offset from REG_BASE (10_state R32). -/
def State.onRegister (s : State) (addr width : Nat) (f : Nat → State) : Host.Outcome State Fault Refusal :=
  if addr < s.cfg.regBase ∨ s.cfg.regBase + 4096 ≤ addr then .refused (.outsideRegisterBlock addr)
  else if width ≠ 4 ∨ (addr - s.cfg.regBase) % 4 ≠ 0 then .refused (.registerAccessForm addr width)
  else .next (f (addr - s.cfg.regBase))

/-- A host access to byte `a` of data memory. `hazard` tells whether the access is one the host may not make
while a command is pending (70_reset_and_hazards R366); a byte that is not Accessible does not answer. -/
def State.onMemory (s : State) (a : Nat) (hazard : Windows → Bool) (f : State) :
    Host.Outcome State Fault Refusal :=
  if s.status.busy && hazard (pendingWindows s) then .refused (.windowHazard a)
  else if Config.accessible s.cfg a then .next f
  else .fault (.hostMemoryNoAnswer a)

/-- The reset input (70_reset_and_hazards R360). A command that is pending is abandoned, and each byte of memory
is a free draw between its value and what that command would have written (R362): the two differ in that
command's destination window only. -/
def State.hostReset (s : State) : State :=
  if s.status.busy then
    { (s.setMem (Memory.drawBetween s.resetDraws s.mem (memAfterPending s))).resetBlock with
      resetDraws := s.resetDraws + 1 }
  else s.resetBlock

/-- One action of the host. -/
def hostAct (a : HostAction) (s : State) : Host.Outcome State Fault Refusal :=
  match a with
  | .regWrite addr width v => s.onRegister addr width fun off => writeReg s off v
  | .regRead addr width => s.onRegister addr width fun off => { s with hostRead := readReg s off }
  | .memWrite addr b =>
    s.onMemory addr.toNat (fun w => w.src.has addr.toNat || w.dst.has addr.toNat)
      (s.setMem (s.mem.write addr.toNat b))
  | .memRead addr =>
    s.onMemory addr.toNat (fun w => w.dst.has addr.toNat)
      { s with hostRead := (s.mem.read addr.toNat).setWidth 32 }
  | .reset => .next s.hostReset
  | .yield => blockTurn s

/-- An accepted write of a command word, placed so that the very next step performs it: the block has the turn
before the host's next action. -/
def State.issue (s : State) (w : Word) : State :=
  { s.accept w with
    inputs := match s.inputs with
      | [] => []
      | a :: rest => .yield :: a :: rest }

end Sys2Proof.Machine
end

