-- ==== Sys2Proof/Machine/Step.lean ====
section
/-! DEFINITION. One step of the machine: the host's next action, or the block's turn. -/

namespace Sys2Proof.Machine

/-- One step. With host actions left, the oldest is taken and performed; with none left the block has every
turn, so that an accepted command completes (10_state R30, R31, 70_reset_and_hazards R368, log 6). -/
def step (s : State) : Host.Outcome State Fault Refusal :=
  match s.inputs with
  | [] => blockTurn s
  | a :: rest => hostAct a { s with inputs := rest }

/-- `s` with the command word `w` accepted as by a host write to CMD (44_host_interface R292), so that the next
step runs it. The block fetches nothing: this write is how a command comes to it (log 16). A word of fewer bits
has zeros above them. -/
def State.withFetchWord (s : State) (nbits w : Nat) : State := s.issue (BitVec.ofNat 32 (w % 2 ^ nbits))

end Sys2Proof.Machine
end

