-- ==== Sys2Proof/Safety.lean ====
section
/-! DEFINITION. What counts as a good state, a safe step and the end of a run, in the words claims use. -/

namespace Sys2Proof

open Sys2Proof.Machine

/-- A value fits a symbol slot: it is below `2^SYM_W` (10_state R45, R47). -/
abbrev SymFits (w : SymWidth) (x : Sym) : Prop := x.toNat < 2 ^ w.bits

/-- The invariants of an encode context (10_state R57 (a), (d), (e)): no stale pending byte, an empty carry
outside OPEN, never FAILED. -/
abbrev EncOk (c : EncCtx) : Prop :=
  (c.cached = false → c.trailingByte = 0) ∧ (c.phase ≠ .opened → c.cached = false) ∧ c.phase ≠ .failed

/-- The invariants of a decode context (10_state R57 (b), (c), (d), (f)): `I` is at most 3, the slots at and
past it are 0, the buffer is empty outside OPEN, and every slot holds `SYM_W` bits (R47). -/
abbrev DecOk (w : SymWidth) (d : DecCtx) : Prop :=
  d.count.val ≤ 3 ∧ (d.count.val ≤ 0 → d.trail0 = 0) ∧ (d.count.val ≤ 1 → d.trail1 = 0) ∧
  (d.count.val ≤ 2 → d.trail2 = 0) ∧ (d.count.val ≤ 3 → d.trail3 = 0) ∧
  (d.phase ≠ .opened → d.count = 0) ∧
  SymFits w d.trail0 ∧ SymFits w d.trail1 ∧ SymFits w d.trail2 ∧ SymFits w d.trail3

/-- The contexts that exist are exactly those below `NCTX`, and each keeps its invariants (10_state R46, R47,
R57). -/
abbrev ContextsOk (s : State) : Prop :=
  s.enc.length = s.cfg.nctx ∧ s.dec.length = s.cfg.nctx ∧
  (∀ c ∈ s.enc, EncOk c) ∧ (∀ d ∈ s.dec, DecOk s.cfg.symW d)

/-- The symbol registers hold `SYM_W` bits (10_state R45). -/
abbrev SymsFit (s : State) : Prop :=
  SymFits s.cfg.symW s.sym0 ∧ SymFits s.cfg.symW s.sym1 ∧ SymFits s.cfg.symW s.sym2 ∧ SymFits s.cfg.symW s.sym3

/-- The invariant of the machine: contexts as in 10_state R57, symbol registers of `SYM_W` bits, memory in its
canonical form. -/
abbrev MachineInv (s : State) : Prop := ContextsOk s ∧ SymsFit s ∧ Memory.wf s.mem

/-- A step is safe when it neither faults nor is refused. -/
def SafeStep (s : State) : Prop := ∃ t, step s = .next t

/-! ## Runs of a host program (44_host_interface R299)

A host program is the list of actions of the state a run starts from (log 6). -/

/-- The streams a run has opened, encode and decode, each by the number of its context (log 31). -/
structure Streams where
  enc : List Nat
  dec : List Nat
  deriving DecidableEq, Repr

/-- No stream: what a run has opened when it starts. -/
def Streams.none : Streams := { enc := [], dec := [] }

/-- The block has the turn in this state: the host has nothing left to do, or gives it the turn. -/
def blockHasTurn (s : State) : Bool :=
  match s.inputs with
  | [] => true
  | .yield :: _ => true
  | .regWrite .. :: _ | .regRead .. :: _ | .memWrite .. :: _ | .memRead .. :: _ | .reset :: _ => false

/-- The streams opened once the step from `s` is taken: an INIT of a context that exists opens one when it completes
(42_streaming R210, R220). -/
def Streams.afterStep (o : Streams) (s : State) : Streams :=
  if s.status.busy && blockHasTurn s then
    match decode s.cmd with
    | .command (.encInit k) => if k.toNat < s.cfg.nctx then { o with enc := k.toNat :: o.enc } else o
    | .command (.decInit k) => if k.toNat < s.cfg.nctx then { o with dec := k.toNat :: o.dec } else o
    | _ => o
  else o

/-- The run of `n` steps from `s`, after `o` was opened: the state it reaches and the streams opened by then. There is
none when a step of it faults or is refused. -/
def runFor : Nat → State → Streams → Option (State × Streams)
  | 0, s, o => some (s, o)
  | n + 1, s, o =>
    match step s with
    | .next t => runFor n t (o.afterStep s)
    | .fault _ => .none
    | .refused _ => .none

/-- A host action that issues a command: an aligned 32-bit write to CMD (44_host_interface R292). -/
def issuesCommand (c : Config) : HostAction → Bool
  | .regWrite addr width _ => decide (addr = c.regBase + 0x008 ∧ width = 4)
  | .regRead .. | .memWrite .. | .memRead .. | .reset | .yield => false

/-- The three conditions of 44_host_interface R299 on a state `t` that a run reaches having opened `o`, for a program
that says it leaves the streams `left` open: no command is still to be issued (other host actions may be); nothing is
pending; every stream it opened is CLOSED or FAILED, or one of `left`. Contexts it did not open are not judged, and a
stream that a reset has made UNINIT is neither CLOSED nor FAILED. -/
abbrev Ended (o left : Streams) (t : State) : Prop :=
  (∀ a ∈ t.inputs, issuesCommand t.cfg a = false) ∧ t.status.busy = false ∧
  (∀ k ∈ o.enc, (t.encAt k).phase = .closed ∨ (t.encAt k).phase = .failed ∨ k ∈ left.enc) ∧
  (∀ k ∈ o.dec, (t.decAt k).phase = .closed ∨ (t.decAt k).phase = .failed ∨ k ∈ left.dec)

/-- The run from `s` has ended in `t` after `n` steps (44_host_interface R299). DESIGN CHOICE (log 32): R299 leaves open
whether host actions still left once its three conditions hold (operand or memory writes) come before or after the point
observed. This holds at the first state that meets the conditions and at every later one that meets them, each of which
may be observed; neither the end nor its observation is pinned to the first. Unsafe: see the log. -/
abbrev RunEnded (s : State) (left : Streams) (n : Nat) (t : State) : Prop :=
  ∃ o, runFor n s Streams.none = some (t, o) ∧ Ended o left t

/-- The observation at the end of a run: data memory, the register block and the context files, in the block's
configuration (44_host_interface R299). What the model adds for the host is no part of it. It may be taken at any state
of the run that meets R299's conditions, before or after host actions that are left (DESIGN CHOICE, log 32). -/
def observation (t : State) : State := { t with inputs := [], hostRead := 0, resetDraws := 0 }

/-- The `STATUS` a command leaves when it completes with code `e`: not busy, `HZ` as it was (10_state R31, R36). -/
def statusAfter (s : State) (e : ErrCode) : Status := { busy := false, err := e, hz := s.status.hz }

/-- The six memory commands (10_state R41). -/
def isMemoryCommand : Instr → Bool
  | .encFeed _ | .encFinal _ | .decFeed _ | .decFinal _ | .venc | .vdec => true
  | .nop | .encInit _ | .decInit _ | .uenc2 | .uenc1 | .udec4 | .udec2 | .lutSym _ | .lutCls | .divc _ => false

/-- The codes a command can report (60_exceptions R320, the column "raised by"; ILLEGAL_CMD and NONE any). -/
def reportable : Instr → List ErrCode
  | .nop | .encInit _ | .decInit _ | .lutCls => [.noError, .illegalCmd]
  | .encFeed _ | .encFinal _ => [.noError, .illegalCmd, .capacity, .badState, .badBuffer, .busError]
  | .decFeed _ =>
    [.noError, .illegalCmd, .capacity, .badState, .badBuffer, .busError, .invalidSymbol, .outOfRange]
  | .decFinal _ =>
    [.noError, .illegalCmd, .capacity, .badState, .badBuffer, .busError, .invalidSymbol, .outOfRange, .malformedTail]
  | .udec4 | .udec2 => [.noError, .illegalCmd, .invalidSymbol, .outOfRange]
  | .uenc2 | .uenc1 | .lutSym _ | .divc _ => [.noError, .illegalCmd, .badOperand]
  | .venc => [.noError, .illegalCmd, .capacity, .badBuffer, .busError, .badOperand]
  | .vdec => [.noError, .illegalCmd, .capacity, .badBuffer, .busError, .badOperand, .granuleFail]

/-- The value of a unit of two bytes: the earlier byte is the high one (20_memory R83). -/
def unitOf (hi lo : Byte) : UnitVal := BitVec.ofNat 16 (256 * hi.toNat + lo.toNat)

/-- Pair `j` of a byte sequence, its first byte high (42_streaming R212). -/
def pairAt (b : List Byte) (j : Nat) : UnitVal := unitOf (b.getD (2 * j) 0) (b.getD (2 * j + 1) 0)

/-- Group `g` of a symbol sequence (42_streaming R222). -/
def groupAt (t : List Sym) (g : Nat) : Group :=
  { s0 := t.getD (4 * g) 0, s1 := t.getD (4 * g + 1) 0, s2 := t.getD (4 * g + 2) 0, s3 := t.getD (4 * g + 3) 0 }

/-- The group of a class and its digits in the orientation `high` (41_unit_codec R180, R182). -/
def orientedGroup (a : Alphabet) (high : Bool) (ir ic inn ib : Nat) : Group :=
  if high then { s0 := a.at .N inn, s1 := a.at .B ib, s2 := a.at .R ir, s3 := a.at .C ic }
  else { s0 := a.at .R ir, s1 := a.at .C ic, s2 := a.at .N inn, s3 := a.at .B ib }

/-! ## Symbols in memory, byte by byte (20_memory R82) -/

/-- The number of bytes of a symbol (00_scope R13: `ES = SYM_W/8`). -/
def symbolSize : SymWidth → Nat
  | .w16 => 2
  | .w32 => 4

/-- The symbol in memory from address `a` upward, its least significant byte first. -/
def symbolAt (s : State) (a : Nat) : Sym :=
  let byte := fun i => (s.mem.read (a + i)).toNat
  match s.cfg.symW with
  | .w16 => BitVec.ofNat 32 (byte 0 + 256 * byte 1)
  | .w32 => BitVec.ofNat 32 (byte 0 + 256 * byte 1 + 65536 * byte 2 + 16777216 * byte 3)

/-- The `SRC_LEN` symbols from `SRC_ADDR` upward. -/
def sourceSymbols (s : State) : List Sym :=
  (List.range s.srcLen.toNat).map fun u => symbolAt s (s.srcAddr.toNat + symbolSize s.cfg.symW * u)

/-- The `SRC_LEN` bytes from `SRC_ADDR` upward. -/
def sourceBytes (s : State) : List Byte :=
  (List.range s.srcLen.toNat).map fun i => s.mem.read (s.srcAddr.toNat + i)

/-- The symbols `f 0, f 1, …` are stored from `addr` upward, `n` of them: byte `i` of a symbol, counted from its least
significant one, at the symbol's address plus `i`. -/
def SymbolsAt (s : State) (addr n : Nat) (f : Nat → Sym) : Prop :=
  ∀ u < n, ∀ i < symbolSize s.cfg.symW,
    (s.mem.read (addr + symbolSize s.cfg.symW * u + i)).toNat = (f u).toNat / 256 ^ i % 256

/-- Every byte of memory outside the `n` bytes from `addr` upward is the same in both states. -/
def SameOutside (s t : State) (addr n : Nat) : Prop :=
  ∀ a, (a < addr ∨ addr + n ≤ a) → t.mem.read a = s.mem.read a

end Sys2Proof
end

