-- ==== Sys2Proof/Certificates/Slice0/Obligations.lean ====
section
/-! DEFINITION. The statements about this model. Each docstring names the rules of spec/ it formalises. -/

open Sys2Proof Sys2Proof.Machine

/-! ## Command words -/

/-- 30_encoding R121 to R123, R125: a word decodes to a command exactly when it is that command's word, its context
or selector included, so no bit is dropped and no two commands share a word. -/
def Obligations.DecodeAndEncodeAgree : Prop :=
  ∀ (w : Word) (i : Instr), decode w = .command i ↔ w = encode i

/-- 30_encoding R126: `Legal` accepts a word exactly when it decodes to a command that is well formed in the
configuration. -/
def Obligations.LegalIsDecodableAndWellFormed : Prop :=
  ∀ (c : Config) (w : Word), legal c w = true ↔ ∃ i, decode w = .command i ∧ wellFormed c i = true

/-- 30_encoding R142: the word examples. -/
def Obligations.SpecWordExamples : Prop :=
  decode 0x00000002 = .command (.encFeed 0) ∧ decode 0x00000305 = .command (.decFeed 3) ∧
  decode 0x00003020 = .command (.lutSym .B) ∧ decode 0x00002030 = .command (.divc .sb) ∧
  decode 0x00000041 = .command .vdec ∧
  (∀ c, legal c 0x00010002 = false) ∧ (∀ c, legal c 0x00000110 = false) ∧ (∀ c, legal c 0x00004020 = false)

/-! ## The step -/

/-- 10_state R31: with a command pending and the block's turn come (no host action left, or the host gives the
turn), the step is exactly the meaning of the command decoded from CMD. -/
def Obligations.StepRunsDecodedCommand : Prop :=
  ∀ (s : State) (i : Instr), s.status.busy = true → decode s.cmd = .command i →
    (s.inputs = [] → step s = exec i s) ∧
    (∀ rest, s.inputs = .yield :: rest → step s = exec i { s with inputs := rest })

/-- 10_state R30, R31: with host actions left a step performs the oldest, where `yield` gives the block its turn;
with none left, an idle block waits ("When STATUS.BUSY = 0, the block has no enabled step"). That waiting keeps the
state, and that the host is a list of actions, are the model's choice (log 6, log 8). -/
def Obligations.StepFollowsInputs : Prop :=
  ∀ s : State,
    (∀ a rest, s.inputs = a :: rest → step s = hostAct a { s with inputs := rest }) ∧
    (s.status.busy = false → s.inputs = [] → step s = .next s) ∧
    (s.status.busy = false → hostAct .yield s = .next s)

/-- 30_encoding R126, R127: a pending word either passes `Legal` and runs its one command, or completes with
ILLEGAL_CMD and no other effect; the all-zero word passes and is NOP. -/
def Obligations.EveryWordRunsOrIsIllegal : Prop :=
  (∀ s : State, s.status.busy = true →
    (legal s.cfg s.cmd = true → ∃ i, decode s.cmd = .command i ∧ blockTurn s = exec i s) ∧
    (legal s.cfg s.cmd = false → blockTurn s = .next { s with status := statusAfter s .illegalCmd })) ∧
  (∀ c, legal c 0 = true) ∧ decode 0 = .command .nop

/-- 30_encoding R126, R128: a stream command on a context that does not exist, and VENC or VDEC without the vector
unit, only report ILLEGAL_CMD; DIVC runs with and without it. -/
def Obligations.AbsentContextOrUnitIsIllegal : Prop :=
  (∀ (s : State) (i : Instr), wellFormed s.cfg i = false →
    exec i s = .next { s with status := statusAfter s .illegalCmd }) ∧
  (∀ (c : Config) (i : Instr), wellFormed c i = false ↔
    (∃ k : BitVec 4, c.nctx ≤ k.toNat ∧
      i ∈ [.encInit k, .encFeed k, .encFinal k, .decInit k, .decFeed k, .decFinal k]) ∨
    (c.hasVec = false ∧ (i = .venc ∨ i = .vdec)))

/-- 93_implementation_defined ("There is no stuck behaviour: every legal or illegal command completes"), 10_state
R31, R35: every command answers a next state, not busy, with HZ and CMD as they were; so the block's turn is always
a safe step. Three things here are the model's choices and not the spec's: that `exec` has a meaning with BUSY = 0 too
(log 15), that the block has the turn when the host's list is empty or says so (log 6), and that an idle block's turn is
a step, which keeps the state (log 8). -/
def Obligations.EveryCommandCompletes : Prop :=
  (∀ (i : Instr) (s : State), ∃ t, exec i s = .next t ∧ t.status.busy = false ∧
    t.status.hz = s.status.hz ∧ t.cmd = s.cmd) ∧
  (∀ s : State, (s.inputs = [] ∨ ∃ rest, s.inputs = .yield :: rest) → SafeStep s)

/-- 10_state R41, R43, R45, R51, R54: no command writes SRC_ADDR, SRC_LEN, DST_ADDR, DST_CAP, UNIT_IN, the
configuration, or anything of the host's. RESULT is written by the six memory commands only; UNIT_OUT by UDEC4,
UDEC2, LUT_CLS and DIVC only; SYM0 to SYM3 by UENC2, SYM0 and SYM1 by UENC1, SYM0 by LUT_SYM only. -/
def Obligations.RegistersHaveTheirWriters : Prop :=
  ∀ (i : Instr) (s t : State), exec i s = .next t →
    (t.srcAddr = s.srcAddr ∧ t.srcLen = s.srcLen ∧ t.dstAddr = s.dstAddr ∧ t.dstCap = s.dstCap ∧
      t.unitIn = s.unitIn ∧ t.cfg = s.cfg ∧ t.inputs = s.inputs ∧ t.hostRead = s.hostRead ∧
      t.resetDraws = s.resetDraws) ∧
    (t.result = s.result ∨ isMemoryCommand i = true) ∧
    (t.unitOut = s.unitOut ∨ i = .udec4 ∨ i = .udec2 ∨ i = .lutCls ∨ ∃ d, i = .divc d) ∧
    (t.sym0 = s.sym0 ∨ i = .uenc2 ∨ i = .uenc1 ∨ ∃ c, i = .lutSym c) ∧
    (t.sym1 = s.sym1 ∨ i = .uenc2 ∨ i = .uenc1) ∧
    (t.sym2 = s.sym2 ∨ i = .uenc2) ∧ (t.sym3 = s.sym3 ∨ i = .uenc2)

/-- 10_state R46, R47, R53: a command on context `k` leaves every other context, and every context of the other
direction, as it was; a command without a context leaves them all. -/
def Obligations.ContextsAreIndependent : Prop :=
  ∀ (i : Instr) (s t : State), exec i s = .next t →
    match i with
    | .encInit k | .encFeed k | .encFinal k =>
      t.dec = s.dec ∧ t.enc.length = s.enc.length ∧ ∀ j, j ≠ k.toNat → t.encAt j = s.encAt j
    | .decInit k | .decFeed k | .decFinal k =>
      t.enc = s.enc ∧ t.dec.length = s.dec.length ∧ ∀ j, j ≠ k.toNat → t.decAt j = s.decAt j
    | _ => t.enc = s.enc ∧ t.dec = s.dec

/-- 20_memory R87, R90: a command changes no byte of memory outside its destination window, and a command that is
no memory command changes none. -/
def Obligations.WritesStayInDestinationWindow : Prop :=
  ∀ (i : Instr) (s t : State), exec i s = .next t →
    (∀ a, (windowsOf s i).dst.has a = false → t.mem.read a = s.mem.read a) ∧
    (isMemoryCommand i = false → t.mem = s.mem)

/-- 60_exceptions R320, 43_vector_divider R266: which command can report which code; GRANULE_FAIL comes only out of
VDEC. -/
def Obligations.ErrorCodesComeFromTheirCommands : Prop :=
  ∀ (i : Instr) (s t : State), exec i s = .next t → t.status.err ∈ reportable i

/-! ## Memory checks -/

/-- 20_memory R85, R86, R88, R89: `MemCheck` reports the first of CAPACITY, BAD_BUFFER (alignment and wrap, then
overlap) and BUS_ERROR that applies, and passes when none does; a command whose `MemCheck` fails writes
`RESULT <- 0` and the code, and nothing else. -/
def Obligations.MemCheckReportsFirstFailure : Prop :=
  (∀ (s : State) (w : Windows),
    let fits := fun v : Window => v.count = 0 ∨ (v.base % v.es = 0 ∧ v.base + v.count * v.es ≤ 4294967296)
    let inWin := fun (v : Window) (a : Nat) => v.base ≤ a ∧ a < v.base + v.count * v.es
    (s.dstCap.toNat < w.dst.count → s.memCheck w = some .capacity) ∧
    (w.dst.count ≤ s.dstCap.toNat → ¬ (fits w.src ∧ fits w.dst) → s.memCheck w = some .badBuffer) ∧
    (w.dst.count ≤ s.dstCap.toNat → fits w.src → fits w.dst → (∃ a, inWin w.src a ∧ inWin w.dst a) →
      s.memCheck w = some .badBuffer) ∧
    (w.dst.count ≤ s.dstCap.toNat → fits w.src → fits w.dst → (∀ a, ¬ (inWin w.src a ∧ inWin w.dst a)) →
      (∃ a, (inWin w.src a ∨ inWin w.dst a) ∧ Config.accessible s.cfg a = false) →
      s.memCheck w = some .busError) ∧
    (w.dst.count ≤ s.dstCap.toNat → fits w.src → fits w.dst → (∀ a, ¬ (inWin w.src a ∧ inWin w.dst a)) →
      (∀ a, inWin w.src a ∨ inWin w.dst a → Config.accessible s.cfg a = true) → s.memCheck w = none)) ∧
  (∀ (s : State) (i : Instr) (e : ErrCode), isMemoryCommand i = true → wellFormed s.cfg i = true →
    (match i with
      | .encFeed k | .encFinal k => (s.encAt k.toNat).phase = .opened
      | .decFeed k | .decFinal k => (s.decAt k.toNat).phase = .opened
      | .venc => s.srcLen.toNat % 32 = 0
      | .vdec => s.srcLen.toNat % 64 = 0
      | _ => False) →
    s.memCheck (windowsOf s i) = some e →
    exec i s = .next { s with result := 0, status := statusAfter s e })

/-- 20_memory R89, 42_streaming preamble, 43_vector_divider R257, R263: a memory command that ends in BAD_STATE,
BAD_OPERAND, CAPACITY, BAD_BUFFER or BUS_ERROR writes `RESULT <- 0` and the code and nothing else. -/
def Obligations.FailedChecksChangeNothingElse : Prop :=
  ∀ (i : Instr) (s t : State), isMemoryCommand i = true → exec i s = .next t →
    t.status.err ∈ [ErrCode.badState, .badOperand, .capacity, .badBuffer, .busError] →
    t = { s with result := 0, status := statusAfter s t.status.err }

/-! ## Control, look-up, unit and divider commands -/

/-- 44_host_interface R296: NOP writes only `ERR <- 0` and `BUSY <- 0`; its only word is 0, and every other word
with `OPC = 0` is illegal. -/
def Obligations.NopWritesOnlyStatus : Prop :=
  (∀ s : State, exec .nop s = .next { s with status := { busy := false, err := .noError, hz := s.status.hz } }) ∧
  (∀ w : Word, decode w = .command .nop ↔ w = 0) ∧
  (∀ (c : Config) (w : Word), opcOf w = 0 → w ≠ 0 → legal c w = false)

/-- 40_alphabet_lut R160: LUT_SYM reads the sequence of its class (R = 0, C = 1, N = 2, B = 3) below the class size and
fails BAD_OPERAND at or above it, for every valid alphabet. -/
def Obligations.LutSymReadsTable : Prop :=
  ∀ (s : State) (c : Cls), s.cfg.alphabet.Valid s.cfg.symW →
    let a := s.cfg.alphabet
    let sel := match c with | .R => 0 | .C => 1 | .N => 2 | .B => 3
    let size := match c with | .R => 15 | .C => 15 | .N => 15 | .B => 10
    let table := match c with | .R => a.r | .C => a.c | .N => a.n | .B => a.b
    (encode (.lutSym c)).toNat = 0x20 + 4096 * sel ∧
    (s.unitIn.toNat < size →
      exec (.lutSym c) s = .next { s with
        sym0 := table.getD s.unitIn.toNat 0, status := statusAfter s .noError }) ∧
    (size ≤ s.unitIn.toNat →
      exec (.lutSym c) s = .next { s with status := statusAfter s .badOperand })

/-- 40_alphabet_lut R153, R161: LUT_CLS answers FOUND, the class (R = 0, C = 1, N = 2, B = 3) and the index of a symbol
of a valid alphabet, and 0 for a foreign symbol. -/
def Obligations.LutClsFindsSymbol : Prop :=
  ∀ s : State, s.cfg.alphabet.Valid s.cfg.symW →
    let a := s.cfg.alphabet
    let found := fun (table : List Sym) (code : Nat) => ∀ i < table.length, table.getD i 0 = s.sym0 →
      exec .lutCls s
        = .next { s with unitOut := BitVec.ofNat 32 (256 + 16 * code + i), status := statusAfter s .noError }
    (encode .lutCls).toNat = 0x21 ∧
    found a.r 0 ∧ found a.c 1 ∧ found a.n 2 ∧ found a.b 3 ∧
    (s.sym0 ∉ a.r ++ a.c ++ a.n ++ a.b →
      exec .lutCls s = .next { s with unitOut := 0, status := statusAfter s .noError })

/-- 41_unit_codec R180, R184, R195: UENC2 of a 16-bit value writes the four digits' symbols, in the order R,C,N,B
below 0x8000 and N,B,R,C from there on; a larger operand fails BAD_OPERAND. -/
def Obligations.Uenc2WritesDigits : Prop :=
  ∀ s : State, s.cfg.alphabet.Valid s.cfg.symW →
    let a := s.cfg.alphabet
    let v := s.unitIn.toNat
    let w := v % 32768
    let g := orientedGroup a (decide (32768 ≤ v)) (w / 2250) (w % 2250 / 150) (w % 150 / 10) (w % 10)
    (encode .uenc2).toNat = 0x10 ∧
    (v ≤ 0xFFFF → exec .uenc2 s
      = .next { s with sym0 := g.s0, sym1 := g.s1, sym2 := g.s2, sym3 := g.s3, status := statusAfter s .noError }) ∧
    (0xFFFF < v → exec .uenc2 s = .next { s with status := statusAfter s .badOperand })

/-- 41_unit_codec R181, R184, R196: UENC1 of a byte writes the tail's two symbols and leaves SYM2 and SYM3; a larger
operand fails BAD_OPERAND. -/
def Obligations.Uenc1WritesDigits : Prop :=
  ∀ s : State, s.cfg.alphabet.Valid s.cfg.symW →
    let a := s.cfg.alphabet
    let x := s.unitIn.toNat
    (encode .uenc1).toNat = 0x11 ∧
    (x ≤ 0x7F → exec .uenc1 s
      = .next { s with sym0 := a.at .R (x / 15), sym1 := a.at .C (x % 15), status := statusAfter s .noError }) ∧
    (0x7F < x → x ≤ 0xFF → exec .uenc1 s
      = .next { s with sym0 := a.at .N ((x - 128) / 10), sym1 := a.at .B ((x - 128) % 10),
                       status := statusAfter s .noError }) ∧
    (0xFF < x → exec .uenc1 s = .next { s with status := statusAfter s .badOperand })

/-- 41_unit_codec R182, R186, R197: UDEC4 of a group of four rightly ordered symbols gives the weighted sum, with
bit 15 set in the high order, or OUT_OF_RANGE above 0x7FFF; any other four symbols fail INVALID_SYMBOL. A failure
leaves UNIT_OUT. -/
def Obligations.Udec4SumsDigits : Prop :=
  ∀ s : State, s.cfg.alphabet.Valid s.cfg.symW →
    let g : Group := { s0 := s.sym0, s1 := s.sym1, s2 := s.sym2, s3 := s.sym3 }
    (encode .udec4).toNat = 0x12 ∧
    (∀ (high : Bool) (ir ic inn ib : Nat), ir < 15 → ic < 15 → inn < 15 → ib < 10 →
      g = orientedGroup s.cfg.alphabet high ir ic inn ib →
      let v := ir * 2250 + ic * 150 + inn * 10 + ib
      (v ≤ 0x7FFF → exec .udec4 s
        = .next { s with unitOut := BitVec.ofNat 32 (v + if high then 0x8000 else 0),
                         status := statusAfter s .noError }) ∧
      (0x7FFF < v → exec .udec4 s = .next { s with status := statusAfter s .outOfRange })) ∧
    ((∀ (high : Bool) (ir ic inn ib : Nat), ir < 15 → ic < 15 → inn < 15 → ib < 10 →
      g ≠ orientedGroup s.cfg.alphabet high ir ic inn ib) →
      exec .udec4 s = .next { s with status := statusAfter s .invalidSymbol })

/-- 41_unit_codec R183, R187, R198: UDEC2 of an R,C or an N,B tail gives its sum, with bit 7 set for N,B, or
OUT_OF_RANGE above 0x7F; any other two symbols fail INVALID_SYMBOL. A failure leaves UNIT_OUT. -/
def Obligations.Udec2SumsDigits : Prop :=
  ∀ s : State, s.cfg.alphabet.Valid s.cfg.symW →
    let a := s.cfg.alphabet
    (encode .udec2).toNat = 0x13 ∧
    (∀ ir ic, ir < 15 → ic < 15 → s.sym0 = a.at .R ir → s.sym1 = a.at .C ic →
      (ir * 15 + ic ≤ 0x7F → exec .udec2 s
        = .next { s with unitOut := BitVec.ofNat 32 (ir * 15 + ic), status := statusAfter s .noError }) ∧
      (0x7F < ir * 15 + ic → exec .udec2 s = .next { s with status := statusAfter s .outOfRange })) ∧
    (∀ inn ib, inn < 15 → ib < 10 → s.sym0 = a.at .N inn → s.sym1 = a.at .B ib →
      (inn * 10 + ib ≤ 0x7F → exec .udec2 s
        = .next { s with unitOut := BitVec.ofNat 32 (inn * 10 + ib + 128), status := statusAfter s .noError }) ∧
      (0x7F < inn * 10 + ib → exec .udec2 s = .next { s with status := statusAfter s .outOfRange })) ∧
    ((∀ ir ic, ir < 15 → ic < 15 → ¬ (s.sym0 = a.at .R ir ∧ s.sym1 = a.at .C ic)) →
      (∀ inn ib, inn < 15 → ib < 10 → ¬ (s.sym0 = a.at .N inn ∧ s.sym1 = a.at .B ib)) →
      exec .udec2 s = .next { s with status := statusAfter s .invalidSymbol })

/-- 41_unit_codec R188 (a), (b): for every valid alphabet, UDEC4 after UENC2 gives back every 16-bit value, and
UDEC2 after UENC1 every byte. -/
def Obligations.UnitCommandsRoundTrip : Prop :=
  ∀ s : State, s.cfg.alphabet.Valid s.cfg.symW →
    (s.unitIn.toNat ≤ 0xFFFF → ∃ t u, exec .uenc2 s = .next t ∧ exec .udec4 t = .next u ∧
      u.unitOut = s.unitIn ∧ u.status.err = .noError) ∧
    (s.unitIn.toNat ≤ 0xFF → ∃ t u, exec .uenc1 s = .next t ∧ exec .udec2 t = .next u ∧
      u.unitOut = s.unitIn ∧ u.status.err = .noError)

/-- 41_unit_codec R188: the unit decoders undo the unit encoders on every value, and every group or tail that
decodes is the one its value encodes to, for every valid alphabet. -/
def Obligations.UnitCodecIsInverse : Prop :=
  ∀ (a : Alphabet) (w : SymWidth), a.Valid w →
    (∀ v : UnitVal, dec4 a (enc2 a v) = .ok v) ∧ (∀ x : Byte, dec2 a (enc1 a x) = .ok x) ∧
    (∀ (g : Group) (v : UnitVal), dec4 a g = .ok v → enc2 a v = g) ∧
    (∀ (t : Tail) (x : Byte), dec2 a t = .ok x → enc1 a x = t)

/-- 43_vector_divider R250 to R253, 30_encoding R123 (the selectors 0 to 3 for 2250, 150, 10, 15): DIVC by reciprocal multiplication gives the true quotient in bits 15:0 and the
true remainder in bits 31:16 for every dividend of the domain, and fails BAD_OPERAND above it. -/
def Obligations.DivcGivesQuotientAndRemainder : Prop :=
  ∀ (s : State) (d : Divisor),
    let x := s.unitIn.toNat
    let dv := match d with
      | .scnb => 2250
      | .snb => 150
      | .sb => 10
      | .sc => 15
    let sel := match d with
      | .scnb => 0
      | .snb => 1
      | .sb => 2
      | .sc => 3
    (encode (.divc d)).toNat = 0x30 + 4096 * sel ∧
    (x ≤ 0x7FFF → exec (.divc d) s
      = .next { s with unitOut := BitVec.ofNat 32 (x % dv * 65536 + x / dv), status := statusAfter s .noError }) ∧
    (0x7FFF < x → exec (.divc d) s = .next { s with status := statusAfter s .badOperand })

/-! ## The vector unit -/

/-- 43_vector_divider R256: the encode lane equals the scalar unit encoder on every 16-bit value. -/
def Obligations.VectorEncodeLaneIsScalar : Prop :=
  ∀ (a : Alphabet) (v : UnitVal), vEncLane a v = enc2 a v

/-- 43_vector_divider R258, R260: the decode lane is valid exactly when the scalar decoder answers a value, and
then with that value. -/
def Obligations.VectorDecodeLaneIsScalar : Prop :=
  ∀ (a : Alphabet) (g : Group) (v : UnitVal), vDecLane a g = some v ↔ dec4 a g = .ok v

/-- 43_vector_divider R254, R257, 20_memory R82, R83: VENC of whole granules whose `MemCheck` passes writes, lane by
lane, the symbols of the encode lane, `2 n` of them, each least significant byte first, and nothing else; a partial
granule fails BAD_OPERAND before `MemCheck`. -/
def Obligations.VencEncodesEveryUnit : Prop :=
  ∀ s : State,
    let es := symbolSize s.cfg.symW
    let n := s.srcLen.toNat
    let req := 2 * n
    let w : Windows :=
      { src := { base := s.srcAddr.toNat, count := n, es := 1 }
        dst := { base := s.dstAddr.toNat, count := req, es := es } }
    let stops := fun e : ErrCode => exec .venc s = .next { s with result := 0, status := statusAfter s e }
    (encode .venc).toNat = 0x40 ∧
    (s.cfg.hasVec = false → exec .venc s = .next { s with status := statusAfter s .illegalCmd }) ∧
    (s.cfg.hasVec = true → n % 32 ≠ 0 → stops .badOperand) ∧
    (∀ e, s.cfg.hasVec = true → n % 32 = 0 → s.memCheck w = some e → stops e) ∧
    (s.cfg.hasVec = true → n % 32 = 0 → s.memCheck w = none → ∃ t, exec .venc s = .next t ∧
      t = { s with mem := t.mem, result := BitVec.ofNat 32 req, status := statusAfter s .noError } ∧
      SymbolsAt t s.dstAddr.toNat req (fun u =>
        (vEncLane s.cfg.alphabet (unitOf (s.mem.read (s.srcAddr.toNat + 2 * (u / 4)))
          (s.mem.read (s.srcAddr.toNat + 2 * (u / 4) + 1)))).toList.getD (u % 4) 0) ∧
      SameOutside s t s.dstAddr.toNat (es * req))

/-- 43_vector_divider R254, R261, R263, 20_memory R82, R83: VDEC of whole granules whose `MemCheck` passes reads its
symbols least significant byte first and writes the bytes of every granule, high byte first; at the first granule with an invalid lane it writes nothing of it or after it and reports
GRANULE_FAIL with `RESULT = 32 g`. A partial granule fails BAD_OPERAND before `MemCheck`. -/
def Obligations.VdecDecodesGranules : Prop :=
  ∀ s : State,
    let n := s.srcLen.toNat
    let req := n / 2
    let w : Windows :=
      { src := { base := s.srcAddr.toNat, count := n, es := symbolSize s.cfg.symW }
        dst := { base := s.dstAddr.toNat, count := req, es := 1 } }
    let stops := fun e : ErrCode => exec .vdec s = .next { s with result := 0, status := statusAfter s e }
    let lane := fun j : Nat => vDecLane s.cfg.alphabet (groupAt (sourceSymbols s) j)
    let wrote := fun (t : State) (f : Nat → UnitVal) (lanes : Nat) =>
      (∀ j < lanes, (t.mem.read (s.dstAddr.toNat + 2 * j)).toNat = (f j).toNat / 256 ∧
        (t.mem.read (s.dstAddr.toNat + 2 * j + 1)).toNat = (f j).toNat % 256) ∧
      SameOutside s t s.dstAddr.toNat (2 * lanes)
    (encode .vdec).toNat = 0x41 ∧
    (s.cfg.hasVec = false → exec .vdec s = .next { s with status := statusAfter s .illegalCmd }) ∧
    (s.cfg.hasVec = true → n % 64 ≠ 0 → stops .badOperand) ∧
    (∀ e, s.cfg.hasVec = true → n % 64 = 0 → s.memCheck w = some e → stops e) ∧
    (s.cfg.hasVec = true → n % 64 = 0 → s.memCheck w = none → ∀ f : Nat → UnitVal,
      ((∀ j < n / 4, lane j = some (f j)) → ∃ t, exec .vdec s = .next t ∧
        t = { s with mem := t.mem, result := BitVec.ofNat 32 req, status := statusAfter s .noError } ∧
        wrote t f (n / 4)) ∧
      (∀ g bad : Nat, g < n / 64 → (∀ j < 16 * g, lane j = some (f j)) →
        16 * g ≤ bad → bad < 16 * g + 16 → lane bad = none → ∃ t, exec .vdec s = .next t ∧
        t = { s with mem := t.mem, result := BitVec.ofNat 32 (32 * g), status := statusAfter s .granuleFail } ∧
        wrote t f (16 * g)))

/-- 43_vector_divider R264: a VENC that succeeds has written exactly the symbols of the scalar encoder unit by unit,
and a VDEC that succeeds exactly the bytes of the scalar decoder group by group, every group decoding. Symbols lie in
memory least significant byte first (20_memory R82). -/
def Obligations.VectorCommandsEqualScalarCodec : Prop :=
  ∀ s t : State, t.status.err = .noError →
    (exec .venc s = .next t →
      SymbolsAt t s.dstAddr.toNat (2 * s.srcLen.toNat)
        (fun u => (enc2 s.cfg.alphabet (unitOf (s.mem.read (s.srcAddr.toNat + 2 * (u / 4)))
          (s.mem.read (s.srcAddr.toNat + 2 * (u / 4) + 1)))).toList.getD (u % 4) 0)) ∧
    (exec .vdec s = .next t → ∀ g < s.srcLen.toNat / 4, ∃ v,
      dec4 s.cfg.alphabet (groupAt (sourceSymbols s) g) = .ok v ∧
      (t.mem.read (s.dstAddr.toNat + 2 * g)).toNat = v.toNat / 256 ∧
      (t.mem.read (s.dstAddr.toNat + 2 * g + 1)).toNat = v.toNat % 256)

/-! ## Streams -/

/-- 42_streaming R210, R220: INIT opens the context with an empty carry, from every phase, and leaves `RESULT` and
the context of the other direction. -/
def Obligations.InitOpensContext : Prop :=
  ∀ (s : State) (k : BitVec 4), k.toNat < s.cfg.nctx →
    (encode (.encInit k)).toNat = 256 * k.toNat + 0x01 ∧ (encode (.decInit k)).toNat = 256 * k.toNat + 0x04 ∧
    exec (.encInit k) s = .next { s with
      enc := s.enc.set k.toNat { cached := false, trailingByte := 0, phase := .opened }
      status := statusAfter s .noError } ∧
    exec (.decInit k) s = .next { s with
      dec := s.dec.set k.toNat
        { count := 0, trail0 := 0, trail1 := 0, trail2 := 0, trail3 := 0, phase := .opened }
      status := statusAfter s .noError }

/-- 42_streaming R211, R212, R213, 20_memory R82, R83: ENC_FEED outside OPEN fails BAD_STATE, then fails with
`MemCheck`'s code; else it encodes the complete pairs of carry and input, the earlier byte high, stores each symbol
least significant byte first, and keeps the odd byte. -/
def Obligations.EncFeedEncodesPairs : Prop :=
  ∀ (s : State) (k : BitVec 4), k.toNat < s.cfg.nctx →
    let es := symbolSize s.cfg.symW
    let ctx := s.encAt k.toNat
    let c := if ctx.cached then 1 else 0
    let n := s.srcLen.toNat
    let pairs := (c + n) / 2
    let req := 4 * pairs
    let w : Windows :=
      { src := { base := s.srcAddr.toNat, count := n, es := 1 }
        dst := { base := s.dstAddr.toNat, count := req, es := es } }
    let stops := fun e : ErrCode => exec (.encFeed k) s = .next { s with result := 0, status := statusAfter s e }
    let b := (if ctx.cached then [ctx.trailingByte] else []) ++ sourceBytes s
    (encode (.encFeed k)).toNat = 256 * k.toNat + 0x02 ∧
    (ctx.phase ≠ .opened → stops .badState) ∧
    (∀ e, ctx.phase = .opened → s.memCheck w = some e → stops e) ∧
    (ctx.phase = .opened → s.memCheck w = none → ∃ t, exec (.encFeed k) s = .next t ∧
      t = { s with
        mem := t.mem
        enc := s.enc.set k.toNat
          (if (c + n) % 2 = 1 then { cached := true, trailingByte := b.getD (c + n - 1) 0, phase := .opened }
          else { cached := false, trailingByte := 0, phase := .opened })
        result := BitVec.ofNat 32 req
        status := statusAfter s .noError } ∧
      SymbolsAt t s.dstAddr.toNat req (fun u => (enc2 s.cfg.alphabet (pairAt b (u / 4))).toList.getD (u % 4) 0) ∧
      SameOutside s t s.dstAddr.toNat (es * req))

/-- 42_streaming R215, 20_memory R82: ENC_FINAL outside OPEN fails BAD_STATE, then fails with `MemCheck`'s code; else
it writes the tail of a pending byte, each symbol least significant byte first, or nothing, and closes the context with
an empty carry. -/
def Obligations.EncFinalWritesTail : Prop :=
  ∀ (s : State) (k : BitVec 4), k.toNat < s.cfg.nctx →
    let es := symbolSize s.cfg.symW
    let ctx := s.encAt k.toNat
    let req := if ctx.cached then 2 else 0
    let w : Windows :=
      { src := { base := 0, count := 0, es := 1 }
        dst := { base := s.dstAddr.toNat, count := req, es := es } }
    let stops := fun e : ErrCode => exec (.encFinal k) s = .next { s with result := 0, status := statusAfter s e }
    (encode (.encFinal k)).toNat = 256 * k.toNat + 0x03 ∧
    (ctx.phase ≠ .opened → stops .badState) ∧
    (∀ e, ctx.phase = .opened → s.memCheck w = some e → stops e) ∧
    (ctx.phase = .opened → s.memCheck w = none → ∃ t, exec (.encFinal k) s = .next t ∧
      t = { s with
        mem := t.mem
        enc := s.enc.set k.toNat { cached := false, trailingByte := 0, phase := .closed }
        result := BitVec.ofNat 32 req
        status := statusAfter s .noError } ∧
      SymbolsAt t s.dstAddr.toNat req (fun u => (enc1 s.cfg.alphabet ctx.trailingByte).toList.getD u 0) ∧
      SameOutside s t s.dstAddr.toNat (es * req))

/-- 42_streaming R222, R223, 20_memory R82, R83: DEC_FEED outside OPEN fails BAD_STATE, then fails with `MemCheck`'s
code; else it reads its symbols least significant byte first, writes the bytes of the groups of buffer and input, high
byte first, and buffers the symbols left over. At the first group
`g` that fails it reports that group's error with `RESULT = 2 g`, having written the groups before it and nothing
after, and the context is FAILED with an empty buffer. -/
def Obligations.DecFeedDecodesGroups : Prop :=
  ∀ (s : State) (k : BitVec 4), k.toNat < s.cfg.nctx →
    let ctx := s.decAt k.toNat
    let i := ctx.count.val
    let n := s.srcLen.toNat
    let groups := (i + n) / 4
    let req := 2 * groups
    let w : Windows :=
      { src := { base := s.srcAddr.toNat, count := n, es := symbolSize s.cfg.symW }
        dst := { base := s.dstAddr.toNat, count := req, es := 1 } }
    let stops := fun e : ErrCode => exec (.decFeed k) s = .next { s with result := 0, status := statusAfter s e }
    let t := [ctx.trail0, ctx.trail1, ctx.trail2, ctx.trail3].take i ++ sourceSymbols s
    let group := fun g : Nat => dec4 s.cfg.alphabet
      { s0 := t.getD (4 * g) 0, s1 := t.getD (4 * g + 1) 0, s2 := t.getD (4 * g + 2) 0, s3 := t.getD (4 * g + 3) 0 }
    let left := fun j : Nat => if j < (i + n) % 4 then t.getD (4 * groups + j) 0 else 0
    let wrote := fun (u : State) (f : Nat → UnitVal) (m : Nat) =>
      (∀ g < m, (u.mem.read (s.dstAddr.toNat + 2 * g)).toNat = (f g).toNat / 256 ∧
        (u.mem.read (s.dstAddr.toNat + 2 * g + 1)).toNat = (f g).toNat % 256) ∧
      SameOutside s u s.dstAddr.toNat (2 * m)
    (encode (.decFeed k)).toNat = 256 * k.toNat + 0x05 ∧
    (ctx.phase ≠ .opened → stops .badState) ∧
    (∀ e, ctx.phase = .opened → s.memCheck w = some e → stops e) ∧
    (ctx.phase = .opened → s.memCheck w = none → ∀ f : Nat → UnitVal,
      ((∀ g < groups, group g = .ok (f g)) → ∃ u, exec (.decFeed k) s = .next u ∧
        u = { s with
          mem := u.mem
          dec := s.dec.set k.toNat
            { count := Fin.ofNat 4 ((i + n) % 4), trail0 := left 0, trail1 := left 1, trail2 := left 2
              trail3 := left 3, phase := .opened }
          result := BitVec.ofNat 32 req
          status := statusAfter s .noError } ∧
        wrote u f groups) ∧
      (∀ (g : Nat) (e : ErrCode), g < groups → (∀ j < g, group j = .ok (f j)) → group g = .err e →
        ∃ u, exec (.decFeed k) s = .next u ∧
        u = { s with
          mem := u.mem
          dec := s.dec.set k.toNat
            { count := 0, trail0 := 0, trail1 := 0, trail2 := 0, trail3 := 0, phase := .failed }
          result := BitVec.ofNat 32 (2 * g)
          status := statusAfter s e } ∧
        wrote u f g))

/-- 42_streaming R227: DEC_FINAL outside OPEN fails BAD_STATE, then fails with `MemCheck`'s code; else nothing
buffered closes the context, two symbols give their tail's byte or its error, one or three are MALFORMED_TAIL; an
error leaves the context FAILED. -/
def Obligations.DecFinalEndsStream : Prop :=
  ∀ (s : State) (k : BitVec 4), k.toNat < s.cfg.nctx →
    let ctx := s.decAt k.toNat
    let i := ctx.count.val
    let req := if i = 2 then 1 else 0
    let w : Windows :=
      { src := { base := 0, count := 0, es := 1 }
        dst := { base := s.dstAddr.toNat, count := req, es := 1 } }
    let stops := fun e : ErrCode => exec (.decFinal k) s = .next { s with result := 0, status := statusAfter s e }
    let tail := dec2 s.cfg.alphabet { s0 := ctx.trail0, s1 := ctx.trail1 }
    let ended := fun p : Phase => s.dec.set k.toNat
      { count := 0, trail0 := 0, trail1 := 0, trail2 := 0, trail3 := 0, phase := p }
    let fails := fun e : ErrCode => exec (.decFinal k) s
      = .next { s with dec := ended .failed, result := 0, status := statusAfter s e }
    (encode (.decFinal k)).toNat = 256 * k.toNat + 0x06 ∧
    (ctx.phase ≠ .opened → stops .badState) ∧
    (∀ e, ctx.phase = .opened → s.memCheck w = some e → stops e) ∧
    (ctx.phase = .opened → s.memCheck w = none →
      (i = 0 → exec (.decFinal k) s
        = .next { s with dec := ended .closed, result := 0, status := statusAfter s .noError }) ∧
      (i = 1 ∨ i = 3 → fails .malformedTail) ∧
      (∀ e, i = 2 → tail = .err e → fails e) ∧
      (∀ x, i = 2 → tail = .ok x → ∃ u, exec (.decFinal k) s = .next u ∧
        u = { s with mem := u.mem, dec := ended .closed, result := 1, status := statusAfter s .noError } ∧
        ∀ a, u.mem.read a = if a = s.dstAddr.toNat then x else s.mem.read a))

/-- 42_streaming R230 (encode): feeding an input in two chunks, the second right behind the first in source and
destination, leaves the memory and the contexts that feeding it at once leaves, and the two counts add up. -/
def Obligations.EncodeChunksMakeOneFeed : Prop :=
  ∀ (s t1 t2 t : State) (k : BitVec 4) (n1 n2 : Nat), k.toNat < s.cfg.nctx → k.toNat < s.enc.length →
    (s.encAt k.toNat).phase = .opened → s.srcLen.toNat = n1 + n2 →
    s.memCheck (encFeedWindows s k.toNat) = none →
    exec (.encFeed k) { s with srcLen := BitVec.ofNat 32 n1 } = .next t1 →
    exec (.encFeed k) { t1 with
      srcAddr := s.srcAddr + BitVec.ofNat 32 n1
      srcLen := BitVec.ofNat 32 n2
      dstAddr := s.dstAddr + BitVec.ofNat 32 (s.cfg.es * t1.result.toNat)
      dstCap := s.dstCap - t1.result } = .next t2 →
    exec (.encFeed k) s = .next t →
    t1.status.err = .noError ∧ t2.status.err = .noError ∧ t2.mem = t.mem ∧ t2.enc = t.enc ∧
    t1.result.toNat + t2.result.toNat = t.result.toNat

/-- 42_streaming R230 (decode, a feed that succeeds; the other half is DecodeChunksMeetSameError): if feeding symbols at
once succeeds, feeding them in two chunks does, with the same memory and contexts, and the two counts add up. -/
def Obligations.DecodeChunksMakeOneFeed : Prop :=
  ∀ (s t1 t2 t : State) (k : BitVec 4) (n1 n2 : Nat), k.toNat < s.cfg.nctx → k.toNat < s.dec.length →
    s.srcLen.toNat = n1 + n2 →
    exec (.decFeed k) s = .next t → t.status.err = .noError →
    exec (.decFeed k) { s with srcLen := BitVec.ofNat 32 n1 } = .next t1 →
    exec (.decFeed k) { t1 with
      srcAddr := s.srcAddr + BitVec.ofNat 32 (s.cfg.es * n1)
      srcLen := BitVec.ofNat 32 n2
      dstAddr := s.dstAddr + t1.result
      dstCap := s.dstCap - t1.result } = .next t2 →
    t1.status.err = .noError ∧ t2.status.err = .noError ∧ t2.mem = t.mem ∧ t2.dec = t.dec ∧
    t1.result.toNat + t2.result.toNat = t.result.toNat

/-- 42_streaming R230, R223 (decode with an error): if feeding symbols at once meets a bad group, feeding them in two
chunks meets the same one, with the same code: in the first chunk exactly when that chunk's groups reach it, with the
same count then, and else in the second, the two counts adding up. The memory and the contexts are the same. -/
def Obligations.DecodeChunksMeetSameError : Prop :=
  ∀ (s t1 t : State) (k : BitVec 4) (n1 n2 : Nat), k.toNat < s.cfg.nctx → k.toNat < s.dec.length →
    (s.decAt k.toNat).phase = .opened → s.srcLen.toNat = n1 + n2 →
    s.memCheck (decFeedWindows s k.toNat) = none →
    exec (.decFeed k) s = .next t → t.status.err ≠ .noError →
    exec (.decFeed k) { s with srcLen := BitVec.ofNat 32 n1 } = .next t1 →
    (t1.status.err ≠ .noError ↔ t.result.toNat < 2 * (((s.decAt k.toNat).count.val + n1) / 4)) ∧
    (t1.status.err ≠ .noError →
      t1.status.err = t.status.err ∧ t1.result = t.result ∧ t1.mem = t.mem ∧ t1.dec = t.dec) ∧
    (t1.status.err = .noError → ∀ t2 : State,
      exec (.decFeed k) { t1 with
        srcAddr := s.srcAddr + BitVec.ofNat 32 (s.cfg.es * n1)
        srcLen := BitVec.ofNat 32 n2
        dstAddr := s.dstAddr + t1.result
        dstCap := s.dstCap - t1.result } = .next t2 →
      t2.status.err = t.status.err ∧ t2.mem = t.mem ∧ t2.dec = t.dec ∧
      t1.result.toNat + t2.result.toNat = t.result.toNat)

/-- 42_streaming R233, 41_unit_codec R188: bytes of an even number, encoded by ENC_FEED with an empty carry, come
back byte for byte when DEC_FEED with an empty buffer decodes the symbols written, for every valid alphabet. -/
def Obligations.StreamRoundTrip : Prop :=
  ∀ (s t : State) (k j : BitVec 4) (dst cap : Word), s.cfg.alphabet.Valid s.cfg.symW →
    k.toNat < s.cfg.nctx → j.toNat < s.cfg.nctx →
    (s.encAt k.toNat).phase = .opened → (s.encAt k.toNat).cached = false →
    (s.decAt j.toNat).phase = .opened → (s.decAt j.toNat).count = 0 →
    s.srcLen.toNat % 2 = 0 → s.memCheck (encFeedWindows s k.toNat) = none →
    exec (.encFeed k) s = .next t →
    let s2 := { t with srcAddr := s.dstAddr, srcLen := t.result, dstAddr := dst, dstCap := cap }
    s2.memCheck (decFeedWindows s2 j.toNat) = none →
    ∃ u, exec (.decFeed j) s2 = .next u ∧ u.status.err = .noError ∧ u.result = s.srcLen ∧
      ∀ x < s.srcLen.toNat, u.mem.read (dst.toNat + x) = s.mem.read (s.srcAddr.toNat + x)

/-- 42_streaming R233, 41_unit_codec R188: the byte an encode stream leaves pending comes back: ENC_FINAL writes its
tail, DEC_FEED with an empty buffer takes the two symbols in, and DEC_FINAL writes the byte. -/
def Obligations.TailRoundTrip : Prop :=
  ∀ (s t : State) (k j : BitVec 4) (dst : Word), s.cfg.alphabet.Valid s.cfg.symW →
    k.toNat < s.cfg.nctx → j.toNat < s.cfg.nctx → j.toNat < s.dec.length →
    (s.encAt k.toNat).phase = .opened → (s.encAt k.toNat).cached = true →
    (s.decAt j.toNat).phase = .opened → (s.decAt j.toNat).count = 0 →
    s.memCheck (encFinalWindows s k.toNat) = none → exec (.encFinal k) s = .next t →
    let s2 := { t with srcAddr := s.dstAddr, srcLen := t.result, dstAddr := dst, dstCap := 1 }
    Config.accessible s.cfg dst.toNat = true →
    ∃ u v, exec (.decFeed j) s2 = .next u ∧ u.status.err = .noError ∧ u.result = 0 ∧
      exec (.decFinal j) u = .next v ∧ v.status.err = .noError ∧ v.result = 1 ∧
      v.mem.read dst.toNat = (s.encAt k.toNat).trailingByte

/-- 70_reset_and_hazards R369, 20_memory R90: what a command leaves in the registers and the contexts, and in its
destination window, depends on no byte of memory outside its source window. -/
def Obligations.CommandsReadOnlySourceWindow : Prop :=
  ∀ (i : Instr) (s : State) (m : Memory) (t u : State),
    (∀ a, (windowsOf s i).src.has a = true → m.read a = s.mem.read a) →
    exec i s = .next t → exec i { s with mem := m } = .next u →
    u = { t with mem := u.mem } ∧
    ∀ a, u.mem.read a = t.mem.read a ∨ (u.mem.read a = m.read a ∧ t.mem.read a = s.mem.read a)

/-- 10_state R53, 70_reset_and_hazards R369: a command's effects do not depend on the other contexts: from two states
that differ only in contexts the command does not read (all of them for a command that is no FEED or FINAL), it leaves
the same registers, the same memory and the same context of its own. -/
def Obligations.CommandsReadOnlyNamedContext : Prop :=
  ∀ (i : Instr) (s : State) (e : List EncCtx) (d : List DecCtx) (t u : State),
    e.length = s.enc.length → d.length = s.dec.length →
    (match i with
      | .encFeed k | .encFinal k => State.encAt { s with enc := e } k.toNat = s.encAt k.toNat
      | .decFeed k | .decFinal k => State.decAt { s with dec := d } k.toNat = s.decAt k.toNat
      | _ => True) →
    exec i s = .next t → exec i { s with enc := e, dec := d } = .next u →
    u = { t with enc := u.enc, dec := u.dec } ∧
    (match i with
      | .encInit k | .encFeed k | .encFinal k =>
        (wellFormed s.cfg i = true → u.encAt k.toNat = t.encAt k.toNat) ∧ u.dec = d
      | .decInit k | .decFeed k | .decFinal k =>
        (wellFormed s.cfg i = true → u.decAt k.toNat = t.decAt k.toNat) ∧ u.enc = e
      | _ => u.enc = e ∧ u.dec = d)

/-! ## The host -/

/-- 44_host_interface R292, 10_state R35: a write to CMD while idle is accepted, whatever the word, and makes the
block's completion step the next step. -/
def Obligations.CmdWriteIsAccepted : Prop :=
  ∀ (s : State) (w : Word), s.status.busy = false →
    ∃ t, hostAct (.regWrite (s.cfg.regBase + 0x008) 4 w) s = .next t ∧
      t = { s with cmd := w, status := { busy := true, err := .noError, hz := false } } ∧
      blockTurn t = (match decode w with
        | .command i => exec i t
        | .rejected _ => .next { t with status := { busy := false, err := .illegalCmd, hz := false } })

/-- 44_host_interface R293: a write to CMD or an RW register while busy is dropped and sets HZ, which then stays set
over every step but an accepted CMD write (or the reset input). -/
def Obligations.WriteWhileBusyIsDropped : Prop :=
  (∀ (s : State) (off : Nat) (v : Word), s.status.busy = true →
    off ∈ [0x008, 0x010, 0x014, 0x018, 0x01C, 0x024, 0x030, 0x034, 0x038, 0x03C] →
    hostAct (.regWrite (s.cfg.regBase + off) 4 v) s
      = .next { s with status := { busy := true, err := s.status.err, hz := true } }) ∧
  (∀ s t : State, step s = .next t → s.status.hz = true →
    t.status.hz = true ∨ (∃ rest, s.inputs = .reset :: rest) ∨
    (s.status.busy = false ∧ ∃ w rest, s.inputs = .regWrite (s.cfg.regBase + 0x008) 4 w :: rest))

/-- 44_host_interface R294, 10_state R45: an operand write while idle stores the value, a symbol its low `SYM_W`
bits, and changes nothing else; a write to a read-only or unmapped offset is ignored. -/
def Obligations.OperandWriteWhileIdle : Prop :=
  ∀ (s : State) (v : Word), s.status.busy = false →
    let wr := fun off : Nat => hostAct (.regWrite (s.cfg.regBase + off) 4 v) s
    let sym := match s.cfg.symW with
      | .w16 => (v.setWidth 16).setWidth 32
      | .w32 => v
    wr 0x010 = .next { s with srcAddr := v } ∧ wr 0x014 = .next { s with srcLen := v } ∧
    wr 0x018 = .next { s with dstAddr := v } ∧ wr 0x01C = .next { s with dstCap := v } ∧
    wr 0x024 = .next { s with unitIn := v } ∧ wr 0x030 = .next { s with sym0 := sym } ∧
    wr 0x034 = .next { s with sym1 := sym } ∧ wr 0x038 = .next { s with sym2 := sym } ∧
    wr 0x03C = .next { s with sym3 := sym } ∧
    ∀ off < 4096, off % 4 = 0 →
      off ∉ [0x008, 0x010, 0x014, 0x018, 0x01C, 0x024, 0x030, 0x034, 0x038, 0x03C] → wr off = .next s

/-- 44_host_interface R291: a register read changes nothing of the block; the host gets the register's value. -/
def Obligations.RegisterReadHasNoSideEffect : Prop :=
  ∀ (s : State) (off : Nat), off < 4096 → off % 4 = 0 →
    hostAct (.regRead (s.cfg.regBase + off) 4) s = .next { s with hostRead := readReg s off }

/-- 10_state R32 to R45, 60_exceptions R320 (the numbers of the codes): what each register reads as, with CAP and
STATUS as sums of their fields. -/
def Obligations.RegisterMapReads : Prop :=
  ∀ s : State, 1 ≤ s.cfg.nctx → s.cfg.nctx ≤ 16 →
    let symW := match s.cfg.symW with
      | .w16 => 16
      | .w32 => 32
    let err := match s.status.err with
      | .noError => 0
      | .invalidSymbol => 1
      | .outOfRange => 2
      | .malformedTail => 3
      | .capacity => 4
      | .badState => 5
      | .illegalCmd => 6
      | .badBuffer => 7
      | .busError => 8
      | .granuleFail => 9
      | .badOperand => 10
    readReg s 0x000 = 0x52434E42 ∧
    (readReg s 0x004).toNat
      = (if s.cfg.hasVec then 1 else 0) + 16 * (s.cfg.nctx - 1) + 256 * symW + 65536 ∧
    readReg s 0x008 = s.cmd ∧
    (readReg s 0x00C).toNat
      = (if s.status.busy then 1 else 0) + 16 * err + (if s.status.hz then 256 else 0) ∧
    readReg s 0x010 = s.srcAddr ∧ readReg s 0x014 = s.srcLen ∧ readReg s 0x018 = s.dstAddr ∧
    readReg s 0x01C = s.dstCap ∧ readReg s 0x020 = s.result ∧ readReg s 0x024 = s.unitIn ∧
    readReg s 0x028 = s.unitOut ∧ readReg s 0x030 = s.sym0 ∧ readReg s 0x034 = s.sym1 ∧
    readReg s 0x038 = s.sym2 ∧ readReg s 0x03C = s.sym3

/-- 10_state R48, R49: the views of the contexts that exist, as sums of their fields, with the numbers of the phases
(R44); all read 0 after reset. -/
def Obligations.ContextViewsRead : Prop :=
  let phase := fun p : Phase => match p with
    | .uninit => 0
    | .opened => 1
    | .closed => 2
    | .failed => 3
  (∀ (s : State) (k : Nat), s.cfg.nctx ≤ 16 → k < s.cfg.nctx →
    let c := s.encAt k
    let d := s.decAt k
    (readReg s (0x100 + 0x10 * k)).toNat
      = (if c.cached then 1 else 0) + 256 * c.trailingByte.toNat + 16777216 * phase c.phase ∧
    (readReg s (0x200 + 0x20 * k)).toNat = d.count.val + 16777216 * phase d.phase ∧
    readReg s (0x204 + 0x20 * k) = d.trail0 ∧ readReg s (0x208 + 0x20 * k) = d.trail1 ∧
    readReg s (0x20C + 0x20 * k) = d.trail2 ∧ readReg s (0x210 + 0x20 * k) = d.trail3) ∧
  (∀ (c : Config) (k : Nat), c.nctx ≤ 16 → k < c.nctx →
    readReg (State.resetWith c) (0x100 + 0x10 * k) = 0 ∧
    ∀ j < 5, readReg (State.resetWith c) (0x200 + 0x20 * k + 4 * j) = 0)

/-- 10_state R50: an offset that R32 does not list, the views of absent contexts among them, reads 0; a write to it
or to a read-only register is ignored, busy or not, and does not set HZ. -/
def Obligations.UnmappedOffsetsAreIgnored : Prop :=
  ∀ (s : State) (off : Nat) (v : Word), s.cfg.nctx ≤ 16 → off < 4096 → off % 4 = 0 →
    off ∉ [0x008, 0x010, 0x014, 0x018, 0x01C, 0x024, 0x030, 0x034, 0x038, 0x03C] →
    hostAct (.regWrite (s.cfg.regBase + off) 4 v) s = .next s ∧
    (off ∉ [0x000, 0x004, 0x00C, 0x020, 0x028] →
      (∀ k < s.cfg.nctx, off ≠ 0x100 + 0x10 * k) →
      (∀ k < s.cfg.nctx, ∀ j < 5, off ≠ 0x200 + 0x20 * k + 4 * j) →
      readReg s off = 0)

/-- 44_host_interface R290: an access to the register block that is not a naturally aligned 32-bit one is
refused. -/
def Obligations.OddRegisterAccessIsRefused : Prop :=
  ∀ (s : State) (off width : Nat) (v : Word), off < 4096 → (width ≠ 4 ∨ off % 4 ≠ 0) →
    hostAct (.regWrite (s.cfg.regBase + off) width v) s
      = .refused (.registerAccessForm (s.cfg.regBase + off) width) ∧
    hostAct (.regRead (s.cfg.regBase + off) width) s
      = .refused (.registerAccessForm (s.cfg.regBase + off) width)

/-- 70_reset_and_hazards R366, 20_memory R89: while a command is pending the host may not write either of its
windows nor read its destination window: refused; every other access to an accessible byte is performed. That any other
access to a byte that does not answer is a fault is the model's choice (log 12). -/
def Obligations.ActiveWindowIsProtected : Prop :=
  ∀ (s : State) (i : Instr) (a : Word) (b : Byte), s.status.busy = true → decode s.cmd = .command i →
    wellFormed s.cfg i = true →
    let src := (windowsOf s i).src.has a.toNat
    let dst := (windowsOf s i).dst.has a.toNat
    (src = true ∨ dst = true → hostAct (.memWrite a b) s = .refused (.windowHazard a.toNat)) ∧
    (dst = true → hostAct (.memRead a) s = .refused (.windowHazard a.toNat)) ∧
    (Config.accessible s.cfg a.toNat = true → src = false → dst = false →
      ∃ t, hostAct (.memWrite a b) s = .next t ∧ t = { s with mem := t.mem } ∧
        ∀ x, t.mem.read x = if x = a.toNat then b else s.mem.read x) ∧
    (Config.accessible s.cfg a.toNat = true → dst = false →
      hostAct (.memRead a) s = .next { s with hostRead := BitVec.ofNat 32 (s.mem.read a.toNat).toNat }) ∧
    (Config.accessible s.cfg a.toNat = false → src = false → dst = false →
      hostAct (.memWrite a b) s = .fault (.hostMemoryNoAnswer a.toNat)) ∧
    (Config.accessible s.cfg a.toNat = false → dst = false →
      hostAct (.memRead a) s = .fault (.hostMemoryNoAnswer a.toNat))

/-- 70_reset_and_hazards R366, 20_memory R80: with no command pending, or with an illegal word pending, no byte is
protected: the host writes and reads every accessible byte. That an illegal word protects nothing (log 26), and that an
access to a byte that does not answer is a fault (log 12), are the model's choices. -/
def Obligations.UnprotectedMemoryAccess : Prop :=
  ∀ (s : State) (a : Word) (b : Byte), (s.status.busy = false ∨ legal s.cfg s.cmd = false) →
    (Config.accessible s.cfg a.toNat = true →
      (∃ t, hostAct (.memWrite a b) s = .next t ∧ t = { s with mem := t.mem } ∧
        ∀ x, t.mem.read x = if x = a.toNat then b else s.mem.read x) ∧
      hostAct (.memRead a) s = .next { s with hostRead := BitVec.ofNat 32 (s.mem.read a.toNat).toNat }) ∧
    (Config.accessible s.cfg a.toNat = false →
      hostAct (.memWrite a b) s = .fault (.hostMemoryNoAnswer a.toNat) ∧
      hostAct (.memRead a) s = .fault (.hostMemoryNoAnswer a.toNat))

/-- 70_reset_and_hazards R360, 10_state R56: the reset input sets every register and every context to its reset
value at any time, leaves the configuration, and, when no command is pending, leaves data memory. -/
def Obligations.ResetSetsEveryRegister : Prop :=
  ∀ s : State, ∃ t, hostAct .reset s = .next t ∧ t.cfg = s.cfg ∧
    readReg t 0x000 = 0x52434E42 ∧ readReg t 0x004 = capWord s.cfg ∧ t.cmd = 0 ∧
    t.status = { busy := false, err := .noError, hz := false } ∧
    t.srcAddr = 0 ∧ t.srcLen = 0 ∧ t.dstAddr = 0 ∧ t.dstCap = 0 ∧ t.result = 0 ∧ t.unitIn = 0 ∧ t.unitOut = 0 ∧
    t.sym0 = 0 ∧ t.sym1 = 0 ∧ t.sym2 = 0 ∧ t.sym3 = 0 ∧ t.enc.length = s.cfg.nctx ∧ t.dec.length = s.cfg.nctx ∧
    (∀ c ∈ t.enc, c = { cached := false, trailingByte := 0, phase := .uninit }) ∧
    (∀ d ∈ t.dec, d = { count := 0, trail0 := 0, trail1 := 0, trail2 := 0, trail3 := 0, phase := .uninit }) ∧
    (s.status.busy = false → t.mem = s.mem)

/-- 70_reset_and_hazards R362: a reset while a command is pending leaves each byte of its destination window either
as it was or as the command would have left it, every other byte as it was, and the block in its reset state. -/
def Obligations.ResetAbandonsPendingCommand : Prop :=
  ∀ s u : State, s.status.busy = true → complete s = .next u →
    ∃ t, hostAct .reset s = .next t ∧
      t = { State.resetWith s.cfg with
        mem := t.mem, inputs := s.inputs, hostRead := s.hostRead, resetDraws := t.resetDraws } ∧
      (∀ a, t.mem.read a = s.mem.read a ∨ t.mem.read a = u.mem.read a) ∧
      (∀ a, (pendingWindows s).dst.has a = false → t.mem.read a = s.mem.read a)

/-- 10_state R56, R33, R34: the state after reset in the default configuration, register by register. -/
def Obligations.ResetState : Prop :=
  let s := State.reset
  readReg s 0x000 = 0x52434E42 ∧ readReg s 0x004 = 0x00012001 ∧ s.cmd = 0 ∧ readReg s 0x00C = 0 ∧
  s.srcAddr = 0 ∧ s.srcLen = 0 ∧ s.dstAddr = 0 ∧ s.dstCap = 0 ∧ s.result = 0 ∧ s.unitIn = 0 ∧ s.unitOut = 0 ∧
  s.sym0 = 0 ∧ s.sym1 = 0 ∧ s.sym2 = 0 ∧ s.sym3 = 0 ∧
  s.enc = [{ cached := false, trailingByte := 0, phase := .uninit }] ∧
  s.dec = [{ count := 0, trail0 := 0, trail1 := 0, trail2 := 0, trail3 := 0, phase := .uninit }]

/-! ## The end of a run -/

/-- 44_host_interface R299: a run that has ended stays ended over the host's remaining actions (reads, operand and
memory writes, turns of the idle block), none of which opens a stream or changes CMD, STATUS or a context, and only the
writes of which change the observation; after a reset a run has ended only if the program leaves open every stream it
opened. Which streams a run opened is told by their contexts (log 31). That the end is not pinned to the first state
which meets R299's conditions, so that writes still left may change what is observed, is the model's choice (log 32). -/
def Obligations.EndedRunStaysEnded : Prop :=
  (∀ (o left : Streams) (s t : State), Ended o left s → (∀ rest, s.inputs ≠ .reset :: rest) → step s = .next t →
    o.afterStep s = o ∧ Ended o left t ∧ t.enc = s.enc ∧ t.dec = s.dec ∧ t.cmd = s.cmd ∧ t.status = s.status ∧
    ((∀ addr width v rest, s.inputs ≠ .regWrite addr width v :: rest) →
      (∀ addr b rest, s.inputs ≠ .memWrite addr b :: rest) → observation t = observation s)) ∧
  (∀ (o left : Streams) (s t : State), hostAct .reset s = .next t → Ended o left t →
    (∀ k ∈ o.enc, k ∈ left.enc) ∧ (∀ k ∈ o.dec, k ∈ left.dec))

/-- 44_host_interface R299, 10_state R44: on every run without a reset, each stream the program has opened is of a
context that exists and is OPEN or CLOSED, or FAILED when it is a decode stream. So the run has ended when no command is
left to issue, nothing is pending, and no stream it opened is OPEN but those it leaves open (log 31, log 32). -/
def Obligations.OpenedStreamsEndOrStayOpen : Prop :=
  ∀ (n : Nat) (s t : State) (o left : Streams), ContextsOk s → .reset ∉ s.inputs →
    runFor n s Streams.none = some (t, o) →
    (∀ k ∈ o.enc, k < t.cfg.nctx ∧ ((t.encAt k).phase = .opened ∨ (t.encAt k).phase = .closed)) ∧
    (∀ k ∈ o.dec, k < t.cfg.nctx ∧
      ((t.decAt k).phase = .opened ∨ (t.decAt k).phase = .closed ∨ (t.decAt k).phase = .failed)) ∧
    ((∀ a ∈ t.inputs, issuesCommand t.cfg a = false) → t.status.busy = false →
      (∀ k ∈ o.enc, (t.encAt k).phase = .opened → k ∈ left.enc) →
      (∀ k ∈ o.dec, (t.decAt k).phase = .opened → k ∈ left.dec) → RunEnded s left n t)

/-! ## Invariants -/

/-- 10_state R56, R57: the invariant holds after reset, for every configuration. -/
def Obligations.InvariantHoldsAfterReset : Prop :=
  ∀ c : Config, MachineInv (State.resetWith c)

/-- 10_state R46, R47, R57: every step, of the block or of the host, keeps the contexts that exist and their
invariants: no stale pending byte, at most 3 buffered symbols with zeros past them, an empty carry outside OPEN, no
encode context FAILED. -/
def Obligations.ContextInvariantsArePreserved : Prop :=
  ∀ s t : State, step s = .next t → ContextsOk s → ContextsOk t

/-- 10_state R45, R54, 20_memory R80: every step keeps the configuration, keeps the symbol registers within `SYM_W`
bits, and keeps memory in the model's canonical form (log 1): addresses rising and below 2^32. -/
def Obligations.EveryStepKeepsStorageForm : Prop :=
  ∀ s t : State, step s = .next t →
    t.cfg = s.cfg ∧ (SymsFit s → SymsFit t) ∧ (Memory.wf s.mem → Memory.wf t.mem)
end

