-- ==== Sys2Proof/Laws/Codec.lean ====
section
/-! SUPPORT. The alphabet look-ups of a valid alphabet, and the lengths of the codec's outputs. -/

namespace Sys2Proof

/-! ## Search in one class -/

theorem indexIn_some {l : List Sym} {s : Sym} {i : Nat} (h : indexIn l s = some i) :
    i < l.length ∧ l.getD i 0 = s := by
  induction l generalizing i with
  | nil => cases h
  | cons x l ih =>
    simp only [indexIn] at h
    split at h
    · cases h
      exact ⟨Nat.succ_pos _, ‹_›⟩
    · obtain ⟨j, hj, rfl⟩ := Option.map_eq_some_iff.mp h
      obtain ⟨h1, h2⟩ := ih hj
      exact ⟨Nat.succ_lt_succ h1, h2⟩

theorem indexIn_none_iff {l : List Sym} {s : Sym} : indexIn l s = none ↔ s ∉ l := by
  induction l with
  | nil => simp [indexIn]
  | cons x l ih =>
    simp only [indexIn, List.mem_cons, not_or]
    split
    · simp_all
    · rename_i hne
      rw [Option.map_eq_none_iff, ih]
      exact ⟨fun h => ⟨Ne.symm hne, h⟩, fun h => h.2⟩

theorem getD_mem {l : List Sym} {i : Nat} (h : i < l.length) : l.getD i 0 ∈ l := by
  rw [List.getD_eq_getElem?_getD, List.getElem?_eq_getElem h]
  exact List.getElem_mem h

theorem indexIn_getD {l : List Sym} (hl : l.Nodup) {i : Nat} (h : i < l.length) :
    indexIn l (l.getD i 0) = some i := by
  induction l generalizing i with
  | nil => exact absurd h (by simp)
  | cons x l ih =>
    obtain ⟨hx, hl⟩ := List.nodup_cons.mp hl
    cases i with
    | zero => simp [indexIn]
    | succ i =>
      have hi : i < l.length := Nat.lt_of_succ_lt_succ h
      have hm := getD_mem hi
      simp only [List.getD_cons_succ, indexIn]
      rw [if_neg (by rintro rfl; exact hx hm), ih hl hi]
      rfl

/-! ## A valid alphabet (40_alphabet_lut R150) -/

theorem Alphabet.Valid.length {a : Alphabet} {w : SymWidth} (h : a.Valid w) (c : Cls) :
    (a.lut c).length = Cls.size c := by
  obtain ⟨h1, h2, h3, h4, -⟩ := h
  cases c
  · exact h1
  · exact h2
  · exact h3
  · exact h4

theorem Alphabet.Valid.nodup {a : Alphabet} {w : SymWidth} (h : a.Valid w) (c : Cls) : (a.lut c).Nodup := by
  obtain ⟨-, -, -, -, h, -⟩ := h
  simp only [List.nodup_append] at h
  cases c
  · exact h.1.1.1
  · exact h.1.1.2.1
  · exact h.1.2.1
  · exact h.2.1

theorem Alphabet.Valid.disjoint {a : Alphabet} {w : SymWidth} (h : a.Valid w) {c d : Cls} (hcd : c ≠ d)
    {s : Sym} (hc : s ∈ a.lut c) : s ∉ a.lut d := by
  obtain ⟨-, -, -, -, h, -⟩ := h
  simp only [List.nodup_append, List.mem_append] at h
  intro hd
  obtain ⟨⟨⟨-, -, h1⟩, -, h2⟩, -, h3⟩ := h
  cases c <;> cases d <;> first
    | exact absurd rfl hcd
    | exact h1 s hc s hd rfl
    | exact h1 s hd s hc rfl
    | exact h2 s (.inl hc) s hd rfl
    | exact h2 s (.inr hc) s hd rfl
    | exact h2 s (.inl hd) s hc rfl
    | exact h2 s (.inr hd) s hc rfl
    | exact h3 s (.inl (.inl hc)) s hd rfl
    | exact h3 s (.inl (.inr hc)) s hd rfl
    | exact h3 s (.inr hc) s hd rfl
    | exact h3 s (.inl (.inl hd)) s hc rfl
    | exact h3 s (.inl (.inr hd)) s hc rfl
    | exact h3 s (.inr hd) s hc rfl

/-- `Classify` answers exactly the class and index of a code point of a valid alphabet (40_alphabet_lut R153). -/
theorem Alphabet.Valid.classify_at {a : Alphabet} {w : SymWidth} (h : a.Valid w) {c : Cls} {i : Nat}
    (hi : i < Cls.size c) : a.classify (a.at c i) = some (c, i) := by
  have hlen : i < (a.lut c).length := by rw [h.length c]; exact hi
  have hfind : a.find (a.at c i) c = some i := indexIn_getD (h.nodup c) hlen
  have hmem : a.at c i ∈ a.lut c := getD_mem hlen
  have hnone : ∀ d, c ≠ d → a.find (a.at c i) d = none := fun d hd =>
    indexIn_none_iff.mpr (h.disjoint hd hmem)
  unfold Alphabet.classify
  cases c <;> simp [hfind, hnone]

theorem Alphabet.classify_some {a : Alphabet} {s : Sym} {c : Cls} {i : Nat} (h : a.classify s = some (c, i)) :
    i < (a.lut c).length ∧ a.at c i = s := by
  have key : a.find s c = some i := by
    unfold Alphabet.classify at h
    repeat' split at h
    all_goals first
      | cases h; assumption
      | cases h
  exact indexIn_some key

theorem Alphabet.Valid.classify_eq_some_iff {a : Alphabet} {w : SymWidth} (h : a.Valid w) {s : Sym} {c : Cls}
    {i : Nat} : a.classify s = some (c, i) ↔ i < Cls.size c ∧ a.at c i = s := by
  constructor
  · intro hs
    have := Alphabet.classify_some hs
    rwa [h.length c] at this
  · rintro ⟨hi, rfl⟩
    exact h.classify_at hi

theorem Alphabet.idx_eq_some_iff {a : Alphabet} {s : Sym} {c : Cls} {i : Nat} :
    a.idx s c = some i ↔ a.classify s = some (c, i) := by
  unfold Alphabet.idx
  split
  · rename_i d j hs
    rw [hs]
    by_cases hd : d = c
    · subst hd
      simp
    · simp [hd]
  · rename_i hs
    simp [hs]

/-- `idx_c` of a code point of class `c` (40_alphabet_lut R155). -/
theorem Alphabet.Valid.idx_at {a : Alphabet} {w : SymWidth} (h : a.Valid w) {c : Cls} {i : Nat}
    (hi : i < Cls.size c) : a.idx (a.at c i) c = some i :=
  Alphabet.idx_eq_some_iff.mpr (h.classify_at hi)

/-- A code point of another class is not found (40_alphabet_lut R155). -/
theorem Alphabet.Valid.idx_at_ne {a : Alphabet} {w : SymWidth} (h : a.Valid w) {c d : Cls} (hcd : c ≠ d) {i : Nat}
    (hi : i < Cls.size c) : a.idx (a.at c i) d = none := by
  unfold Alphabet.idx
  rw [h.classify_at hi]
  simp [hcd]

theorem Alphabet.Valid.idx_eq_some_iff {a : Alphabet} {w : SymWidth} (h : a.Valid w) {s : Sym} {c : Cls}
    {i : Nat} : a.idx s c = some i ↔ i < Cls.size c ∧ a.at c i = s := by
  rw [Alphabet.idx_eq_some_iff, h.classify_eq_some_iff]

/-- Every code point of a valid alphabet has `SYM_W` bits (40_alphabet_lut R150 (c)). -/
theorem Alphabet.Valid.at_lt {a : Alphabet} {w : SymWidth} (h : a.Valid w) {c : Cls} {i : Nat}
    (hi : i < Cls.size c) : (a.at c i).toNat < 2 ^ w.bits := by
  have hm : a.at c i ∈ a.lut c := getD_mem (by rw [h.length c]; exact hi)
  obtain ⟨-, -, -, -, -, h⟩ := h
  refine h _ ?_
  simp only [List.mem_append]
  cases c
  · exact .inl (.inl (.inl hm))
  · exact .inl (.inl (.inr hm))
  · exact .inl (.inr hm)
  · exact .inr hm

namespace Machine

/-- A `SYMn` register keeps a value of `SYM_W` bits whole (10_state R45). -/
theorem clipSym_of_lt {w : SymWidth} {x : Sym} (h : x.toNat < 2 ^ w.bits) : clipSym w x = x := by
  cases w with
  | w32 => rfl
  | w16 =>
    simp only [clipSym, SymWidth.bits] at h ⊢
    apply BitVec.eq_of_toNat_eq
    rw [BitVec.toNat_and]
    show x.toNat &&& (2 ^ 16 - 1) = x.toNat
    rw [Nat.and_two_pow_sub_one_eq_mod]
    exact Nat.mod_eq_of_lt h

/-- Whatever is written, a `SYMn` register holds `SYM_W` bits (10_state R45). -/
theorem clipSym_lt (w : SymWidth) (x : Sym) : (clipSym w x).toNat < 2 ^ w.bits := by
  cases w with
  | w32 => exact x.isLt
  | w16 =>
    simp only [clipSym, SymWidth.bits]
    rw [BitVec.toNat_and]
    exact Nat.lt_of_le_of_lt Nat.and_le_right (by decide)

/-! ## Lengths -/

@[simp] theorem Group.toList_length (g : Group) : g.toList.length = 4 := rfl
@[simp] theorem Tail.toList_length (t : Tail) : t.toList.length = 2 := rfl
@[simp] theorem unitBytes_length (v : UnitVal) : (unitBytes v).length = 2 := rfl

/-- The encoder emits 4 symbols for each complete pair (42_streaming R231). -/
theorem encPairs_length (a : Alphabet) (s : List Byte) : (encPairs a s).length = 4 * (s.length / 2) := by
  induction s using encPairs.induct with
  | case1 b0 b1 rest ih =>
    simp only [encPairs, List.length_append, Group.toList_length, ih, List.length_cons]
    omega
  | case2 s h =>
    have : s.length < 2 := by
      match s, h with
      | [], _ => simp
      | [_], _ => simp
      | b0 :: b1 :: rest, h => exact absurd rfl (h b0 b1 rest)
    rw [Nat.div_eq_of_lt this]
    unfold encPairs
    split
    · exact absurd rfl (h _ _ _)
    · rfl

theorem encPairs_append {a : Alphabet} {s t : List Byte} (h : s.length % 2 = 0) :
    encPairs a (s ++ t) = encPairs a s ++ encPairs a t := by
  induction s using encPairs.induct with
  | case1 b0 b1 rest ih =>
    have hr : rest.length % 2 = 0 := by
      simp only [List.length_cons] at h
      omega
    simp only [List.cons_append, encPairs, ih hr, List.append_assoc]
  | case2 s hs =>
    match s, hs, h with
    | [], _, _ => rfl
    | [_], _, h => exact absurd h (by simp)
    | b0 :: b1 :: rest, hs, _ => exact absurd rfl (hs b0 b1 rest)

/-- The decoder emits 2 bytes for each complete group when no group fails (42_streaming R232). -/
theorem decGroups_length_of_ok {a : Alphabet} {t : List Sym} (h : (decGroups a t).2 = none) :
    (decGroups a t).1.length = 2 * (t.length / 4) := by
  induction t using decGroups.induct (a := a) with
  | case1 s0 s1 s2 s3 rest e he => simp [decGroups, he] at h
  | case2 s0 s1 s2 s3 rest v hv ih =>
    simp only [decGroups, hv] at h ⊢
    simp only [List.length_append, unitBytes_length, ih h, List.length_cons]
    omega
  | case3 t ht =>
    have : t.length < 4 := by
      match t, ht with
      | [], _ => simp
      | [_], _ => simp
      | [_, _], _ => simp
      | [_, _, _], _ => simp
      | s0 :: s1 :: s2 :: s3 :: rest, ht => exact absurd rfl (ht s0 s1 s2 s3 rest)
    rw [Nat.div_eq_of_lt this]
    unfold decGroups
    split
    · exact absurd rfl (ht _ _ _ _ _)
    · rfl

/-- A failing group leaves out its own two bytes at least (42_streaming R223). -/
theorem decGroups_length_lt_of_err {a : Alphabet} {t : List Sym} {e : ErrCode} (h : (decGroups a t).2 = some e) :
    (decGroups a t).1.length < 2 * (t.length / 4) := by
  induction t using decGroups.induct (a := a) with
  | case1 s0 s1 s2 s3 rest e he => simp [decGroups, he]
  | case2 s0 s1 s2 s3 rest v hv ih =>
    simp only [decGroups, hv] at h ⊢
    have := ih h
    simp only [List.length_append, unitBytes_length, List.length_cons]
    omega
  | case3 t ht =>
    unfold decGroups at h
    split at h
    · exact absurd rfl (ht _ _ _ _ _)
    · cases h

/-- Never more than the bytes of all complete groups. -/
theorem decGroups_length_le (a : Alphabet) (t : List Sym) :
    (decGroups a t).1.length ≤ 2 * (t.length / 4) := by
  induction t using decGroups.induct (a := a) with
  | case1 s0 s1 s2 s3 rest e he => simp [decGroups, he]
  | case2 s0 s1 s2 s3 rest v hv ih =>
    simp only [decGroups, hv, List.length_append, unitBytes_length, List.length_cons]
    omega
  | case3 t ht =>
    unfold decGroups
    split
    · exact absurd rfl (ht _ _ _ _ _)
    · simp

theorem vencLanes_length (a : Alphabet) (s : List Byte) : (vencLanes a s).length = 4 * (s.length / 2) := by
  induction s using vencLanes.induct with
  | case1 b0 b1 rest ih =>
    simp only [vencLanes, List.length_append, Group.toList_length, ih, List.length_cons]
    omega
  | case2 s h =>
    have : s.length < 2 := by
      match s, h with
      | [], _ => simp
      | [_], _ => simp
      | b0 :: b1 :: rest, h => exact absurd rfl (h b0 b1 rest)
    rw [Nat.div_eq_of_lt this]
    unfold vencLanes
    split
    · exact absurd rfl (h _ _ _)
    · rfl

/-- `g` whole granules give `64 g` symbols (43_vector_divider R257). -/
theorem vencGranules_length (a : Alphabet) (g : Nat) (s : List Byte) (h : 32 * g ≤ s.length) :
    (vencGranules a g s).length = 64 * g := by
  induction g generalizing s with
  | zero => rfl
  | succ g ih =>
    simp only [vencGranules, List.length_append, vencLanes_length, List.length_take]
    rw [ih _ (by rw [List.length_drop]; omega)]
    omega

theorem granuleBytes_length {l : List (Option UnitVal)} {bs : List Byte} (h : granuleBytes l = some bs) :
    bs.length = 2 * l.length := by
  induction l generalizing bs with
  | nil => cases h; rfl
  | cons o l ih =>
    cases o with
    | none => cases h
    | some v =>
      obtain ⟨cs, hc, rfl⟩ := Option.map_eq_some_iff.mp h
      simp only [List.length_append, unitBytes_length, ih hc, List.length_cons]
      omega

theorem vdecLanes_length (a : Alphabet) (t : List Sym) : (vdecLanes a t).length = t.length / 4 := by
  induction t using vdecLanes.induct with
  | case1 s0 s1 s2 s3 rest ih =>
    simp only [vdecLanes, List.length_cons, ih]
    omega
  | case2 t ht =>
    have : t.length < 4 := by
      match t, ht with
      | [], _ => simp
      | [_], _ => simp
      | [_, _], _ => simp
      | [_, _, _], _ => simp
      | s0 :: s1 :: s2 :: s3 :: rest, ht => exact absurd rfl (ht s0 s1 s2 s3 rest)
    rw [Nat.div_eq_of_lt this]
    unfold vdecLanes
    split
    · exact absurd rfl (ht _ _ _ _ _)
    · rfl

/-- Never more than 32 bytes for each granule. -/
theorem vdecGranules_length_le (a : Alphabet) (g : Nat) (t : List Sym) :
    (vdecGranules a g t).1.length ≤ 32 * g := by
  induction g generalizing t with
  | zero => simp [vdecGranules]
  | succ g ih =>
    simp only [vdecGranules]
    split
    · simp
    · rename_i bs hbs
      have h1 := granuleBytes_length hbs
      rw [vdecLanes_length, List.length_take] at h1
      have h2 := ih (t.drop 64)
      simp only [List.length_append]
      omega

end Machine

end Sys2Proof
end

