-- ==== Sys2Proof/Laws/Memory.lean ====
section
/-! SUPPORT. Data memory: a read after a write, the canonical form, and the byte order of symbols. -/

namespace Sys2Proof.Machine

@[simp] theorem Memory.read_nil (x : Nat) : Memory.read [] x = memDefault := rfl

theorem Memory.read_cons (a : Nat) (b : Byte) (m : Memory) (x : Nat) :
    Memory.read ((a, b) :: m) x = if a = x then b else Memory.read m x := rfl

theorem Memory.read_insert (m : Memory) (x : Nat) (b : Byte) (y : Nat) :
    Memory.read (Memory.insert m x b) y = if x = y then b else Memory.read m y := by
  induction m with
  | nil => simp [Memory.insert, Memory.read_cons]
  | cons p m ih =>
    obtain ⟨a, c⟩ := p
    simp only [Memory.insert]
    split
    · simp [Memory.read_cons]
    · split
      · subst a
        simp only [Memory.read_cons]
        split <;> rfl
      · simp only [Memory.read_cons, ih]
        split
        · subst a
          rw [if_neg (by omega)]
        · rfl

theorem Memory.read_filter_ne (m : Memory) (x y : Nat) :
    Memory.read (m.filter (fun p => p.1 ≠ x)) y = if x = y then memDefault else Memory.read m y := by
  induction m with
  | nil => simp
  | cons p m ih =>
    obtain ⟨a, c⟩ := p
    by_cases h : a = x
    · simp only [List.filter_cons, h, ne_eq, not_true, decide_false, Bool.false_eq_true, if_false, ih,
        Memory.read_cons]
      split <;> rfl
    · simp only [List.filter_cons, h, ne_eq, not_false_eq_true, decide_true, if_true, Memory.read_cons, ih]
      split
      · subst a
        rw [if_neg (by omega)]
      · rfl

/-- A read after a write of one byte: the byte written at its address, the old byte elsewhere. -/
@[simp] theorem Memory.read_write (m : Memory) (x : Nat) (b : Byte) (y : Nat) :
    Memory.read (Memory.write m x b) y = if x = y then b else Memory.read m y := by
  unfold Memory.write
  split
  · subst b
    exact Memory.read_filter_ne m x y
  · exact Memory.read_insert m x b y

/-- A read after a write of consecutive bytes. -/
theorem Memory.read_writeBytes (m : Memory) (a : Nat) (bs : List Byte) (x : Nat) :
    Memory.read (Memory.writeBytes m a bs) x =
      if a ≤ x ∧ x < a + bs.length then bs.getD (x - a) 0 else Memory.read m x := by
  induction bs generalizing m a with
  | nil => simp [Memory.writeBytes] <;> omega
  | cons b bs ih =>
    simp only [Memory.writeBytes, ih, Memory.read_write, List.length_cons]
    by_cases hx : a = x
    · subst x
      rw [if_neg (by omega), if_pos rfl, if_pos (by omega), Nat.sub_self]
      rfl
    · by_cases h : a + 1 ≤ x ∧ x < a + 1 + bs.length
      · rw [if_pos h, if_pos (by omega), show x - a = (x - (a + 1)) + 1 by omega]
        rfl
      · rw [if_neg h, if_neg hx, if_neg (by omega)]

/-- Bytes outside those written keep their value. -/
theorem Memory.read_writeBytes_outside (m : Memory) (a : Nat) (bs : List Byte) (x : Nat)
    (h : x < a ∨ a + bs.length ≤ x) : Memory.read (Memory.writeBytes m a bs) x = Memory.read m x := by
  rw [Memory.read_writeBytes, if_neg (by omega)]

theorem Memory.writeBytes_append (m : Memory) (a : Nat) (bs cs : List Byte) :
    Memory.writeBytes m a (bs ++ cs) = Memory.writeBytes (Memory.writeBytes m a bs) (a + bs.length) cs := by
  induction bs generalizing m a with
  | nil => rfl
  | cons b bs ih =>
    simp only [List.cons_append, Memory.writeBytes, ih, List.length_cons]
    congr 1
    omega

/-! ## The canonical form -/

@[simp] theorem Memory.wf_nil : Memory.wf [] := by decide

theorem Memory.wf_insert {m : Memory} (h : Memory.wf m) {x : Nat} {b : Byte} (hx : x < 2 ^ 32)
    (hb : b ≠ memDefault) : Memory.wf (Memory.insert m x b) := by
  refine ⟨?_, ?_⟩
  · have key : ∀ m : Memory, m.Pairwise (fun p q => p.1 < q.1) →
        (Memory.insert m x b).Pairwise (fun p q => p.1 < q.1) ∧
        ∀ p ∈ Memory.insert m x b, p = (x, b) ∨ p ∈ m := by
      intro m
      induction m with
      | nil => intro _; simp [Memory.insert]
      | cons p m ih =>
        obtain ⟨a, c⟩ := p
        intro hm
        obtain ⟨h1, h2⟩ := List.pairwise_cons.mp hm
        obtain ⟨i1, i2⟩ := ih h2
        simp only [Memory.insert]
        split
        · rename_i hlt
          refine ⟨List.pairwise_cons.mpr ⟨?_, hm⟩, by simp⟩
          intro q hq
          rcases List.mem_cons.mp hq with rfl | hq
          · exact hlt
          · exact Nat.lt_trans hlt (h1 q hq)
        · split
          · subst a
            refine ⟨List.pairwise_cons.mpr ⟨h1, h2⟩, ?_⟩
            intro q hq
            rcases List.mem_cons.mp hq with rfl | hq
            · exact .inl rfl
            · exact .inr (List.mem_cons_of_mem _ hq)
          · refine ⟨List.pairwise_cons.mpr ⟨?_, i1⟩, ?_⟩
            · intro q hq
              rcases i2 q hq with rfl | hq
              · show a < x
                omega
              · exact h1 q hq
            · intro q hq
              rcases List.mem_cons.mp hq with rfl | hq
              · exact .inr (List.mem_cons_self ..)
              · rcases i2 q hq with rfl | hq
                · exact .inl rfl
                · exact .inr (List.mem_cons_of_mem _ hq)
    exact (key m h.1).1
  · have mem : ∀ (m : Memory), ∀ p ∈ Memory.insert m x b, p = (x, b) ∨ p ∈ m := by
      intro m
      induction m with
      | nil => simp [Memory.insert]
      | cons p m ih =>
        obtain ⟨a, c⟩ := p
        intro q hq
        simp only [Memory.insert] at hq
        split at hq
        · simpa using hq
        · split at hq
          · rcases List.mem_cons.mp hq with rfl | hq
            · exact .inl rfl
            · exact .inr (List.mem_cons_of_mem _ hq)
          · rcases List.mem_cons.mp hq with rfl | hq
            · exact .inr (List.mem_cons_self ..)
            · rcases ih q hq with rfl | hq
              · exact .inl rfl
              · exact .inr (List.mem_cons_of_mem _ hq)
    intro p hp
    rcases mem m p hp with rfl | hp
    · exact ⟨hx, hb⟩
    · exact h.2 p hp

/-- Writing a byte inside the address space keeps the canonical form. -/
theorem Memory.wf_write {m : Memory} (h : Memory.wf m) {x : Nat} {b : Byte} (hx : x < 2 ^ 32) :
    Memory.wf (Memory.write m x b) := by
  unfold Memory.write
  split
  · exact ⟨h.1.filter _, fun p hp => h.2 p (List.mem_filter.mp hp).1⟩
  · exact Memory.wf_insert h hx ‹_›

/-- Writing bytes inside the address space keeps the canonical form. -/
theorem Memory.wf_writeBytes {m : Memory} (h : Memory.wf m) {a : Nat} {bs : List Byte}
    (hx : bs = [] ∨ a + bs.length ≤ 2 ^ 32) : Memory.wf (Memory.writeBytes m a bs) := by
  induction bs generalizing m a with
  | nil => exact h
  | cons b bs ih =>
    simp only [List.length_cons, reduceCtorEq, false_or] at hx
    exact ih (Memory.wf_write h (by omega)) (.inr (by omega))

theorem Memory.read_of_mem {m : Memory} (h : m.Pairwise (fun p q => p.1 < q.1)) {p : Host.Cell} (hp : p ∈ m) :
    Memory.read m p.1 = p.2 := by
  induction m with
  | nil => cases hp
  | cons q m ih =>
    obtain ⟨a, c⟩ := q
    obtain ⟨h1, h2⟩ := List.pairwise_cons.mp h
    rcases List.mem_cons.mp hp with rfl | hp
    · simp [Memory.read_cons]
    · rw [Memory.read_cons, if_neg (Nat.ne_of_lt (h1 p hp)), ih h2 hp]

theorem Memory.mem_of_read {m : Memory} {x : Nat} (h : Memory.read m x ≠ memDefault) :
    (x, Memory.read m x) ∈ m := by
  induction m with
  | nil => exact absurd rfl h
  | cons q m ih =>
    obtain ⟨a, c⟩ := q
    simp only [Memory.read_cons] at h ⊢
    split
    · subst x
      exact List.mem_cons_self ..
    · rename_i hne
      rw [if_neg hne] at h
      exact List.mem_cons_of_mem _ (ih h)

theorem Memory.mem_iff_read {m : Memory} (h : Memory.wf m) (p : Host.Cell) :
    p ∈ m ↔ Memory.read m p.1 = p.2 ∧ p.2 ≠ memDefault := by
  constructor
  · intro hp
    exact ⟨Memory.read_of_mem h.1 hp, (h.2 p hp).2⟩
  · rintro ⟨h1, h2⟩
    have := Memory.mem_of_read (m := m) (x := p.1) (by rw [h1]; exact h2)
    rwa [h1] at this

/-- Two memories in canonical form that read alike are equal. -/
theorem Memory.ext_of_wf {m n : Memory} (hm : Memory.wf m) (hn : Memory.wf n)
    (h : ∀ x, Memory.read m x = Memory.read n x) : m = n := by
  have hmem : ∀ p, p ∈ m ↔ p ∈ n := fun p => by
    rw [Memory.mem_iff_read hm, Memory.mem_iff_read hn, h]
  obtain ⟨hm, -⟩ := hm
  obtain ⟨hn, -⟩ := hn
  clear h
  induction m generalizing n with
  | nil =>
    cases n with
    | nil => rfl
    | cons q n => exact absurd ((hmem q).2 (List.mem_cons_self ..)) (by simp)
  | cons p m ih =>
    cases n with
    | nil => exact absurd ((hmem p).1 (List.mem_cons_self ..)) (by simp)
    | cons q n =>
      obtain ⟨hp, hm'⟩ := List.pairwise_cons.mp hm
      obtain ⟨hq, hn'⟩ := List.pairwise_cons.mp hn
      have hpq : p = q := by
        rcases List.mem_cons.mp ((hmem p).1 (List.mem_cons_self ..)) with e | e
        · exact e
        · rcases List.mem_cons.mp ((hmem q).2 (List.mem_cons_self ..)) with e' | e'
          · exact e'.symm
          · have := hq p e
            have := hp q e'
            omega
      subst hpq
      congr 1
      refine ih (fun x => ?_) hm' hn'
      constructor
      · intro hx
        rcases List.mem_cons.mp ((hmem x).1 (List.mem_cons_of_mem _ hx)) with e | e
        · subst e
          have := hp x hx
          omega
        · exact e
      · intro hx
        rcases List.mem_cons.mp ((hmem x).2 (List.mem_cons_of_mem _ hx)) with e | e
        · subst e
          have := hq x hx
          omega
        · exact e

/-! ## Free draws of a reset -/

theorem Memory.read_foldl_draw (n : Nat) (new : Memory) (l : List Nat) (m : Memory) (x : Nat) :
    Memory.read (l.foldl (fun m a => if Config.resetDraw n a then Memory.write m a (Memory.read new a) else m) m) x
      = if x ∈ l ∧ Config.resetDraw n x = true then Memory.read new x else Memory.read m x := by
  induction l generalizing m with
  | nil => simp
  | cons a l ih =>
    simp only [List.foldl_cons, ih, List.mem_cons]
    by_cases hx : x ∈ l
    · simp only [hx, true_and, or_true]
      split
      · rfl
      · rename_i hd
        split
        · rename_i ha
          rw [Memory.read_write, if_neg]
          rintro rfl
          exact hd ha
        · rfl
    · simp only [hx, false_and, if_false, or_false]
      by_cases hax : x = a
      · subst hax
        simp only [true_and]
        split
        · simp
        · rfl
      · simp only [hax, false_and, if_false]
        split
        · rw [Memory.read_write, if_neg (Ne.symm hax)]
        · rfl

theorem Memory.read_of_not_mem_keys {m : Memory} {x : Nat} (h : x ∉ m.map Prod.fst) :
    Memory.read m x = memDefault := by
  induction m with
  | nil => rfl
  | cons q m ih =>
    obtain ⟨a, c⟩ := q
    simp only [List.map_cons, List.mem_cons, not_or] at h
    rw [Memory.read_cons, if_neg (Ne.symm h.1), ih h.2]

/-- After a drawing reset every byte is the drawn one of the two values. -/
theorem Memory.read_drawBetween (n : Nat) (old new : Memory) (x : Nat) :
    Memory.read (Memory.drawBetween n old new) x =
      if Config.resetDraw n x = true then Memory.read new x else Memory.read old x := by
  unfold Memory.drawBetween
  rw [Memory.read_foldl_draw]
  by_cases hx : x ∈ new.map Prod.fst ++ old.map Prod.fst
  · simp [hx]
  · simp only [hx, false_and, if_false]
    simp only [List.mem_append, not_or] at hx
    rw [Memory.read_of_not_mem_keys hx.1, Memory.read_of_not_mem_keys hx.2]
    split <;> rfl

theorem Memory.wf_drawBetween {n : Nat} {old new : Memory} (ho : Memory.wf old) (hn : Memory.wf new) :
    Memory.wf (Memory.drawBetween n old new) := by
  unfold Memory.drawBetween
  have hl : ∀ a ∈ new.map Prod.fst ++ old.map Prod.fst, a < 2 ^ 32 := by
    intro a ha
    rcases List.mem_append.mp ha with ha | ha <;> obtain ⟨p, hp, rfl⟩ := List.mem_map.mp ha
    · exact (hn.2 p hp).1
    · exact (ho.2 p hp).1
  generalize new.map Prod.fst ++ old.map Prod.fst = l at hl
  induction l generalizing old with
  | nil => exact ho
  | cons a l ih =>
    rw [List.foldl_cons]
    refine ih ?_ (fun b hb => hl b (List.mem_cons_of_mem _ hb))
    split
    · exact Memory.wf_write ho (hl a (List.mem_cons_self ..))
    · exact ho

/-! ## Byte order -/

@[simp] theorem leBytes_length (n v : Nat) : (leBytes n v).length = n := by
  induction n generalizing v with
  | zero => rfl
  | succ n ih => simp [leBytes, ih]

theorem symBytes_length (es : Nat) (l : List Sym) : (symBytes es l).length = es * l.length := by
  induction l with
  | nil => rfl
  | cons x l ih =>
    simp only [symBytes, List.flatMap_cons, List.length_append, leBytes_length, List.length_cons] at ih ⊢
    rw [ih, Nat.mul_succ, Nat.add_comm]

theorem symBytes_append (es : Nat) (l k : List Sym) : symBytes es (l ++ k) = symBytes es l ++ symBytes es k := by
  simp [symBytes]

@[simp] theorem Memory.readBytes_length (m : Memory) (a n : Nat) : (Memory.readBytes m a n).length = n := by
  simp [Memory.readBytes]

@[simp] theorem Memory.readSyms_length (m : Memory) (es a n : Nat) : (Memory.readSyms m es a n).length = n := by
  simp [Memory.readSyms]

theorem Memory.readLE_congr {m m' : Memory} {a n : Nat}
    (h : ∀ x, a ≤ x → x < a + n → Memory.read m x = Memory.read m' x) :
    Memory.readLE m a n = Memory.readLE m' a n := by
  induction n generalizing a with
  | zero => rfl
  | succ n ih =>
    simp only [Memory.readLE]
    rw [h a (Nat.le_refl _) (by omega), ih (fun x h1 h2 => h x (by omega) (by omega))]

theorem Memory.readLE_lt (m : Memory) (a n : Nat) : Memory.readLE m a n < 256 ^ n := by
  induction n generalizing a with
  | zero => simp [Memory.readLE]
  | succ n ih =>
    have h1 := ih (a + 1)
    have h2 := (Memory.read m a).isLt
    simp only [Memory.readLE, Nat.pow_succ]
    omega

theorem Memory.readLE_of_leBytes {m : Memory} {a n v : Nat}
    (h : ∀ t < n, Memory.read m (a + t) = (leBytes n v).getD t 0) :
    Memory.readLE m a n = v % 256 ^ n := by
  induction n generalizing a v with
  | zero => simp [Memory.readLE, Nat.mod_one]
  | succ n ih =>
    have h0 := h 0 (by omega)
    have ht := ih (a := a + 1) (v := v / 256) (fun t ht => by
      have := h (t + 1) (by omega)
      rw [show a + 1 + t = a + (t + 1) by omega, this]
      rfl)
    simp only [Nat.add_zero, leBytes, List.getD_cons_zero] at h0
    have e : v % 256 ^ (n + 1) = v % 256 + 256 * (v / 256 % 256 ^ n) := by
      rw [← Nat.mod_mul, Nat.pow_succ, Nat.mul_comm 256]
    rw [Memory.readLE, ht, h0, e]
    rfl

end Sys2Proof.Machine
end

