-- ==== Sys2Proof/Laws/Operands.lean ====
section
/-! SUPPORT. Windows and `MemCheck`: when it passes, and what each failure means. -/

namespace Sys2Proof.Machine

theorem Window.has_iff (w : Window) (a : Nat) : w.has a = true ↔ w.base ≤ a ∧ a < w.base + w.bytes := by
  simp [Window.has]

/-- Two windows overlap exactly when some address is in both (20_memory R88). -/
theorem Window.overlaps_iff (v w : Window) :
    v.overlaps w = true ↔ ∃ a, v.has a = true ∧ w.has a = true := by
  simp only [Window.overlaps, Window.has, decide_eq_true_eq]
  constructor
  · rintro ⟨h1, h2, h3, h4⟩
    by_cases h : v.base ≤ w.base
    · exact ⟨w.base, ⟨h, h4⟩, Nat.le_refl _, by omega⟩
    · exact ⟨v.base, ⟨Nat.le_refl _, by omega⟩, by omega, h3⟩
  · rintro ⟨a, ⟨h1, h2⟩, h3, h4⟩
    exact ⟨by omega, by omega, by omega, by omega⟩

/-- A window is accessible exactly when each of its bytes is (20_memory R89). -/
theorem Window.accessible_iff (w : Window) (c : Config) :
    w.accessible c = true ↔ ∀ a, w.has a = true → Config.accessible c a = true := by
  simp only [Window.accessible, Config.accessible, List.all_eq_true, Bool.not_eq_true']
  constructor
  · intro h a ha x hx
    have := h x hx
    rw [← Bool.not_eq_true, Window.overlaps_iff] at this
    simp only [decide_eq_false_iff_not]
    intro hc
    exact this ⟨a, ha, by simpa [Window.has, Window.bytes] using hc⟩
  · intro h x hx
    rw [← Bool.not_eq_true, Window.overlaps_iff]
    rintro ⟨a, ha, hb⟩
    have := h a ha x hx
    simp only [decide_eq_false_iff_not] at this
    exact this (by simpa [Window.has, Window.bytes] using hb)

theorem Window.ok_iff (w : Window) :
    w.ok = true ↔ w.count = 0 ∨ (w.base % w.es = 0 ∧ w.base + w.bytes ≤ 2 ^ 32) := by
  simp [Window.ok]

/-- When `MemCheck` passes (20_memory R89). -/
theorem memCheck_eq_none_iff (c : Config) (cap : Nat) (w : Windows) :
    memCheck c cap w = none ↔
      w.dst.count ≤ cap ∧ w.src.ok = true ∧ w.dst.ok = true ∧ w.src.overlaps w.dst = false ∧
      w.src.accessible c = true ∧ w.dst.accessible c = true := by
  unfold memCheck
  by_cases h1 : cap < w.dst.count
  · rw [if_pos h1]
    exact ⟨nofun, fun h => absurd h.1 (by omega)⟩
  · rw [if_neg h1]
    have h1' : w.dst.count ≤ cap := Nat.le_of_not_lt h1
    cases w.src.ok <;> cases w.dst.ok <;> cases w.src.overlaps w.dst <;> cases w.src.accessible c <;>
      cases w.dst.accessible c <;> simp [h1']

/-- The codes `MemCheck` gives (20_memory R89). -/
theorem memCheck_eq_some {c : Config} {cap : Nat} {w : Windows} {e : ErrCode} (h : memCheck c cap w = some e) :
    e = .capacity ∨ e = .badBuffer ∨ e = .busError := by
  unfold memCheck at h
  repeat' split at h
  all_goals first
    | (cases h; simp)
    | cases h

/-- A destination window that passed `MemCheck` lies inside the address space. -/
theorem Windows.dst_le_of_memCheck {c : Config} {cap : Nat} {w : Windows} (h : memCheck c cap w = none)
    (hn : w.dst.count ≠ 0) : w.dst.base + w.dst.bytes ≤ 2 ^ 32 := by
  have := ((memCheck_eq_none_iff c cap w).mp h).2.2.1
  rcases (Window.ok_iff _).mp this with h0 | h1
  · exact absurd h0 hn
  · exact h1.2

/-- No byte of the source window of a command that passed `MemCheck` is in its destination window. -/
theorem Windows.disjoint_of_memCheck {c : Config} {cap : Nat} {w : Windows} (h : memCheck c cap w = none)
    {a : Nat} (hs : w.src.has a = true) : w.dst.has a = false := by
  have h4 := ((memCheck_eq_none_iff c cap w).mp h).2.2.2.1
  cases hd : w.dst.has a with
  | false => rfl
  | true =>
    have := (Window.overlaps_iff w.src w.dst).mpr ⟨a, hs, hd⟩
    rw [h4] at this
    cases this

end Sys2Proof.Machine
end

