-- ==== Sys2Proof/Laws/State.lean ====
section
/-! SUPPORT. What each update of the state does to each field: one lemma per field per update, so that no proof
unfolds a record update. -/

namespace Sys2Proof.Machine

/-! `State.finish` -/

@[simp] theorem State.finish_cfg (s : State) (e : ErrCode) : (s.finish e).cfg = s.cfg := rfl
@[simp] theorem State.finish_cmd (s : State) (e : ErrCode) : (s.finish e).cmd = s.cmd := rfl
@[simp] theorem State.finish_status (s : State) (e : ErrCode) : (s.finish e).status = { busy := false, err := e, hz := s.status.hz } := rfl
@[simp] theorem State.finish_srcAddr (s : State) (e : ErrCode) : (s.finish e).srcAddr = s.srcAddr := rfl
@[simp] theorem State.finish_srcLen (s : State) (e : ErrCode) : (s.finish e).srcLen = s.srcLen := rfl
@[simp] theorem State.finish_dstAddr (s : State) (e : ErrCode) : (s.finish e).dstAddr = s.dstAddr := rfl
@[simp] theorem State.finish_dstCap (s : State) (e : ErrCode) : (s.finish e).dstCap = s.dstCap := rfl
@[simp] theorem State.finish_result (s : State) (e : ErrCode) : (s.finish e).result = s.result := rfl
@[simp] theorem State.finish_unitIn (s : State) (e : ErrCode) : (s.finish e).unitIn = s.unitIn := rfl
@[simp] theorem State.finish_unitOut (s : State) (e : ErrCode) : (s.finish e).unitOut = s.unitOut := rfl
@[simp] theorem State.finish_sym0 (s : State) (e : ErrCode) : (s.finish e).sym0 = s.sym0 := rfl
@[simp] theorem State.finish_sym1 (s : State) (e : ErrCode) : (s.finish e).sym1 = s.sym1 := rfl
@[simp] theorem State.finish_sym2 (s : State) (e : ErrCode) : (s.finish e).sym2 = s.sym2 := rfl
@[simp] theorem State.finish_sym3 (s : State) (e : ErrCode) : (s.finish e).sym3 = s.sym3 := rfl
@[simp] theorem State.finish_enc (s : State) (e : ErrCode) : (s.finish e).enc = s.enc := rfl
@[simp] theorem State.finish_dec (s : State) (e : ErrCode) : (s.finish e).dec = s.dec := rfl
@[simp] theorem State.finish_mem (s : State) (e : ErrCode) : (s.finish e).mem = s.mem := rfl
@[simp] theorem State.finish_inputs (s : State) (e : ErrCode) : (s.finish e).inputs = s.inputs := rfl
@[simp] theorem State.finish_hostRead (s : State) (e : ErrCode) : (s.finish e).hostRead = s.hostRead := rfl
@[simp] theorem State.finish_resetDraws (s : State) (e : ErrCode) : (s.finish e).resetDraws = s.resetDraws := rfl

/-! `State.failMem` -/

@[simp] theorem State.failMem_cfg (s : State) (e : ErrCode) : (s.failMem e).cfg = s.cfg := rfl
@[simp] theorem State.failMem_cmd (s : State) (e : ErrCode) : (s.failMem e).cmd = s.cmd := rfl
@[simp] theorem State.failMem_status (s : State) (e : ErrCode) : (s.failMem e).status = { busy := false, err := e, hz := s.status.hz } := rfl
@[simp] theorem State.failMem_srcAddr (s : State) (e : ErrCode) : (s.failMem e).srcAddr = s.srcAddr := rfl
@[simp] theorem State.failMem_srcLen (s : State) (e : ErrCode) : (s.failMem e).srcLen = s.srcLen := rfl
@[simp] theorem State.failMem_dstAddr (s : State) (e : ErrCode) : (s.failMem e).dstAddr = s.dstAddr := rfl
@[simp] theorem State.failMem_dstCap (s : State) (e : ErrCode) : (s.failMem e).dstCap = s.dstCap := rfl
@[simp] theorem State.failMem_result (s : State) (e : ErrCode) : (s.failMem e).result = 0 := rfl
@[simp] theorem State.failMem_unitIn (s : State) (e : ErrCode) : (s.failMem e).unitIn = s.unitIn := rfl
@[simp] theorem State.failMem_unitOut (s : State) (e : ErrCode) : (s.failMem e).unitOut = s.unitOut := rfl
@[simp] theorem State.failMem_sym0 (s : State) (e : ErrCode) : (s.failMem e).sym0 = s.sym0 := rfl
@[simp] theorem State.failMem_sym1 (s : State) (e : ErrCode) : (s.failMem e).sym1 = s.sym1 := rfl
@[simp] theorem State.failMem_sym2 (s : State) (e : ErrCode) : (s.failMem e).sym2 = s.sym2 := rfl
@[simp] theorem State.failMem_sym3 (s : State) (e : ErrCode) : (s.failMem e).sym3 = s.sym3 := rfl
@[simp] theorem State.failMem_enc (s : State) (e : ErrCode) : (s.failMem e).enc = s.enc := rfl
@[simp] theorem State.failMem_dec (s : State) (e : ErrCode) : (s.failMem e).dec = s.dec := rfl
@[simp] theorem State.failMem_mem (s : State) (e : ErrCode) : (s.failMem e).mem = s.mem := rfl
@[simp] theorem State.failMem_inputs (s : State) (e : ErrCode) : (s.failMem e).inputs = s.inputs := rfl
@[simp] theorem State.failMem_hostRead (s : State) (e : ErrCode) : (s.failMem e).hostRead = s.hostRead := rfl
@[simp] theorem State.failMem_resetDraws (s : State) (e : ErrCode) : (s.failMem e).resetDraws = s.resetDraws := rfl

/-! `State.illegal` -/

@[simp] theorem State.illegal_cfg (s : State) : (s.illegal).cfg = s.cfg := rfl
@[simp] theorem State.illegal_cmd (s : State) : (s.illegal).cmd = s.cmd := rfl
@[simp] theorem State.illegal_status (s : State) : (s.illegal).status = { busy := false, err := .illegalCmd, hz := s.status.hz } := rfl
@[simp] theorem State.illegal_srcAddr (s : State) : (s.illegal).srcAddr = s.srcAddr := rfl
@[simp] theorem State.illegal_srcLen (s : State) : (s.illegal).srcLen = s.srcLen := rfl
@[simp] theorem State.illegal_dstAddr (s : State) : (s.illegal).dstAddr = s.dstAddr := rfl
@[simp] theorem State.illegal_dstCap (s : State) : (s.illegal).dstCap = s.dstCap := rfl
@[simp] theorem State.illegal_result (s : State) : (s.illegal).result = s.result := rfl
@[simp] theorem State.illegal_unitIn (s : State) : (s.illegal).unitIn = s.unitIn := rfl
@[simp] theorem State.illegal_unitOut (s : State) : (s.illegal).unitOut = s.unitOut := rfl
@[simp] theorem State.illegal_sym0 (s : State) : (s.illegal).sym0 = s.sym0 := rfl
@[simp] theorem State.illegal_sym1 (s : State) : (s.illegal).sym1 = s.sym1 := rfl
@[simp] theorem State.illegal_sym2 (s : State) : (s.illegal).sym2 = s.sym2 := rfl
@[simp] theorem State.illegal_sym3 (s : State) : (s.illegal).sym3 = s.sym3 := rfl
@[simp] theorem State.illegal_enc (s : State) : (s.illegal).enc = s.enc := rfl
@[simp] theorem State.illegal_dec (s : State) : (s.illegal).dec = s.dec := rfl
@[simp] theorem State.illegal_mem (s : State) : (s.illegal).mem = s.mem := rfl
@[simp] theorem State.illegal_inputs (s : State) : (s.illegal).inputs = s.inputs := rfl
@[simp] theorem State.illegal_hostRead (s : State) : (s.illegal).hostRead = s.hostRead := rfl
@[simp] theorem State.illegal_resetDraws (s : State) : (s.illegal).resetDraws = s.resetDraws := rfl

/-! `State.setEnc` -/

@[simp] theorem State.setEnc_cfg (s : State) (k : Nat) (c : EncCtx) : (s.setEnc k c).cfg = s.cfg := rfl
@[simp] theorem State.setEnc_cmd (s : State) (k : Nat) (c : EncCtx) : (s.setEnc k c).cmd = s.cmd := rfl
@[simp] theorem State.setEnc_status (s : State) (k : Nat) (c : EncCtx) : (s.setEnc k c).status = s.status := rfl
@[simp] theorem State.setEnc_srcAddr (s : State) (k : Nat) (c : EncCtx) : (s.setEnc k c).srcAddr = s.srcAddr := rfl
@[simp] theorem State.setEnc_srcLen (s : State) (k : Nat) (c : EncCtx) : (s.setEnc k c).srcLen = s.srcLen := rfl
@[simp] theorem State.setEnc_dstAddr (s : State) (k : Nat) (c : EncCtx) : (s.setEnc k c).dstAddr = s.dstAddr := rfl
@[simp] theorem State.setEnc_dstCap (s : State) (k : Nat) (c : EncCtx) : (s.setEnc k c).dstCap = s.dstCap := rfl
@[simp] theorem State.setEnc_result (s : State) (k : Nat) (c : EncCtx) : (s.setEnc k c).result = s.result := rfl
@[simp] theorem State.setEnc_unitIn (s : State) (k : Nat) (c : EncCtx) : (s.setEnc k c).unitIn = s.unitIn := rfl
@[simp] theorem State.setEnc_unitOut (s : State) (k : Nat) (c : EncCtx) : (s.setEnc k c).unitOut = s.unitOut := rfl
@[simp] theorem State.setEnc_sym0 (s : State) (k : Nat) (c : EncCtx) : (s.setEnc k c).sym0 = s.sym0 := rfl
@[simp] theorem State.setEnc_sym1 (s : State) (k : Nat) (c : EncCtx) : (s.setEnc k c).sym1 = s.sym1 := rfl
@[simp] theorem State.setEnc_sym2 (s : State) (k : Nat) (c : EncCtx) : (s.setEnc k c).sym2 = s.sym2 := rfl
@[simp] theorem State.setEnc_sym3 (s : State) (k : Nat) (c : EncCtx) : (s.setEnc k c).sym3 = s.sym3 := rfl
@[simp] theorem State.setEnc_enc (s : State) (k : Nat) (c : EncCtx) : (s.setEnc k c).enc = s.enc.set k c := rfl
@[simp] theorem State.setEnc_dec (s : State) (k : Nat) (c : EncCtx) : (s.setEnc k c).dec = s.dec := rfl
@[simp] theorem State.setEnc_mem (s : State) (k : Nat) (c : EncCtx) : (s.setEnc k c).mem = s.mem := rfl
@[simp] theorem State.setEnc_inputs (s : State) (k : Nat) (c : EncCtx) : (s.setEnc k c).inputs = s.inputs := rfl
@[simp] theorem State.setEnc_hostRead (s : State) (k : Nat) (c : EncCtx) : (s.setEnc k c).hostRead = s.hostRead := rfl
@[simp] theorem State.setEnc_resetDraws (s : State) (k : Nat) (c : EncCtx) : (s.setEnc k c).resetDraws = s.resetDraws := rfl

/-! `State.setDec` -/

@[simp] theorem State.setDec_cfg (s : State) (k : Nat) (c : DecCtx) : (s.setDec k c).cfg = s.cfg := rfl
@[simp] theorem State.setDec_cmd (s : State) (k : Nat) (c : DecCtx) : (s.setDec k c).cmd = s.cmd := rfl
@[simp] theorem State.setDec_status (s : State) (k : Nat) (c : DecCtx) : (s.setDec k c).status = s.status := rfl
@[simp] theorem State.setDec_srcAddr (s : State) (k : Nat) (c : DecCtx) : (s.setDec k c).srcAddr = s.srcAddr := rfl
@[simp] theorem State.setDec_srcLen (s : State) (k : Nat) (c : DecCtx) : (s.setDec k c).srcLen = s.srcLen := rfl
@[simp] theorem State.setDec_dstAddr (s : State) (k : Nat) (c : DecCtx) : (s.setDec k c).dstAddr = s.dstAddr := rfl
@[simp] theorem State.setDec_dstCap (s : State) (k : Nat) (c : DecCtx) : (s.setDec k c).dstCap = s.dstCap := rfl
@[simp] theorem State.setDec_result (s : State) (k : Nat) (c : DecCtx) : (s.setDec k c).result = s.result := rfl
@[simp] theorem State.setDec_unitIn (s : State) (k : Nat) (c : DecCtx) : (s.setDec k c).unitIn = s.unitIn := rfl
@[simp] theorem State.setDec_unitOut (s : State) (k : Nat) (c : DecCtx) : (s.setDec k c).unitOut = s.unitOut := rfl
@[simp] theorem State.setDec_sym0 (s : State) (k : Nat) (c : DecCtx) : (s.setDec k c).sym0 = s.sym0 := rfl
@[simp] theorem State.setDec_sym1 (s : State) (k : Nat) (c : DecCtx) : (s.setDec k c).sym1 = s.sym1 := rfl
@[simp] theorem State.setDec_sym2 (s : State) (k : Nat) (c : DecCtx) : (s.setDec k c).sym2 = s.sym2 := rfl
@[simp] theorem State.setDec_sym3 (s : State) (k : Nat) (c : DecCtx) : (s.setDec k c).sym3 = s.sym3 := rfl
@[simp] theorem State.setDec_enc (s : State) (k : Nat) (c : DecCtx) : (s.setDec k c).enc = s.enc := rfl
@[simp] theorem State.setDec_dec (s : State) (k : Nat) (c : DecCtx) : (s.setDec k c).dec = s.dec.set k c := rfl
@[simp] theorem State.setDec_mem (s : State) (k : Nat) (c : DecCtx) : (s.setDec k c).mem = s.mem := rfl
@[simp] theorem State.setDec_inputs (s : State) (k : Nat) (c : DecCtx) : (s.setDec k c).inputs = s.inputs := rfl
@[simp] theorem State.setDec_hostRead (s : State) (k : Nat) (c : DecCtx) : (s.setDec k c).hostRead = s.hostRead := rfl
@[simp] theorem State.setDec_resetDraws (s : State) (k : Nat) (c : DecCtx) : (s.setDec k c).resetDraws = s.resetDraws := rfl

/-! `State.setResult` -/

@[simp] theorem State.setResult_cfg (s : State) (n : Nat) : (s.setResult n).cfg = s.cfg := rfl
@[simp] theorem State.setResult_cmd (s : State) (n : Nat) : (s.setResult n).cmd = s.cmd := rfl
@[simp] theorem State.setResult_status (s : State) (n : Nat) : (s.setResult n).status = s.status := rfl
@[simp] theorem State.setResult_srcAddr (s : State) (n : Nat) : (s.setResult n).srcAddr = s.srcAddr := rfl
@[simp] theorem State.setResult_srcLen (s : State) (n : Nat) : (s.setResult n).srcLen = s.srcLen := rfl
@[simp] theorem State.setResult_dstAddr (s : State) (n : Nat) : (s.setResult n).dstAddr = s.dstAddr := rfl
@[simp] theorem State.setResult_dstCap (s : State) (n : Nat) : (s.setResult n).dstCap = s.dstCap := rfl
@[simp] theorem State.setResult_result (s : State) (n : Nat) : (s.setResult n).result = BitVec.ofNat 32 n := rfl
@[simp] theorem State.setResult_unitIn (s : State) (n : Nat) : (s.setResult n).unitIn = s.unitIn := rfl
@[simp] theorem State.setResult_unitOut (s : State) (n : Nat) : (s.setResult n).unitOut = s.unitOut := rfl
@[simp] theorem State.setResult_sym0 (s : State) (n : Nat) : (s.setResult n).sym0 = s.sym0 := rfl
@[simp] theorem State.setResult_sym1 (s : State) (n : Nat) : (s.setResult n).sym1 = s.sym1 := rfl
@[simp] theorem State.setResult_sym2 (s : State) (n : Nat) : (s.setResult n).sym2 = s.sym2 := rfl
@[simp] theorem State.setResult_sym3 (s : State) (n : Nat) : (s.setResult n).sym3 = s.sym3 := rfl
@[simp] theorem State.setResult_enc (s : State) (n : Nat) : (s.setResult n).enc = s.enc := rfl
@[simp] theorem State.setResult_dec (s : State) (n : Nat) : (s.setResult n).dec = s.dec := rfl
@[simp] theorem State.setResult_mem (s : State) (n : Nat) : (s.setResult n).mem = s.mem := rfl
@[simp] theorem State.setResult_inputs (s : State) (n : Nat) : (s.setResult n).inputs = s.inputs := rfl
@[simp] theorem State.setResult_hostRead (s : State) (n : Nat) : (s.setResult n).hostRead = s.hostRead := rfl
@[simp] theorem State.setResult_resetDraws (s : State) (n : Nat) : (s.setResult n).resetDraws = s.resetDraws := rfl

/-! `State.setUnitOut` -/

@[simp] theorem State.setUnitOut_cfg (s : State) (v : Word) : (s.setUnitOut v).cfg = s.cfg := rfl
@[simp] theorem State.setUnitOut_cmd (s : State) (v : Word) : (s.setUnitOut v).cmd = s.cmd := rfl
@[simp] theorem State.setUnitOut_status (s : State) (v : Word) : (s.setUnitOut v).status = s.status := rfl
@[simp] theorem State.setUnitOut_srcAddr (s : State) (v : Word) : (s.setUnitOut v).srcAddr = s.srcAddr := rfl
@[simp] theorem State.setUnitOut_srcLen (s : State) (v : Word) : (s.setUnitOut v).srcLen = s.srcLen := rfl
@[simp] theorem State.setUnitOut_dstAddr (s : State) (v : Word) : (s.setUnitOut v).dstAddr = s.dstAddr := rfl
@[simp] theorem State.setUnitOut_dstCap (s : State) (v : Word) : (s.setUnitOut v).dstCap = s.dstCap := rfl
@[simp] theorem State.setUnitOut_result (s : State) (v : Word) : (s.setUnitOut v).result = s.result := rfl
@[simp] theorem State.setUnitOut_unitIn (s : State) (v : Word) : (s.setUnitOut v).unitIn = s.unitIn := rfl
@[simp] theorem State.setUnitOut_unitOut (s : State) (v : Word) : (s.setUnitOut v).unitOut = v := rfl
@[simp] theorem State.setUnitOut_sym0 (s : State) (v : Word) : (s.setUnitOut v).sym0 = s.sym0 := rfl
@[simp] theorem State.setUnitOut_sym1 (s : State) (v : Word) : (s.setUnitOut v).sym1 = s.sym1 := rfl
@[simp] theorem State.setUnitOut_sym2 (s : State) (v : Word) : (s.setUnitOut v).sym2 = s.sym2 := rfl
@[simp] theorem State.setUnitOut_sym3 (s : State) (v : Word) : (s.setUnitOut v).sym3 = s.sym3 := rfl
@[simp] theorem State.setUnitOut_enc (s : State) (v : Word) : (s.setUnitOut v).enc = s.enc := rfl
@[simp] theorem State.setUnitOut_dec (s : State) (v : Word) : (s.setUnitOut v).dec = s.dec := rfl
@[simp] theorem State.setUnitOut_mem (s : State) (v : Word) : (s.setUnitOut v).mem = s.mem := rfl
@[simp] theorem State.setUnitOut_inputs (s : State) (v : Word) : (s.setUnitOut v).inputs = s.inputs := rfl
@[simp] theorem State.setUnitOut_hostRead (s : State) (v : Word) : (s.setUnitOut v).hostRead = s.hostRead := rfl
@[simp] theorem State.setUnitOut_resetDraws (s : State) (v : Word) : (s.setUnitOut v).resetDraws = s.resetDraws := rfl

/-! `State.setSym0` -/

@[simp] theorem State.setSym0_cfg (s : State) (x : Sym) : (s.setSym0 x).cfg = s.cfg := rfl
@[simp] theorem State.setSym0_cmd (s : State) (x : Sym) : (s.setSym0 x).cmd = s.cmd := rfl
@[simp] theorem State.setSym0_status (s : State) (x : Sym) : (s.setSym0 x).status = s.status := rfl
@[simp] theorem State.setSym0_srcAddr (s : State) (x : Sym) : (s.setSym0 x).srcAddr = s.srcAddr := rfl
@[simp] theorem State.setSym0_srcLen (s : State) (x : Sym) : (s.setSym0 x).srcLen = s.srcLen := rfl
@[simp] theorem State.setSym0_dstAddr (s : State) (x : Sym) : (s.setSym0 x).dstAddr = s.dstAddr := rfl
@[simp] theorem State.setSym0_dstCap (s : State) (x : Sym) : (s.setSym0 x).dstCap = s.dstCap := rfl
@[simp] theorem State.setSym0_result (s : State) (x : Sym) : (s.setSym0 x).result = s.result := rfl
@[simp] theorem State.setSym0_unitIn (s : State) (x : Sym) : (s.setSym0 x).unitIn = s.unitIn := rfl
@[simp] theorem State.setSym0_unitOut (s : State) (x : Sym) : (s.setSym0 x).unitOut = s.unitOut := rfl
@[simp] theorem State.setSym0_sym0 (s : State) (x : Sym) : (s.setSym0 x).sym0 = clipSym s.cfg.symW x := rfl
@[simp] theorem State.setSym0_sym1 (s : State) (x : Sym) : (s.setSym0 x).sym1 = s.sym1 := rfl
@[simp] theorem State.setSym0_sym2 (s : State) (x : Sym) : (s.setSym0 x).sym2 = s.sym2 := rfl
@[simp] theorem State.setSym0_sym3 (s : State) (x : Sym) : (s.setSym0 x).sym3 = s.sym3 := rfl
@[simp] theorem State.setSym0_enc (s : State) (x : Sym) : (s.setSym0 x).enc = s.enc := rfl
@[simp] theorem State.setSym0_dec (s : State) (x : Sym) : (s.setSym0 x).dec = s.dec := rfl
@[simp] theorem State.setSym0_mem (s : State) (x : Sym) : (s.setSym0 x).mem = s.mem := rfl
@[simp] theorem State.setSym0_inputs (s : State) (x : Sym) : (s.setSym0 x).inputs = s.inputs := rfl
@[simp] theorem State.setSym0_hostRead (s : State) (x : Sym) : (s.setSym0 x).hostRead = s.hostRead := rfl
@[simp] theorem State.setSym0_resetDraws (s : State) (x : Sym) : (s.setSym0 x).resetDraws = s.resetDraws := rfl

/-! `State.setSym1` -/

@[simp] theorem State.setSym1_cfg (s : State) (x : Sym) : (s.setSym1 x).cfg = s.cfg := rfl
@[simp] theorem State.setSym1_cmd (s : State) (x : Sym) : (s.setSym1 x).cmd = s.cmd := rfl
@[simp] theorem State.setSym1_status (s : State) (x : Sym) : (s.setSym1 x).status = s.status := rfl
@[simp] theorem State.setSym1_srcAddr (s : State) (x : Sym) : (s.setSym1 x).srcAddr = s.srcAddr := rfl
@[simp] theorem State.setSym1_srcLen (s : State) (x : Sym) : (s.setSym1 x).srcLen = s.srcLen := rfl
@[simp] theorem State.setSym1_dstAddr (s : State) (x : Sym) : (s.setSym1 x).dstAddr = s.dstAddr := rfl
@[simp] theorem State.setSym1_dstCap (s : State) (x : Sym) : (s.setSym1 x).dstCap = s.dstCap := rfl
@[simp] theorem State.setSym1_result (s : State) (x : Sym) : (s.setSym1 x).result = s.result := rfl
@[simp] theorem State.setSym1_unitIn (s : State) (x : Sym) : (s.setSym1 x).unitIn = s.unitIn := rfl
@[simp] theorem State.setSym1_unitOut (s : State) (x : Sym) : (s.setSym1 x).unitOut = s.unitOut := rfl
@[simp] theorem State.setSym1_sym0 (s : State) (x : Sym) : (s.setSym1 x).sym0 = s.sym0 := rfl
@[simp] theorem State.setSym1_sym1 (s : State) (x : Sym) : (s.setSym1 x).sym1 = clipSym s.cfg.symW x := rfl
@[simp] theorem State.setSym1_sym2 (s : State) (x : Sym) : (s.setSym1 x).sym2 = s.sym2 := rfl
@[simp] theorem State.setSym1_sym3 (s : State) (x : Sym) : (s.setSym1 x).sym3 = s.sym3 := rfl
@[simp] theorem State.setSym1_enc (s : State) (x : Sym) : (s.setSym1 x).enc = s.enc := rfl
@[simp] theorem State.setSym1_dec (s : State) (x : Sym) : (s.setSym1 x).dec = s.dec := rfl
@[simp] theorem State.setSym1_mem (s : State) (x : Sym) : (s.setSym1 x).mem = s.mem := rfl
@[simp] theorem State.setSym1_inputs (s : State) (x : Sym) : (s.setSym1 x).inputs = s.inputs := rfl
@[simp] theorem State.setSym1_hostRead (s : State) (x : Sym) : (s.setSym1 x).hostRead = s.hostRead := rfl
@[simp] theorem State.setSym1_resetDraws (s : State) (x : Sym) : (s.setSym1 x).resetDraws = s.resetDraws := rfl

/-! `State.setSym2` -/

@[simp] theorem State.setSym2_cfg (s : State) (x : Sym) : (s.setSym2 x).cfg = s.cfg := rfl
@[simp] theorem State.setSym2_cmd (s : State) (x : Sym) : (s.setSym2 x).cmd = s.cmd := rfl
@[simp] theorem State.setSym2_status (s : State) (x : Sym) : (s.setSym2 x).status = s.status := rfl
@[simp] theorem State.setSym2_srcAddr (s : State) (x : Sym) : (s.setSym2 x).srcAddr = s.srcAddr := rfl
@[simp] theorem State.setSym2_srcLen (s : State) (x : Sym) : (s.setSym2 x).srcLen = s.srcLen := rfl
@[simp] theorem State.setSym2_dstAddr (s : State) (x : Sym) : (s.setSym2 x).dstAddr = s.dstAddr := rfl
@[simp] theorem State.setSym2_dstCap (s : State) (x : Sym) : (s.setSym2 x).dstCap = s.dstCap := rfl
@[simp] theorem State.setSym2_result (s : State) (x : Sym) : (s.setSym2 x).result = s.result := rfl
@[simp] theorem State.setSym2_unitIn (s : State) (x : Sym) : (s.setSym2 x).unitIn = s.unitIn := rfl
@[simp] theorem State.setSym2_unitOut (s : State) (x : Sym) : (s.setSym2 x).unitOut = s.unitOut := rfl
@[simp] theorem State.setSym2_sym0 (s : State) (x : Sym) : (s.setSym2 x).sym0 = s.sym0 := rfl
@[simp] theorem State.setSym2_sym1 (s : State) (x : Sym) : (s.setSym2 x).sym1 = s.sym1 := rfl
@[simp] theorem State.setSym2_sym2 (s : State) (x : Sym) : (s.setSym2 x).sym2 = clipSym s.cfg.symW x := rfl
@[simp] theorem State.setSym2_sym3 (s : State) (x : Sym) : (s.setSym2 x).sym3 = s.sym3 := rfl
@[simp] theorem State.setSym2_enc (s : State) (x : Sym) : (s.setSym2 x).enc = s.enc := rfl
@[simp] theorem State.setSym2_dec (s : State) (x : Sym) : (s.setSym2 x).dec = s.dec := rfl
@[simp] theorem State.setSym2_mem (s : State) (x : Sym) : (s.setSym2 x).mem = s.mem := rfl
@[simp] theorem State.setSym2_inputs (s : State) (x : Sym) : (s.setSym2 x).inputs = s.inputs := rfl
@[simp] theorem State.setSym2_hostRead (s : State) (x : Sym) : (s.setSym2 x).hostRead = s.hostRead := rfl
@[simp] theorem State.setSym2_resetDraws (s : State) (x : Sym) : (s.setSym2 x).resetDraws = s.resetDraws := rfl

/-! `State.setSym3` -/

@[simp] theorem State.setSym3_cfg (s : State) (x : Sym) : (s.setSym3 x).cfg = s.cfg := rfl
@[simp] theorem State.setSym3_cmd (s : State) (x : Sym) : (s.setSym3 x).cmd = s.cmd := rfl
@[simp] theorem State.setSym3_status (s : State) (x : Sym) : (s.setSym3 x).status = s.status := rfl
@[simp] theorem State.setSym3_srcAddr (s : State) (x : Sym) : (s.setSym3 x).srcAddr = s.srcAddr := rfl
@[simp] theorem State.setSym3_srcLen (s : State) (x : Sym) : (s.setSym3 x).srcLen = s.srcLen := rfl
@[simp] theorem State.setSym3_dstAddr (s : State) (x : Sym) : (s.setSym3 x).dstAddr = s.dstAddr := rfl
@[simp] theorem State.setSym3_dstCap (s : State) (x : Sym) : (s.setSym3 x).dstCap = s.dstCap := rfl
@[simp] theorem State.setSym3_result (s : State) (x : Sym) : (s.setSym3 x).result = s.result := rfl
@[simp] theorem State.setSym3_unitIn (s : State) (x : Sym) : (s.setSym3 x).unitIn = s.unitIn := rfl
@[simp] theorem State.setSym3_unitOut (s : State) (x : Sym) : (s.setSym3 x).unitOut = s.unitOut := rfl
@[simp] theorem State.setSym3_sym0 (s : State) (x : Sym) : (s.setSym3 x).sym0 = s.sym0 := rfl
@[simp] theorem State.setSym3_sym1 (s : State) (x : Sym) : (s.setSym3 x).sym1 = s.sym1 := rfl
@[simp] theorem State.setSym3_sym2 (s : State) (x : Sym) : (s.setSym3 x).sym2 = s.sym2 := rfl
@[simp] theorem State.setSym3_sym3 (s : State) (x : Sym) : (s.setSym3 x).sym3 = clipSym s.cfg.symW x := rfl
@[simp] theorem State.setSym3_enc (s : State) (x : Sym) : (s.setSym3 x).enc = s.enc := rfl
@[simp] theorem State.setSym3_dec (s : State) (x : Sym) : (s.setSym3 x).dec = s.dec := rfl
@[simp] theorem State.setSym3_mem (s : State) (x : Sym) : (s.setSym3 x).mem = s.mem := rfl
@[simp] theorem State.setSym3_inputs (s : State) (x : Sym) : (s.setSym3 x).inputs = s.inputs := rfl
@[simp] theorem State.setSym3_hostRead (s : State) (x : Sym) : (s.setSym3 x).hostRead = s.hostRead := rfl
@[simp] theorem State.setSym3_resetDraws (s : State) (x : Sym) : (s.setSym3 x).resetDraws = s.resetDraws := rfl

/-! `State.setMem` -/

@[simp] theorem State.setMem_cfg (s : State) (m : Memory) : (s.setMem m).cfg = s.cfg := rfl
@[simp] theorem State.setMem_cmd (s : State) (m : Memory) : (s.setMem m).cmd = s.cmd := rfl
@[simp] theorem State.setMem_status (s : State) (m : Memory) : (s.setMem m).status = s.status := rfl
@[simp] theorem State.setMem_srcAddr (s : State) (m : Memory) : (s.setMem m).srcAddr = s.srcAddr := rfl
@[simp] theorem State.setMem_srcLen (s : State) (m : Memory) : (s.setMem m).srcLen = s.srcLen := rfl
@[simp] theorem State.setMem_dstAddr (s : State) (m : Memory) : (s.setMem m).dstAddr = s.dstAddr := rfl
@[simp] theorem State.setMem_dstCap (s : State) (m : Memory) : (s.setMem m).dstCap = s.dstCap := rfl
@[simp] theorem State.setMem_result (s : State) (m : Memory) : (s.setMem m).result = s.result := rfl
@[simp] theorem State.setMem_unitIn (s : State) (m : Memory) : (s.setMem m).unitIn = s.unitIn := rfl
@[simp] theorem State.setMem_unitOut (s : State) (m : Memory) : (s.setMem m).unitOut = s.unitOut := rfl
@[simp] theorem State.setMem_sym0 (s : State) (m : Memory) : (s.setMem m).sym0 = s.sym0 := rfl
@[simp] theorem State.setMem_sym1 (s : State) (m : Memory) : (s.setMem m).sym1 = s.sym1 := rfl
@[simp] theorem State.setMem_sym2 (s : State) (m : Memory) : (s.setMem m).sym2 = s.sym2 := rfl
@[simp] theorem State.setMem_sym3 (s : State) (m : Memory) : (s.setMem m).sym3 = s.sym3 := rfl
@[simp] theorem State.setMem_enc (s : State) (m : Memory) : (s.setMem m).enc = s.enc := rfl
@[simp] theorem State.setMem_dec (s : State) (m : Memory) : (s.setMem m).dec = s.dec := rfl
@[simp] theorem State.setMem_mem (s : State) (m : Memory) : (s.setMem m).mem = m := rfl
@[simp] theorem State.setMem_inputs (s : State) (m : Memory) : (s.setMem m).inputs = s.inputs := rfl
@[simp] theorem State.setMem_hostRead (s : State) (m : Memory) : (s.setMem m).hostRead = s.hostRead := rfl
@[simp] theorem State.setMem_resetDraws (s : State) (m : Memory) : (s.setMem m).resetDraws = s.resetDraws := rfl

/-! `State.storeDst` -/

@[simp] theorem State.storeDst_cfg (s : State) (bs : List Byte) : (s.storeDst bs).cfg = s.cfg := rfl
@[simp] theorem State.storeDst_cmd (s : State) (bs : List Byte) : (s.storeDst bs).cmd = s.cmd := rfl
@[simp] theorem State.storeDst_status (s : State) (bs : List Byte) : (s.storeDst bs).status = s.status := rfl
@[simp] theorem State.storeDst_srcAddr (s : State) (bs : List Byte) : (s.storeDst bs).srcAddr = s.srcAddr := rfl
@[simp] theorem State.storeDst_srcLen (s : State) (bs : List Byte) : (s.storeDst bs).srcLen = s.srcLen := rfl
@[simp] theorem State.storeDst_dstAddr (s : State) (bs : List Byte) : (s.storeDst bs).dstAddr = s.dstAddr := rfl
@[simp] theorem State.storeDst_dstCap (s : State) (bs : List Byte) : (s.storeDst bs).dstCap = s.dstCap := rfl
@[simp] theorem State.storeDst_result (s : State) (bs : List Byte) : (s.storeDst bs).result = s.result := rfl
@[simp] theorem State.storeDst_unitIn (s : State) (bs : List Byte) : (s.storeDst bs).unitIn = s.unitIn := rfl
@[simp] theorem State.storeDst_unitOut (s : State) (bs : List Byte) : (s.storeDst bs).unitOut = s.unitOut := rfl
@[simp] theorem State.storeDst_sym0 (s : State) (bs : List Byte) : (s.storeDst bs).sym0 = s.sym0 := rfl
@[simp] theorem State.storeDst_sym1 (s : State) (bs : List Byte) : (s.storeDst bs).sym1 = s.sym1 := rfl
@[simp] theorem State.storeDst_sym2 (s : State) (bs : List Byte) : (s.storeDst bs).sym2 = s.sym2 := rfl
@[simp] theorem State.storeDst_sym3 (s : State) (bs : List Byte) : (s.storeDst bs).sym3 = s.sym3 := rfl
@[simp] theorem State.storeDst_enc (s : State) (bs : List Byte) : (s.storeDst bs).enc = s.enc := rfl
@[simp] theorem State.storeDst_dec (s : State) (bs : List Byte) : (s.storeDst bs).dec = s.dec := rfl
@[simp] theorem State.storeDst_mem (s : State) (bs : List Byte) : (s.storeDst bs).mem = s.mem.writeBytes s.dstAddr.toNat bs := rfl
@[simp] theorem State.storeDst_inputs (s : State) (bs : List Byte) : (s.storeDst bs).inputs = s.inputs := rfl
@[simp] theorem State.storeDst_hostRead (s : State) (bs : List Byte) : (s.storeDst bs).hostRead = s.hostRead := rfl
@[simp] theorem State.storeDst_resetDraws (s : State) (bs : List Byte) : (s.storeDst bs).resetDraws = s.resetDraws := rfl

/-! `State.failDecode` -/

@[simp] theorem State.failDecode_cfg (s : State) (k n : Nat) (e : ErrCode) : (s.failDecode k n e).cfg = s.cfg := rfl
@[simp] theorem State.failDecode_cmd (s : State) (k n : Nat) (e : ErrCode) : (s.failDecode k n e).cmd = s.cmd := rfl
@[simp] theorem State.failDecode_status (s : State) (k n : Nat) (e : ErrCode) : (s.failDecode k n e).status = { busy := false, err := e, hz := s.status.hz } := rfl
@[simp] theorem State.failDecode_srcAddr (s : State) (k n : Nat) (e : ErrCode) : (s.failDecode k n e).srcAddr = s.srcAddr := rfl
@[simp] theorem State.failDecode_srcLen (s : State) (k n : Nat) (e : ErrCode) : (s.failDecode k n e).srcLen = s.srcLen := rfl
@[simp] theorem State.failDecode_dstAddr (s : State) (k n : Nat) (e : ErrCode) : (s.failDecode k n e).dstAddr = s.dstAddr := rfl
@[simp] theorem State.failDecode_dstCap (s : State) (k n : Nat) (e : ErrCode) : (s.failDecode k n e).dstCap = s.dstCap := rfl
@[simp] theorem State.failDecode_result (s : State) (k n : Nat) (e : ErrCode) : (s.failDecode k n e).result = BitVec.ofNat 32 n := rfl
@[simp] theorem State.failDecode_unitIn (s : State) (k n : Nat) (e : ErrCode) : (s.failDecode k n e).unitIn = s.unitIn := rfl
@[simp] theorem State.failDecode_unitOut (s : State) (k n : Nat) (e : ErrCode) : (s.failDecode k n e).unitOut = s.unitOut := rfl
@[simp] theorem State.failDecode_sym0 (s : State) (k n : Nat) (e : ErrCode) : (s.failDecode k n e).sym0 = s.sym0 := rfl
@[simp] theorem State.failDecode_sym1 (s : State) (k n : Nat) (e : ErrCode) : (s.failDecode k n e).sym1 = s.sym1 := rfl
@[simp] theorem State.failDecode_sym2 (s : State) (k n : Nat) (e : ErrCode) : (s.failDecode k n e).sym2 = s.sym2 := rfl
@[simp] theorem State.failDecode_sym3 (s : State) (k n : Nat) (e : ErrCode) : (s.failDecode k n e).sym3 = s.sym3 := rfl
@[simp] theorem State.failDecode_enc (s : State) (k n : Nat) (e : ErrCode) : (s.failDecode k n e).enc = s.enc := rfl
@[simp] theorem State.failDecode_dec (s : State) (k n : Nat) (e : ErrCode) : (s.failDecode k n e).dec = s.dec.set k (DecCtx.empty .failed) := rfl
@[simp] theorem State.failDecode_mem (s : State) (k n : Nat) (e : ErrCode) : (s.failDecode k n e).mem = s.mem := rfl
@[simp] theorem State.failDecode_inputs (s : State) (k n : Nat) (e : ErrCode) : (s.failDecode k n e).inputs = s.inputs := rfl
@[simp] theorem State.failDecode_hostRead (s : State) (k n : Nat) (e : ErrCode) : (s.failDecode k n e).hostRead = s.hostRead := rfl
@[simp] theorem State.failDecode_resetDraws (s : State) (k n : Nat) (e : ErrCode) : (s.failDecode k n e).resetDraws = s.resetDraws := rfl

/-! `State.setGroup` -/

@[simp] theorem State.setGroup_cfg (s : State) (g : Group) : (s.setGroup g).cfg = s.cfg := rfl
@[simp] theorem State.setGroup_cmd (s : State) (g : Group) : (s.setGroup g).cmd = s.cmd := rfl
@[simp] theorem State.setGroup_status (s : State) (g : Group) : (s.setGroup g).status = s.status := rfl
@[simp] theorem State.setGroup_srcAddr (s : State) (g : Group) : (s.setGroup g).srcAddr = s.srcAddr := rfl
@[simp] theorem State.setGroup_srcLen (s : State) (g : Group) : (s.setGroup g).srcLen = s.srcLen := rfl
@[simp] theorem State.setGroup_dstAddr (s : State) (g : Group) : (s.setGroup g).dstAddr = s.dstAddr := rfl
@[simp] theorem State.setGroup_dstCap (s : State) (g : Group) : (s.setGroup g).dstCap = s.dstCap := rfl
@[simp] theorem State.setGroup_result (s : State) (g : Group) : (s.setGroup g).result = s.result := rfl
@[simp] theorem State.setGroup_unitIn (s : State) (g : Group) : (s.setGroup g).unitIn = s.unitIn := rfl
@[simp] theorem State.setGroup_unitOut (s : State) (g : Group) : (s.setGroup g).unitOut = s.unitOut := rfl
@[simp] theorem State.setGroup_sym0 (s : State) (g : Group) : (s.setGroup g).sym0 = clipSym s.cfg.symW g.s0 := rfl
@[simp] theorem State.setGroup_sym1 (s : State) (g : Group) : (s.setGroup g).sym1 = clipSym s.cfg.symW g.s1 := rfl
@[simp] theorem State.setGroup_sym2 (s : State) (g : Group) : (s.setGroup g).sym2 = clipSym s.cfg.symW g.s2 := rfl
@[simp] theorem State.setGroup_sym3 (s : State) (g : Group) : (s.setGroup g).sym3 = clipSym s.cfg.symW g.s3 := rfl
@[simp] theorem State.setGroup_enc (s : State) (g : Group) : (s.setGroup g).enc = s.enc := rfl
@[simp] theorem State.setGroup_dec (s : State) (g : Group) : (s.setGroup g).dec = s.dec := rfl
@[simp] theorem State.setGroup_mem (s : State) (g : Group) : (s.setGroup g).mem = s.mem := rfl
@[simp] theorem State.setGroup_inputs (s : State) (g : Group) : (s.setGroup g).inputs = s.inputs := rfl
@[simp] theorem State.setGroup_hostRead (s : State) (g : Group) : (s.setGroup g).hostRead = s.hostRead := rfl
@[simp] theorem State.setGroup_resetDraws (s : State) (g : Group) : (s.setGroup g).resetDraws = s.resetDraws := rfl

/-! `State.setTail` -/

@[simp] theorem State.setTail_cfg (s : State) (t : Tail) : (s.setTail t).cfg = s.cfg := rfl
@[simp] theorem State.setTail_cmd (s : State) (t : Tail) : (s.setTail t).cmd = s.cmd := rfl
@[simp] theorem State.setTail_status (s : State) (t : Tail) : (s.setTail t).status = s.status := rfl
@[simp] theorem State.setTail_srcAddr (s : State) (t : Tail) : (s.setTail t).srcAddr = s.srcAddr := rfl
@[simp] theorem State.setTail_srcLen (s : State) (t : Tail) : (s.setTail t).srcLen = s.srcLen := rfl
@[simp] theorem State.setTail_dstAddr (s : State) (t : Tail) : (s.setTail t).dstAddr = s.dstAddr := rfl
@[simp] theorem State.setTail_dstCap (s : State) (t : Tail) : (s.setTail t).dstCap = s.dstCap := rfl
@[simp] theorem State.setTail_result (s : State) (t : Tail) : (s.setTail t).result = s.result := rfl
@[simp] theorem State.setTail_unitIn (s : State) (t : Tail) : (s.setTail t).unitIn = s.unitIn := rfl
@[simp] theorem State.setTail_unitOut (s : State) (t : Tail) : (s.setTail t).unitOut = s.unitOut := rfl
@[simp] theorem State.setTail_sym0 (s : State) (t : Tail) : (s.setTail t).sym0 = clipSym s.cfg.symW t.s0 := rfl
@[simp] theorem State.setTail_sym1 (s : State) (t : Tail) : (s.setTail t).sym1 = clipSym s.cfg.symW t.s1 := rfl
@[simp] theorem State.setTail_sym2 (s : State) (t : Tail) : (s.setTail t).sym2 = s.sym2 := rfl
@[simp] theorem State.setTail_sym3 (s : State) (t : Tail) : (s.setTail t).sym3 = s.sym3 := rfl
@[simp] theorem State.setTail_enc (s : State) (t : Tail) : (s.setTail t).enc = s.enc := rfl
@[simp] theorem State.setTail_dec (s : State) (t : Tail) : (s.setTail t).dec = s.dec := rfl
@[simp] theorem State.setTail_mem (s : State) (t : Tail) : (s.setTail t).mem = s.mem := rfl
@[simp] theorem State.setTail_inputs (s : State) (t : Tail) : (s.setTail t).inputs = s.inputs := rfl
@[simp] theorem State.setTail_hostRead (s : State) (t : Tail) : (s.setTail t).hostRead = s.hostRead := rfl
@[simp] theorem State.setTail_resetDraws (s : State) (t : Tail) : (s.setTail t).resetDraws = s.resetDraws := rfl

/-! `State.accept` -/

@[simp] theorem State.accept_cfg (s : State) (w : Word) : (s.accept w).cfg = s.cfg := rfl
@[simp] theorem State.accept_cmd (s : State) (w : Word) : (s.accept w).cmd = w := rfl
@[simp] theorem State.accept_status (s : State) (w : Word) : (s.accept w).status = { busy := true, err := .noError, hz := false } := rfl
@[simp] theorem State.accept_srcAddr (s : State) (w : Word) : (s.accept w).srcAddr = s.srcAddr := rfl
@[simp] theorem State.accept_srcLen (s : State) (w : Word) : (s.accept w).srcLen = s.srcLen := rfl
@[simp] theorem State.accept_dstAddr (s : State) (w : Word) : (s.accept w).dstAddr = s.dstAddr := rfl
@[simp] theorem State.accept_dstCap (s : State) (w : Word) : (s.accept w).dstCap = s.dstCap := rfl
@[simp] theorem State.accept_result (s : State) (w : Word) : (s.accept w).result = s.result := rfl
@[simp] theorem State.accept_unitIn (s : State) (w : Word) : (s.accept w).unitIn = s.unitIn := rfl
@[simp] theorem State.accept_unitOut (s : State) (w : Word) : (s.accept w).unitOut = s.unitOut := rfl
@[simp] theorem State.accept_sym0 (s : State) (w : Word) : (s.accept w).sym0 = s.sym0 := rfl
@[simp] theorem State.accept_sym1 (s : State) (w : Word) : (s.accept w).sym1 = s.sym1 := rfl
@[simp] theorem State.accept_sym2 (s : State) (w : Word) : (s.accept w).sym2 = s.sym2 := rfl
@[simp] theorem State.accept_sym3 (s : State) (w : Word) : (s.accept w).sym3 = s.sym3 := rfl
@[simp] theorem State.accept_enc (s : State) (w : Word) : (s.accept w).enc = s.enc := rfl
@[simp] theorem State.accept_dec (s : State) (w : Word) : (s.accept w).dec = s.dec := rfl
@[simp] theorem State.accept_mem (s : State) (w : Word) : (s.accept w).mem = s.mem := rfl
@[simp] theorem State.accept_inputs (s : State) (w : Word) : (s.accept w).inputs = s.inputs := rfl
@[simp] theorem State.accept_hostRead (s : State) (w : Word) : (s.accept w).hostRead = s.hostRead := rfl
@[simp] theorem State.accept_resetDraws (s : State) (w : Word) : (s.accept w).resetDraws = s.resetDraws := rfl

/-! `State.markHz` -/

@[simp] theorem State.markHz_cfg (s : State) : (s.markHz).cfg = s.cfg := rfl
@[simp] theorem State.markHz_cmd (s : State) : (s.markHz).cmd = s.cmd := rfl
@[simp] theorem State.markHz_status (s : State) : (s.markHz).status = { busy := s.status.busy, err := s.status.err, hz := true } := rfl
@[simp] theorem State.markHz_srcAddr (s : State) : (s.markHz).srcAddr = s.srcAddr := rfl
@[simp] theorem State.markHz_srcLen (s : State) : (s.markHz).srcLen = s.srcLen := rfl
@[simp] theorem State.markHz_dstAddr (s : State) : (s.markHz).dstAddr = s.dstAddr := rfl
@[simp] theorem State.markHz_dstCap (s : State) : (s.markHz).dstCap = s.dstCap := rfl
@[simp] theorem State.markHz_result (s : State) : (s.markHz).result = s.result := rfl
@[simp] theorem State.markHz_unitIn (s : State) : (s.markHz).unitIn = s.unitIn := rfl
@[simp] theorem State.markHz_unitOut (s : State) : (s.markHz).unitOut = s.unitOut := rfl
@[simp] theorem State.markHz_sym0 (s : State) : (s.markHz).sym0 = s.sym0 := rfl
@[simp] theorem State.markHz_sym1 (s : State) : (s.markHz).sym1 = s.sym1 := rfl
@[simp] theorem State.markHz_sym2 (s : State) : (s.markHz).sym2 = s.sym2 := rfl
@[simp] theorem State.markHz_sym3 (s : State) : (s.markHz).sym3 = s.sym3 := rfl
@[simp] theorem State.markHz_enc (s : State) : (s.markHz).enc = s.enc := rfl
@[simp] theorem State.markHz_dec (s : State) : (s.markHz).dec = s.dec := rfl
@[simp] theorem State.markHz_mem (s : State) : (s.markHz).mem = s.mem := rfl
@[simp] theorem State.markHz_inputs (s : State) : (s.markHz).inputs = s.inputs := rfl
@[simp] theorem State.markHz_hostRead (s : State) : (s.markHz).hostRead = s.hostRead := rfl
@[simp] theorem State.markHz_resetDraws (s : State) : (s.markHz).resetDraws = s.resetDraws := rfl

/-! `State.resetBlock` -/

@[simp] theorem State.resetBlock_cfg (s : State) : (s.resetBlock).cfg = s.cfg := rfl
@[simp] theorem State.resetBlock_cmd (s : State) : (s.resetBlock).cmd = 0 := rfl
@[simp] theorem State.resetBlock_status (s : State) : (s.resetBlock).status = { busy := false, err := .noError, hz := false } := rfl
@[simp] theorem State.resetBlock_srcAddr (s : State) : (s.resetBlock).srcAddr = 0 := rfl
@[simp] theorem State.resetBlock_srcLen (s : State) : (s.resetBlock).srcLen = 0 := rfl
@[simp] theorem State.resetBlock_dstAddr (s : State) : (s.resetBlock).dstAddr = 0 := rfl
@[simp] theorem State.resetBlock_dstCap (s : State) : (s.resetBlock).dstCap = 0 := rfl
@[simp] theorem State.resetBlock_result (s : State) : (s.resetBlock).result = 0 := rfl
@[simp] theorem State.resetBlock_unitIn (s : State) : (s.resetBlock).unitIn = 0 := rfl
@[simp] theorem State.resetBlock_unitOut (s : State) : (s.resetBlock).unitOut = 0 := rfl
@[simp] theorem State.resetBlock_sym0 (s : State) : (s.resetBlock).sym0 = 0 := rfl
@[simp] theorem State.resetBlock_sym1 (s : State) : (s.resetBlock).sym1 = 0 := rfl
@[simp] theorem State.resetBlock_sym2 (s : State) : (s.resetBlock).sym2 = 0 := rfl
@[simp] theorem State.resetBlock_sym3 (s : State) : (s.resetBlock).sym3 = 0 := rfl
@[simp] theorem State.resetBlock_enc (s : State) : (s.resetBlock).enc = List.replicate s.cfg.nctx EncCtx.reset := rfl
@[simp] theorem State.resetBlock_dec (s : State) : (s.resetBlock).dec = List.replicate s.cfg.nctx DecCtx.reset := rfl
@[simp] theorem State.resetBlock_mem (s : State) : (s.resetBlock).mem = s.mem := rfl
@[simp] theorem State.resetBlock_inputs (s : State) : (s.resetBlock).inputs = s.inputs := rfl
@[simp] theorem State.resetBlock_hostRead (s : State) : (s.resetBlock).hostRead = s.hostRead := rfl
@[simp] theorem State.resetBlock_resetDraws (s : State) : (s.resetBlock).resetDraws = s.resetDraws := rfl

end Sys2Proof.Machine
end

