-- ==== Sys2Proof/Laws/Completion.lean ====
section
/-! SUPPORT. Everything the shared operations of the commands can do: on a context, when ready, on granules, and
the effects behind them. -/

namespace Sys2Proof.Machine

/-- A context command answers a next state: illegal without the context, its body with it. -/
theorem State.onContext_eq (s : State) (k : BitVec 4) (f : State → State) :
    (k.toNat < s.cfg.nctx ∧ s.onContext k f = .next (f s)) ∨
    (s.cfg.nctx ≤ k.toNat ∧ s.onContext k f = .next s.illegal) := by
  unfold State.onContext
  by_cases h : k.toNat < s.cfg.nctx
  · exact .inl ⟨h, if_pos h⟩
  · exact .inr ⟨Nat.le_of_not_lt h, if_neg h⟩

theorem State.onContext_of_lt {s : State} {k : BitVec 4} (h : k.toNat < s.cfg.nctx) (f : State → State) :
    s.onContext k f = .next (f s) := if_pos h

/-- A FEED or FINAL is one of three: BAD_STATE, a `MemCheck` failure, or its body. -/
theorem State.whenReady_cases (s : State) (p : Phase) (w : Windows) (f : State → State) :
    (p ≠ .opened ∧ s.whenReady p w f = s.failMem .badState) ∨
    (p = .opened ∧ ∃ e, s.memCheck w = some e ∧ s.whenReady p w f = s.failMem e) ∨
    (p = .opened ∧ s.memCheck w = none ∧ s.whenReady p w f = f s) := by
  unfold State.whenReady
  by_cases hp : p = .opened
  · rw [if_pos hp]
    cases hm : s.memCheck w with
    | none => exact .inr (.inr ⟨hp, rfl, rfl⟩)
    | some e => exact .inr (.inl ⟨hp, e, rfl, rfl⟩)
  · exact .inl ⟨hp, if_neg hp⟩

theorem State.whenReady_of_ready {s : State} {p : Phase} {w : Windows} (hp : p = .opened)
    (hm : s.memCheck w = none) (f : State → State) : s.whenReady p w f = f s := by
  simp [State.whenReady, hp, hm]

/-- A vector command is one of four: illegal, BAD_OPERAND, a `MemCheck` failure, or its body. -/
theorem State.onGranules_cases (s : State) (n : Nat) (w : Windows) (f : State → State) :
    (s.cfg.hasVec = false ∧ s.onGranules n w f = .next s.illegal) ∨
    (s.cfg.hasVec = true ∧ s.srcLen.toNat % n ≠ 0 ∧ s.onGranules n w f = .next (s.failMem .badOperand)) ∨
    (s.cfg.hasVec = true ∧ s.srcLen.toNat % n = 0 ∧
      ∃ e, s.memCheck w = some e ∧ s.onGranules n w f = .next (s.failMem e)) ∨
    (s.cfg.hasVec = true ∧ s.srcLen.toNat % n = 0 ∧ s.memCheck w = none ∧
      s.onGranules n w f = .next (f s)) := by
  unfold State.onGranules
  cases hv : s.cfg.hasVec with
  | false => exact .inl ⟨rfl, rfl⟩
  | true =>
    by_cases hn : s.srcLen.toNat % n = 0
    · rw [if_pos rfl, if_neg (by simpa using hn)]
      cases hm : s.memCheck w with
      | some e => exact .inr (.inr (.inl ⟨rfl, hn, e, rfl, rfl⟩))
      | none => exact .inr (.inr (.inr ⟨rfl, hn, rfl, rfl⟩))
    · exact .inr (.inl ⟨rfl, hn, by rw [if_pos rfl, if_pos hn]⟩)

/-! ## Context files -/

theorem State.encAt_setEnc (s : State) (k j : Nat) (c : EncCtx) :
    (s.setEnc k c).encAt j = if k = j ∧ j < s.enc.length then c else s.encAt j := by
  simp only [State.encAt, State.setEnc, List.getD_eq_getElem?_getD, List.getElem?_set]
  by_cases h : k = j
  · subst h
    by_cases hl : k < s.enc.length
    · simp [hl]
    · simp [hl]
  · simp [h]

theorem State.decAt_setDec (s : State) (k j : Nat) (c : DecCtx) :
    (s.setDec k c).decAt j = if k = j ∧ j < s.dec.length then c else s.decAt j := by
  simp only [State.decAt, State.setDec, List.getD_eq_getElem?_getD, List.getElem?_set]
  by_cases h : k = j
  · subst h
    by_cases hl : k < s.dec.length
    · simp [hl]
    · simp [hl]
  · simp [h]

theorem State.encAt_mem {s : State} {k : Nat} (h : k < s.enc.length) : s.encAt k ∈ s.enc := by
  unfold State.encAt
  rw [List.getD_eq_getElem?_getD, List.getElem?_eq_getElem h]
  exact List.getElem_mem h

theorem State.decAt_mem {s : State} {k : Nat} (h : k < s.dec.length) : s.decAt k ∈ s.dec := by
  unfold State.decAt
  rw [List.getD_eq_getElem?_getD, List.getElem?_eq_getElem h]
  exact List.getElem_mem h

/-! ## How much each effect stores -/

theorem EncCtx.carry_length (c : EncCtx) : c.carry.length = c.pending := by
  unfold EncCtx.carry EncCtx.pending
  split <;> rfl

theorem DecCtx.buffer_length (d : DecCtx) : d.buffer.length = d.count.val := by
  have := d.count.isLt
  simp only [DecCtx.buffer, List.length_take, List.length_cons, List.length_nil]
  omega

theorem State.srcBytes_length (s : State) : s.srcBytes.length = s.srcLen.toNat := by simp [State.srcBytes]

theorem State.srcSyms_length (s : State) : s.srcSyms.length = s.srcLen.toNat := by simp [State.srcSyms]

/-- ENC_FEED stores exactly the bytes of its destination window (20_memory R87). -/
theorem encFeed_stores (s : State) (k : Nat) :
    (symBytes s.cfg.es (encPairs s.cfg.alphabet ((s.encAt k).carry ++ s.srcBytes))).length
      = (encFeedWindows s k).dst.bytes := by
  rw [symBytes_length, encPairs_length, List.length_append, EncCtx.carry_length, State.srcBytes_length]
  exact Nat.mul_comm _ _

/-- VENC stores exactly the bytes of its destination window (20_memory R87). -/
theorem venc_stores (s : State) (h : s.srcLen.toNat % 32 = 0) :
    (symBytes s.cfg.es (vencGranules s.cfg.alphabet (s.srcLen.toNat / 32) s.srcBytes)).length
      = (vencWindows s).dst.bytes := by
  rw [symBytes_length, vencGranules_length _ _ _ (by rw [State.srcBytes_length]; omega)]
  show s.cfg.es * (64 * (s.srcLen.toNat / 32)) = 2 * s.srcLen.toNat * s.cfg.es
  rw [show 2 * s.srcLen.toNat = 64 * (s.srcLen.toNat / 32) by omega, Nat.mul_comm]

/-- DEC_FEED stores no more than its destination window (20_memory R87). -/
theorem decFeed_stores_le (s : State) (k : Nat) :
    (decGroups s.cfg.alphabet ((s.decAt k).buffer ++ s.srcSyms)).1.length ≤ (decFeedWindows s k).dst.bytes := by
  refine Nat.le_trans (decGroups_length_le _ _) ?_
  rw [List.length_append, DecCtx.buffer_length, State.srcSyms_length]
  exact Nat.le_of_eq (Nat.mul_one _).symm

/-- VDEC stores no more than its destination window (20_memory R87). -/
theorem vdec_stores_le (s : State) (h : s.srcLen.toNat % 64 = 0) :
    (vdecGranules s.cfg.alphabet (s.srcLen.toNat / 64) s.srcSyms).1.length ≤ (vdecWindows s).dst.bytes := by
  refine Nat.le_trans (vdecGranules_length_le _ _ _) ?_
  show 32 * (s.srcLen.toNat / 64) ≤ s.srcLen.toNat / 2 * 1
  omega

end Sys2Proof.Machine
end

