-- ==== Sys2Proof/Laws/Commands.lean ====
section
/-! SUPPORT. Everything each command can do, one lemma per command: the outcomes of `exec`, with the conditions
under which each comes. -/

namespace Sys2Proof.Machine

/-- An illegal command only reports (30_encoding R126). -/
theorem State.illegal_eq (s : State) : s.illegal = { s with status := statusAfter s .illegalCmd } := rfl

/-- A command that fails its checks writes `RESULT` and the code (20_memory R89). -/
theorem State.failMem_eq (s : State) (e : ErrCode) :
    s.failMem e = { s with result := 0, status := statusAfter s e } := rfl

theorem exec_encInit_cases (k : BitVec 4) (s : State) :
    (k.toNat < s.cfg.nctx ∧
      exec (.encInit k) s = .next ((s.setEnc k.toNat (EncCtx.empty .opened)).finish .noError)) ∨
    (s.cfg.nctx ≤ k.toNat ∧ exec (.encInit k) s = .next s.illegal) := by
  simp only [exec, execEncInit]
  exact State.onContext_eq s k _

theorem exec_decInit_cases (k : BitVec 4) (s : State) :
    (k.toNat < s.cfg.nctx ∧
      exec (.decInit k) s = .next ((s.setDec k.toNat (DecCtx.empty .opened)).finish .noError)) ∨
    (s.cfg.nctx ≤ k.toNat ∧ exec (.decInit k) s = .next s.illegal) := by
  simp only [exec, execDecInit]
  exact State.onContext_eq s k _

/-- A FEED or FINAL on a context is one of four. -/
theorem State.onReadyContext_cases (s : State) (k : BitVec 4) (p : State → Phase) (w : State → Windows)
    (f : State → State) :
    (s.cfg.nctx ≤ k.toNat ∧ s.onContext k (fun s => s.whenReady (p s) (w s) f) = .next s.illegal) ∨
    (k.toNat < s.cfg.nctx ∧ p s ≠ .opened ∧
      s.onContext k (fun s => s.whenReady (p s) (w s) f) = .next (s.failMem .badState)) ∨
    (k.toNat < s.cfg.nctx ∧ p s = .opened ∧ ∃ e, s.memCheck (w s) = some e ∧
      s.onContext k (fun s => s.whenReady (p s) (w s) f) = .next (s.failMem e)) ∨
    (k.toNat < s.cfg.nctx ∧ p s = .opened ∧ s.memCheck (w s) = none ∧
      s.onContext k (fun s => s.whenReady (p s) (w s) f) = .next (f s)) := by
  rcases State.onContext_eq s k (fun s => s.whenReady (p s) (w s) f) with ⟨hk, h⟩ | h
  · rw [h]
    rcases State.whenReady_cases s (p s) (w s) f with ⟨hp, h⟩ | ⟨hp, e, he, h⟩ | ⟨hp, hm, h⟩
    · exact .inr (.inl ⟨hk, hp, congrArg _ h⟩)
    · exact .inr (.inr (.inl ⟨hk, hp, e, he, congrArg _ h⟩))
    · exact .inr (.inr (.inr ⟨hk, hp, hm, congrArg _ h⟩))
  · exact .inl h

theorem exec_encFeed_cases (k : BitVec 4) (s : State) :
    (s.cfg.nctx ≤ k.toNat ∧ exec (.encFeed k) s = .next s.illegal) ∨
    (k.toNat < s.cfg.nctx ∧ (s.encAt k.toNat).phase ≠ .opened ∧
      exec (.encFeed k) s = .next (s.failMem .badState)) ∨
    (k.toNat < s.cfg.nctx ∧ (s.encAt k.toNat).phase = .opened ∧
      ∃ e, s.memCheck (encFeedWindows s k.toNat) = some e ∧ exec (.encFeed k) s = .next (s.failMem e)) ∨
    (k.toNat < s.cfg.nctx ∧ (s.encAt k.toNat).phase = .opened ∧
      s.memCheck (encFeedWindows s k.toNat) = none ∧
      exec (.encFeed k) s = .next (encFeedBody k.toNat s)) := by
  simp only [exec, execEncFeed]
  exact State.onReadyContext_cases s k (fun s => (s.encAt k.toNat).phase) (fun s => encFeedWindows s k.toNat) _

theorem exec_encFinal_cases (k : BitVec 4) (s : State) :
    (s.cfg.nctx ≤ k.toNat ∧ exec (.encFinal k) s = .next s.illegal) ∨
    (k.toNat < s.cfg.nctx ∧ (s.encAt k.toNat).phase ≠ .opened ∧
      exec (.encFinal k) s = .next (s.failMem .badState)) ∨
    (k.toNat < s.cfg.nctx ∧ (s.encAt k.toNat).phase = .opened ∧
      ∃ e, s.memCheck (encFinalWindows s k.toNat) = some e ∧ exec (.encFinal k) s = .next (s.failMem e)) ∨
    (k.toNat < s.cfg.nctx ∧ (s.encAt k.toNat).phase = .opened ∧
      s.memCheck (encFinalWindows s k.toNat) = none ∧
      exec (.encFinal k) s = .next (encFinalBody k.toNat s)) := by
  simp only [exec, execEncFinal]
  exact State.onReadyContext_cases s k (fun s => (s.encAt k.toNat).phase) (fun s => encFinalWindows s k.toNat) _

theorem exec_decFeed_cases (k : BitVec 4) (s : State) :
    (s.cfg.nctx ≤ k.toNat ∧ exec (.decFeed k) s = .next s.illegal) ∨
    (k.toNat < s.cfg.nctx ∧ (s.decAt k.toNat).phase ≠ .opened ∧
      exec (.decFeed k) s = .next (s.failMem .badState)) ∨
    (k.toNat < s.cfg.nctx ∧ (s.decAt k.toNat).phase = .opened ∧
      ∃ e, s.memCheck (decFeedWindows s k.toNat) = some e ∧ exec (.decFeed k) s = .next (s.failMem e)) ∨
    (k.toNat < s.cfg.nctx ∧ (s.decAt k.toNat).phase = .opened ∧
      s.memCheck (decFeedWindows s k.toNat) = none ∧
      exec (.decFeed k) s = .next (decFeedBody k.toNat s)) := by
  simp only [exec, execDecFeed]
  exact State.onReadyContext_cases s k (fun s => (s.decAt k.toNat).phase) (fun s => decFeedWindows s k.toNat) _

theorem exec_decFinal_cases (k : BitVec 4) (s : State) :
    (s.cfg.nctx ≤ k.toNat ∧ exec (.decFinal k) s = .next s.illegal) ∨
    (k.toNat < s.cfg.nctx ∧ (s.decAt k.toNat).phase ≠ .opened ∧
      exec (.decFinal k) s = .next (s.failMem .badState)) ∨
    (k.toNat < s.cfg.nctx ∧ (s.decAt k.toNat).phase = .opened ∧
      ∃ e, s.memCheck (decFinalWindows s k.toNat) = some e ∧ exec (.decFinal k) s = .next (s.failMem e)) ∨
    (k.toNat < s.cfg.nctx ∧ (s.decAt k.toNat).phase = .opened ∧
      s.memCheck (decFinalWindows s k.toNat) = none ∧
      exec (.decFinal k) s = .next (decFinalBody k.toNat s)) := by
  simp only [exec, execDecFinal]
  exact State.onReadyContext_cases s k (fun s => (s.decAt k.toNat).phase) (fun s => decFinalWindows s k.toNat) _

theorem exec_venc_cases (s : State) :
    (s.cfg.hasVec = false ∧ exec .venc s = .next s.illegal) ∨
    (s.cfg.hasVec = true ∧ s.srcLen.toNat % 32 ≠ 0 ∧ exec .venc s = .next (s.failMem .badOperand)) ∨
    (s.cfg.hasVec = true ∧ s.srcLen.toNat % 32 = 0 ∧
      ∃ e, s.memCheck (vencWindows s) = some e ∧ exec .venc s = .next (s.failMem e)) ∨
    (s.cfg.hasVec = true ∧ s.srcLen.toNat % 32 = 0 ∧ s.memCheck (vencWindows s) = none ∧
      exec .venc s = .next (vencBody s)) :=
  State.onGranules_cases s 32 _ _

theorem exec_vdec_cases (s : State) :
    (s.cfg.hasVec = false ∧ exec .vdec s = .next s.illegal) ∨
    (s.cfg.hasVec = true ∧ s.srcLen.toNat % 64 ≠ 0 ∧ exec .vdec s = .next (s.failMem .badOperand)) ∨
    (s.cfg.hasVec = true ∧ s.srcLen.toNat % 64 = 0 ∧
      ∃ e, s.memCheck (vdecWindows s) = some e ∧ exec .vdec s = .next (s.failMem e)) ∨
    (s.cfg.hasVec = true ∧ s.srcLen.toNat % 64 = 0 ∧ s.memCheck (vdecWindows s) = none ∧
      exec .vdec s = .next (vdecBody s)) :=
  State.onGranules_cases s 64 _ _

/-! ## The effect of each memory command on the registers -/

theorem encFeedBody_eq (k : Nat) (s : State) : encFeedBody k s = { s with
    mem := s.mem.writeBytes s.dstAddr.toNat
      (symBytes s.cfg.es (encPairs s.cfg.alphabet ((s.encAt k).carry ++ s.srcBytes)))
    enc := s.enc.set k (EncCtx.after ((s.encAt k).carry ++ s.srcBytes))
    result := BitVec.ofNat 32 (encFeedWindows s k).dst.count
    status := statusAfter s .noError } := by
  simp only [encFeedBody, State.storeDst, State.setMem, State.setEnc, State.setResult, State.finish, statusAfter]

theorem encFinalBody_eq (k : Nat) (s : State) : encFinalBody k s = { s with
    mem := s.mem.writeBytes s.dstAddr.toNat (symBytes s.cfg.es
      (if (s.encAt k).cached then (enc1 s.cfg.alphabet (s.encAt k).trailingByte).toList else []))
    enc := s.enc.set k (EncCtx.empty .closed)
    result := BitVec.ofNat 32 (encFinalWindows s k).dst.count
    status := statusAfter s .noError } := by
  simp only [encFinalBody, State.storeDst, State.setMem, State.setEnc, State.setResult, State.finish, statusAfter]

/-- DEC_FEED writes a prefix of its bytes, its own context, `RESULT` and the code (42_streaming R222, R223). -/
theorem decFeedBody_eq (k : Nat) (s : State) :
    let syms := (s.decAt k).buffer ++ s.srcSyms
    let out := decGroups s.cfg.alphabet syms
    decFeedBody k s = { s with
      mem := s.mem.writeBytes s.dstAddr.toNat out.1
      dec := s.dec.set k (match out.2 with
        | some _ => DecCtx.empty .failed
        | none => DecCtx.after syms)
      result := BitVec.ofNat 32 (match out.2 with
        | some _ => out.1.length
        | none => (decFeedWindows s k).dst.count)
      status := statusAfter s (match out.2 with
        | some e => e
        | none => .noError) } := by
  simp only [decFeedBody]
  split <;> rename_i h <;>
    simp only [h, State.failDecode, State.storeDst, State.setMem, State.setDec, State.setResult, State.finish,
      statusAfter]

/-- DEC_FINAL by the number of buffered symbols (42_streaming R227). -/
theorem decFinalBody_cases (k : Nat) (s : State) :
    ((s.decAt k).count.val = 0 ∧ decFinalBody k s = { s with
      dec := s.dec.set k (DecCtx.empty .closed), result := 0, status := statusAfter s .noError }) ∨
    (((s.decAt k).count.val = 1 ∨ (s.decAt k).count.val = 3) ∧ decFinalBody k s = { s with
      dec := s.dec.set k (DecCtx.empty .failed), result := 0, status := statusAfter s .malformedTail }) ∨
    ((s.decAt k).count.val = 2 ∧
      ((∃ e, dec2 s.cfg.alphabet { s0 := (s.decAt k).trail0, s1 := (s.decAt k).trail1 } = .err e ∧
        decFinalBody k s = { s with
          dec := s.dec.set k (DecCtx.empty .failed), result := 0, status := statusAfter s e }) ∨
      (∃ x, dec2 s.cfg.alphabet { s0 := (s.decAt k).trail0, s1 := (s.decAt k).trail1 } = .ok x ∧
        decFinalBody k s = { s with
          mem := s.mem.write s.dstAddr.toNat x
          dec := s.dec.set k (DecCtx.empty .closed), result := 1, status := statusAfter s .noError }))) := by
  have h : ∀ n : Fin 4, n.val = 0 ∨ n.val = 1 ∨ n.val = 2 ∨ n.val = 3 := by decide
  rcases h (s.decAt k).count with hc | hc | hc | hc
  · refine .inl ⟨hc, ?_⟩
    have : (s.decAt k).count = 0 := Fin.ext hc
    simp only [decFinalBody, this]
    rfl
  · refine .inr (.inl ⟨.inl hc, ?_⟩)
    have : (s.decAt k).count = 1 := Fin.ext hc
    simp only [decFinalBody, this]
    rfl
  · refine .inr (.inr ⟨hc, ?_⟩)
    have : (s.decAt k).count = 2 := Fin.ext hc
    simp only [decFinalBody, this]
    cases dec2 s.cfg.alphabet { s0 := (s.decAt k).trail0, s1 := (s.decAt k).trail1 } with
    | err e => exact .inl ⟨e, rfl, rfl⟩
    | ok x => exact .inr ⟨x, rfl, rfl⟩
  · refine .inr (.inl ⟨.inr hc, ?_⟩)
    have : (s.decAt k).count = 3 := Fin.ext hc
    simp only [decFinalBody, this]
    rfl

theorem vencBody_eq (s : State) : vencBody s = { s with
    mem := s.mem.writeBytes s.dstAddr.toNat
      (symBytes s.cfg.es (vencGranules s.cfg.alphabet (s.srcLen.toNat / 32) s.srcBytes))
    result := BitVec.ofNat 32 (2 * s.srcLen.toNat)
    status := statusAfter s .noError } := by
  simp only [vencBody, vencWindows, State.dstSymsWin, State.storeDst, State.setMem, State.setResult, State.finish,
    statusAfter]

/-- VDEC writes the bytes of the granules before the first bad one (43_vector_divider R261, R263). -/
theorem vdecBody_eq (s : State) :
    let out := vdecGranules s.cfg.alphabet (s.srcLen.toNat / 64) s.srcSyms
    vdecBody s = { s with
      mem := s.mem.writeBytes s.dstAddr.toNat out.1
      result := BitVec.ofNat 32 (if out.2 then s.srcLen.toNat / 2 else out.1.length)
      status := statusAfter s (if out.2 then .noError else .granuleFail) } := by
  simp only [vdecBody]
  split <;> rename_i h <;>
    simp [vdecWindows, State.dstBytesWin, State.storeDst, State.setMem, State.setResult, State.finish, statusAfter]

/-! ## All commands at once -/

theorem memCheck_code {s : State} {w : Windows} {e : ErrCode} (h : s.memCheck w = some e) :
    e = .capacity ∨ e = .badBuffer ∨ e = .busError := memCheck_eq_some h

theorem dec4_err_code {a : Alphabet} {g : Group} {e : ErrCode} (h : dec4 a g = .err e) :
    e = .invalidSymbol ∨ e = .outOfRange := by
  simp only [dec4, groupValue] at h
  repeat' split at h
  all_goals cases h <;> simp

theorem dec2_err_code {a : Alphabet} {t : Tail} {e : ErrCode} (h : dec2 a t = .err e) :
    e = .invalidSymbol ∨ e = .outOfRange := by
  simp only [dec2, tailValue] at h
  repeat' split at h
  all_goals cases h <;> simp

theorem decGroups_err_code {a : Alphabet} {t : List Sym} {e : ErrCode} (h : (decGroups a t).2 = some e) :
    e = .invalidSymbol ∨ e = .outOfRange := by
  induction t using decGroups.induct (a := a) with
  | case1 s0 s1 s2 s3 rest c hc =>
    simp only [decGroups, hc, Option.some.injEq] at h
    exact h ▸ dec4_err_code hc
  | case2 s0 s1 s2 s3 rest v hv ih =>
    simp only [decGroups, hv] at h
    exact ih h
  | case3 t ht =>
    unfold decGroups at h
    split at h
    · exact absurd rfl (ht _ _ _ _ _)
    · cases h

/-- What a command can do, all commands together: a property of a command and its next state holds if it holds of
each outcome below. -/
theorem exec_elim (s : State) (P : Instr → State → Prop)
    (illegal : ∀ i, wellFormed s.cfg i = false → P i s.illegal)
    (failMem : ∀ i e, isMemoryCommand i = true → wellFormed s.cfg i = true → e ∈ reportable i →
      e ∈ [ErrCode.badState, .badOperand, .capacity, .badBuffer, .busError] → P i (s.failMem e))
    (fail : ∀ i e, isMemoryCommand i = false → e ∈ reportable i → P i (s.finish e))
    (encInit : ∀ k : BitVec 4, k.toNat < s.cfg.nctx →
      P (.encInit k) ((s.setEnc k.toNat (EncCtx.empty .opened)).finish .noError))
    (decInit : ∀ k : BitVec 4, k.toNat < s.cfg.nctx →
      P (.decInit k) ((s.setDec k.toNat (DecCtx.empty .opened)).finish .noError))
    (encFeed : ∀ k : BitVec 4, k.toNat < s.cfg.nctx → (s.encAt k.toNat).phase = .opened →
      s.memCheck (encFeedWindows s k.toNat) = none → P (.encFeed k) (encFeedBody k.toNat s))
    (encFinal : ∀ k : BitVec 4, k.toNat < s.cfg.nctx → (s.encAt k.toNat).phase = .opened →
      s.memCheck (encFinalWindows s k.toNat) = none → P (.encFinal k) (encFinalBody k.toNat s))
    (decFeed : ∀ k : BitVec 4, k.toNat < s.cfg.nctx → (s.decAt k.toNat).phase = .opened →
      s.memCheck (decFeedWindows s k.toNat) = none → P (.decFeed k) (decFeedBody k.toNat s))
    (decFinal : ∀ k : BitVec 4, k.toNat < s.cfg.nctx → (s.decAt k.toNat).phase = .opened →
      s.memCheck (decFinalWindows s k.toNat) = none → P (.decFinal k) (decFinalBody k.toNat s))
    (uenc2 : ∀ g, P .uenc2 ((s.setGroup g).finish .noError))
    (uenc1 : ∀ t, P .uenc1 ((s.setTail t).finish .noError))
    (unitOut : ∀ i v, (i = .udec4 ∨ i = .udec2 ∨ i = .lutCls ∨ ∃ d, i = .divc d) →
      P i ((s.setUnitOut v).finish .noError))
    (lutSym : ∀ c x, P (.lutSym c) ((s.setSym0 x).finish .noError))
    (venc : s.cfg.hasVec = true → s.srcLen.toNat % 32 = 0 → s.memCheck (vencWindows s) = none →
      P .venc (vencBody s))
    (vdec : s.cfg.hasVec = true → s.srcLen.toNat % 64 = 0 → s.memCheck (vdecWindows s) = none →
      P .vdec (vdecBody s))
    (i : Instr) (t : State) (h : exec i s = .next t) : P i t := by
  have inj : ∀ {x y : State}, (Host.Outcome.next x : Host.Outcome State Fault Refusal) = .next y → x = y :=
    fun h => by cases h; rfl
  cases i with
  | nop => rw [← inj h]; exact fail _ _ rfl (by decide)
  | encInit k =>
    rcases exec_encInit_cases k s with ⟨hk, e⟩ | ⟨hk, e⟩ <;> rw [← inj (e.symm.trans h)]
    · exact encInit k hk
    · exact illegal _ (by simpa [wellFormed] using hk)
  | decInit k =>
    rcases exec_decInit_cases k s with ⟨hk, e⟩ | ⟨hk, e⟩ <;> rw [← inj (e.symm.trans h)]
    · exact decInit k hk
    · exact illegal _ (by simpa [wellFormed] using hk)
  | encFeed k =>
    rcases exec_encFeed_cases k s with ⟨hk, e⟩ | ⟨hk, hp, e⟩ | ⟨hk, hp, c, hc, e⟩ | ⟨hk, hp, hc, e⟩ <;>
      rw [← inj (e.symm.trans h)]
    · exact illegal _ (by simpa [wellFormed] using hk)
    · exact failMem _ _ rfl (by simpa [wellFormed] using hk) (by simp [reportable]) (by simp)
    · rcases memCheck_code hc with rfl | rfl | rfl <;>
        exact failMem _ _ rfl (by simpa [wellFormed] using hk) (by simp [reportable]) (by simp)
    · exact encFeed k hk hp hc
  | encFinal k =>
    rcases exec_encFinal_cases k s with ⟨hk, e⟩ | ⟨hk, hp, e⟩ | ⟨hk, hp, c, hc, e⟩ | ⟨hk, hp, hc, e⟩ <;>
      rw [← inj (e.symm.trans h)]
    · exact illegal _ (by simpa [wellFormed] using hk)
    · exact failMem _ _ rfl (by simpa [wellFormed] using hk) (by simp [reportable]) (by simp)
    · rcases memCheck_code hc with rfl | rfl | rfl <;>
        exact failMem _ _ rfl (by simpa [wellFormed] using hk) (by simp [reportable]) (by simp)
    · exact encFinal k hk hp hc
  | decFeed k =>
    rcases exec_decFeed_cases k s with ⟨hk, e⟩ | ⟨hk, hp, e⟩ | ⟨hk, hp, c, hc, e⟩ | ⟨hk, hp, hc, e⟩ <;>
      rw [← inj (e.symm.trans h)]
    · exact illegal _ (by simpa [wellFormed] using hk)
    · exact failMem _ _ rfl (by simpa [wellFormed] using hk) (by simp [reportable]) (by simp)
    · rcases memCheck_code hc with rfl | rfl | rfl <;>
        exact failMem _ _ rfl (by simpa [wellFormed] using hk) (by simp [reportable]) (by simp)
    · exact decFeed k hk hp hc
  | decFinal k =>
    rcases exec_decFinal_cases k s with ⟨hk, e⟩ | ⟨hk, hp, e⟩ | ⟨hk, hp, c, hc, e⟩ | ⟨hk, hp, hc, e⟩ <;>
      rw [← inj (e.symm.trans h)]
    · exact illegal _ (by simpa [wellFormed] using hk)
    · exact failMem _ _ rfl (by simpa [wellFormed] using hk) (by simp [reportable]) (by simp)
    · rcases memCheck_code hc with rfl | rfl | rfl <;>
        exact failMem _ _ rfl (by simpa [wellFormed] using hk) (by simp [reportable]) (by simp)
    · exact decFinal k hk hp hc
  | uenc2 =>
    simp only [exec, execUenc2] at h
    split at h <;> rw [← inj h]
    · exact fail _ _ rfl (by simp [reportable])
    · exact uenc2 _
  | uenc1 =>
    simp only [exec, execUenc1] at h
    split at h <;> rw [← inj h]
    · exact fail _ _ rfl (by simp [reportable])
    · exact uenc1 _
  | udec4 =>
    simp only [exec, execUdec4] at h
    split at h <;> rename_i he <;> rw [← inj h]
    · rcases dec4_err_code he with rfl | rfl <;> exact fail _ _ rfl (by simp [reportable])
    · exact unitOut _ _ (by simp)
  | udec2 =>
    simp only [exec, execUdec2] at h
    split at h <;> rename_i he <;> rw [← inj h]
    · rcases dec2_err_code he with rfl | rfl <;> exact fail _ _ rfl (by simp [reportable])
    · exact unitOut _ _ (by simp)
  | lutSym c =>
    simp only [exec, execLutSym] at h
    split at h <;> rw [← inj h]
    · exact fail _ _ rfl (by simp [reportable])
    · exact lutSym _ _
  | lutCls =>
    rw [← inj h]
    exact unitOut _ _ (by simp)
  | divc d =>
    simp only [exec, execDivc] at h
    split at h <;> rw [← inj h]
    · exact fail _ _ rfl (by simp [reportable])
    · exact unitOut _ _ (by simp)
  | venc =>
    rcases exec_venc_cases s with ⟨hk, e⟩ | ⟨hk, hp, e⟩ | ⟨hk, hp, c, hc, e⟩ | ⟨hk, hp, hc, e⟩ <;>
      rw [← inj (e.symm.trans h)]
    · exact illegal _ hk
    · exact failMem _ _ rfl hk (by simp [reportable]) (by simp)
    · rcases memCheck_code hc with rfl | rfl | rfl <;> exact failMem _ _ rfl hk (by simp [reportable]) (by simp)
    · exact venc hk hp hc
  | vdec =>
    rcases exec_vdec_cases s with ⟨hk, e⟩ | ⟨hk, hp, e⟩ | ⟨hk, hp, c, hc, e⟩ | ⟨hk, hp, hc, e⟩ <;>
      rw [← inj (e.symm.trans h)]
    · exact illegal _ hk
    · exact failMem _ _ rfl hk (by simp [reportable]) (by simp)
    · rcases memCheck_code hc with rfl | rfl | rfl <;> exact failMem _ _ rfl hk (by simp [reportable]) (by simp)
    · exact vdec hk hp hc

end Sys2Proof.Machine
end

