-- ==== Sys2Proof/Laws/Words.lean ====
section
/-! SUPPORT. Words put together from fields, as sums, and the fields of a command word. -/

namespace Sys2Proof

/-- `(a << k) | b` with `b` below bit `k`, as a sum. -/
theorem toNat_shift_or {n : Nat} (a b : BitVec n) (k : Nat) (hb : b.toNat < 2 ^ k)
    (ha : a.toNat * 2 ^ k < 2 ^ n) : ((a <<< k) ||| b).toNat = a.toNat * 2 ^ k + b.toNat := by
  rw [BitVec.toNat_or, BitVec.toNat_shiftLeft, Nat.shiftLeft_eq, Nat.mod_eq_of_lt ha, ← Nat.shiftLeft_eq,
    Nat.shiftLeft_add_eq_or_of_lt hb]

/-- Two command words are equal when their fields are. -/
theorem word_ext_fields {v w : Word} (h1 : opcOf v = opcOf w) (h2 : ctxOf v = ctxOf w) (h3 : selOf v = selOf w)
    (h4 : rsvOf v = rsvOf w) : v = w := by
  apply BitVec.eq_of_getLsbD_eq
  intro i hi
  have e1 := congrArg (fun x => x.getLsbD i) h1
  have e2 := congrArg (fun x => x.getLsbD (i - 8)) h2
  have e3 := congrArg (fun x => x.getLsbD (i - 12)) h3
  have e4 := congrArg (fun x => x.getLsbD (i - 16)) h4
  simp only [opcOf, ctxOf, selOf, rsvOf, BitVec.getLsbD_extractLsb', Nat.zero_add] at e1 e2 e3 e4
  by_cases c1 : i < 8
  · simpa [c1] using e1
  · by_cases c2 : i < 12
    · rw [show 8 + (i - 8) = i by omega] at e2
      simpa [show i - 8 < 4 by omega] using e2
    · by_cases c3 : i < 16
      · rw [show 12 + (i - 12) = i by omega] at e3
        simpa [show i - 12 < 4 by omega] using e3
      · rw [show 16 + (i - 16) = i by omega] at e4
        simpa [show i - 16 < 16 by omega] using e4

@[simp] theorem opcOf_cmdWord (o : BitVec 8) (k j : BitVec 4) : opcOf (cmdWord o k j) = o := by
  apply BitVec.eq_of_getLsbD_eq
  intro i hi
  simp only [opcOf, cmdWord, BitVec.getLsbD_extractLsb', BitVec.getLsbD_or, BitVec.getLsbD_shiftLeft,
    BitVec.getLsbD_setWidth, Nat.zero_add]
  simp [hi, show i < 32 by omega, show i < 12 by omega]

@[simp] theorem ctxOf_cmdWord (o : BitVec 8) (k j : BitVec 4) : ctxOf (cmdWord o k j) = k := by
  apply BitVec.eq_of_getLsbD_eq
  intro i hi
  simp only [ctxOf, cmdWord, BitVec.getLsbD_extractLsb', BitVec.getLsbD_or, BitVec.getLsbD_shiftLeft,
    BitVec.getLsbD_setWidth]
  simp [hi, show 8 + i < 12 by omega, show 8 + i < 32 by omega, show i < 32 by omega]

@[simp] theorem selOf_cmdWord (o : BitVec 8) (k j : BitVec 4) : selOf (cmdWord o k j) = j := by
  apply BitVec.eq_of_getLsbD_eq
  intro i hi
  simp only [selOf, cmdWord, BitVec.getLsbD_extractLsb', BitVec.getLsbD_or, BitVec.getLsbD_shiftLeft,
    BitVec.getLsbD_setWidth]
  have h1 : o.getLsbD (12 + i) = false := BitVec.getLsbD_of_ge _ _ (by omega)
  have h2 : k.getLsbD (12 + i - 8) = false := BitVec.getLsbD_of_ge _ _ (by omega)
  simp [hi, h1, h2, show 12 + i < 32 by omega, show i < 32 by omega]

@[simp] theorem rsvOf_cmdWord (o : BitVec 8) (k j : BitVec 4) : rsvOf (cmdWord o k j) = 0 := by
  apply BitVec.eq_of_getLsbD_eq
  intro i hi
  simp only [rsvOf, cmdWord, BitVec.getLsbD_extractLsb', BitVec.getLsbD_or, BitVec.getLsbD_shiftLeft,
    BitVec.getLsbD_setWidth]
  have h1 : o.getLsbD (16 + i) = false := BitVec.getLsbD_of_ge _ _ (by omega)
  have h2 : k.getLsbD (16 + i - 8) = false := BitVec.getLsbD_of_ge _ _ (by omega)
  have h3 : j.getLsbD (16 + i - 12) = false := BitVec.getLsbD_of_ge _ _ (by omega)
  simp [h1, h2, h3]

theorem clsOfSel_eq_some {sel : BitVec 4} {c : Cls} (h : clsOfSel sel = some c) : sel = selOfCls c := by
  revert sel
  cases c <;> decide

theorem divisorOfSel_eq_some {sel : BitVec 4} {d : Divisor} (h : divisorOfSel sel = some d) :
    sel = selOfDivisor d := by
  revert sel
  cases d <;> decide

@[simp] theorem clsOfSel_selOfCls (c : Cls) : clsOfSel (selOfCls c) = some c := by cases c <;> rfl

@[simp] theorem divisorOfSel_selOfDivisor (d : Divisor) : divisorOfSel (selOfDivisor d) = some d := by
  cases d <;> rfl

namespace Machine

/-- A unit is 256 times its first byte plus its second (20_memory R83). -/
theorem bits16_toNat (hi lo : Byte) : (bits16 hi lo).toNat = 256 * hi.toNat + lo.toNat := by
  have h1 := hi.isLt
  have h2 := lo.isLt
  have e1 : (hi.setWidth 16).toNat = hi.toNat := by
    rw [BitVec.toNat_setWidth]
    exact Nat.mod_eq_of_lt (by omega)
  have e2 : (lo.setWidth 16).toNat = lo.toNat := by
    rw [BitVec.toNat_setWidth]
    exact Nat.mod_eq_of_lt (by omega)
  unfold bits16
  rw [toNat_shift_or _ _ 8 (by omega) (by omega), e1, e2]
  omega

/-- The bytes of a unit are its quotient and remainder by 256 (20_memory R83). -/
theorem unitBytes_eq (v : UnitVal) :
    unitBytes v = [BitVec.ofNat 8 (v.toNat / 256), BitVec.ofNat 8 (v.toNat % 256)] := by
  have hv := v.isLt
  unfold unitBytes
  congr 1
  · apply BitVec.eq_of_toNat_eq
    rw [BitVec.toNat_setWidth, BitVec.toNat_ushiftRight, Nat.shiftRight_eq_div_pow, BitVec.toNat_ofNat]
  · congr 1
    apply BitVec.eq_of_toNat_eq
    rw [BitVec.toNat_setWidth, BitVec.toNat_ofNat]
    omega

/-- The unit of a unit's bytes is that unit. -/
theorem bits16_unitBytes (v : UnitVal) :
    bits16 ((v >>> 8).setWidth 8) (v.setWidth 8) = v := by
  have hv := v.isLt
  apply BitVec.eq_of_toNat_eq
  rw [bits16_toNat, BitVec.toNat_setWidth, BitVec.toNat_setWidth, BitVec.toNat_ushiftRight,
    Nat.shiftRight_eq_div_pow]
  omega

/-- The bytes of the unit of two bytes are those bytes. -/
theorem unitBytes_bits16 (hi lo : Byte) : unitBytes (bits16 hi lo) = [hi, lo] := by
  have h1 := hi.isLt
  have h2 := lo.isLt
  rw [unitBytes_eq, bits16_toNat]
  congr 1
  · apply BitVec.eq_of_toNat_eq
    rw [BitVec.toNat_ofNat]
    omega
  · congr 1
    apply BitVec.eq_of_toNat_eq
    rw [BitVec.toNat_ofNat]
    omega

end Machine

end Sys2Proof
end

