-- ==== Sys2Proof/Laws/Streams.lean ====
section
/-! SUPPORT. What the sequences of the codec hold element by element: stored symbols, encoded pairs, decoded
groups, and the granules of the vector unit as the same pairs and groups. -/

namespace Sys2Proof.Machine

/-! ## Symbols in memory -/

theorem symBytes_getD (es : Nat) (l : List Sym) {u t : Nat} (hu : u < l.length) (ht : t < es) :
    (symBytes es l).getD (es * u + t) 0 = (leBytes es (l.getD u 0).toNat).getD t 0 := by
  induction l generalizing u with
  | nil => simp at hu
  | cons x l ih =>
    have hc : symBytes es (x :: l) = leBytes es x.toNat ++ symBytes es l := rfl
    rw [hc]
    cases u with
    | zero =>
      simp only [Nat.mul_zero, Nat.zero_add, List.getD_eq_getElem?_getD]
      rw [List.getElem?_append_left (by simpa using ht)]
      rfl
    | succ u =>
      simp only [List.getD_cons_succ]
      rw [← ih (by simpa using hu)]
      simp only [List.getD_eq_getElem?_getD]
      rw [List.getElem?_append_right (by rw [leBytes_length, Nat.mul_succ]; omega), leBytes_length,
        show es * (u + 1) + t - es = es * u + t by rw [Nat.mul_succ]; omega]

/-- A stored sequence of symbols reads back symbol by symbol (20_memory R82). -/
theorem readSym_writeBytes (m : Memory) (es a : Nat) (l : List Sym) {u : Nat} (hu : u < l.length)
    (hfit : (l.getD u 0).toNat < 256 ^ es) :
    Memory.readSym (m.writeBytes a (symBytes es l)) es (a + es * u) = l.getD u 0 := by
  unfold Memory.readSym
  rw [Memory.readLE_of_leBytes (v := (l.getD u 0).toNat), Nat.mod_eq_of_lt hfit]
  · simp
  · intro t ht
    have hle : es * u + es ≤ es * l.length := by rw [← Nat.mul_succ]; exact Nat.mul_le_mul_left es hu
    rw [Memory.read_writeBytes, if_pos (by rw [symBytes_length]; omega),
      show a + es * u + t - a = es * u + t by omega]
    exact symBytes_getD es l hu ht

/-- `ES` in bytes (00_scope R13). -/
theorem Config.es_eq (c : Config) : c.es = symbolSize c.symW := by
  unfold Config.es
  cases c.symW <;> rfl

/-- A symbol read from memory is its bytes, the least significant first (20_memory R82). -/
theorem symbolAt_eq (s : State) (a : Nat) : symbolAt s a = s.mem.readSym s.cfg.es a := by
  unfold symbolAt Memory.readSym Config.es
  cases s.cfg.symW <;>
    simp only [SymWidth.bytes, Memory.readLE, Nat.mul_zero, Nat.add_zero, Nat.add_assoc, Nat.reduceAdd] <;>
    congr 1 <;> omega

/-- The source symbols, byte by byte. -/
theorem sourceSymbols_eq (s : State) : sourceSymbols s = s.srcSyms := by
  unfold sourceSymbols State.srcSyms Memory.readSyms
  simp only [symbolAt_eq, Config.es_eq]

/-- The source bytes. -/
theorem sourceBytes_eq (s : State) : sourceBytes s = s.srcBytes := rfl

/-- Byte `i` of a number laid out least significant byte first (00_scope R17). -/
theorem leBytes_getD {n v i : Nat} (h : i < n) : ((leBytes n v).getD i 0).toNat = v / 256 ^ i % 256 := by
  induction n generalizing v i with
  | zero => omega
  | succ n ih =>
    cases i with
    | zero => simp [leBytes]
    | succ i =>
      simp only [leBytes, List.getD_cons_succ]
      rw [ih (by omega), Nat.pow_succ, Nat.mul_comm, Nat.div_div_eq_div_mul]

/-- A stored sequence of symbols is in memory byte by byte (20_memory R82). -/
theorem symbolsAt_of_store {s t : State} {a : Nat} {l : List Sym}
    (h : t.mem = s.mem.writeBytes a (symBytes s.cfg.es l)) (hc : t.cfg = s.cfg) :
    SymbolsAt t a l.length fun u => l.getD u 0 := by
  intro u hu i hi
  rw [hc, ← Config.es_eq] at hi ⊢
  have hle : s.cfg.es * u + s.cfg.es ≤ s.cfg.es * l.length := by
    rw [← Nat.mul_succ]
    exact Nat.mul_le_mul_left _ hu
  rw [h, Memory.read_writeBytes, if_pos (by rw [symBytes_length]; omega),
    show a + s.cfg.es * u + i - a = s.cfg.es * u + i by omega, symBytes_getD s.cfg.es l hu hi, leBytes_getD hi]

theorem SymWidth.two_pow_bits (w : SymWidth) : 2 ^ w.bits = 256 ^ w.bytes := by cases w <;> decide

/-! ## Encoded pairs -/

/-- A unit is its earlier byte high (20_memory R83). -/
theorem bits16_eq (hi lo : Byte) : bits16 hi lo = unitOf hi lo := by
  apply BitVec.eq_of_toNat_eq
  have h1 := hi.isLt
  have h2 := lo.isLt
  rw [bits16_toNat, unitOf, BitVec.toNat_ofNat, Nat.mod_eq_of_lt (by omega)]

/-- Symbol `u` of the encoded pairs is symbol `u % 4` of pair `u / 4` (42_streaming R212). -/
theorem encPairs_getD (a : Alphabet) (b : List Byte) {u : Nat} (hu : u < 4 * (b.length / 2)) :
    (encPairs a b).getD u 0 = (enc2 a (pairAt b (u / 4))).toList.getD (u % 4) 0 := by
  induction b using encPairs.induct generalizing u with
  | case1 b0 b1 rest ih =>
    simp only [encPairs, List.getD_eq_getElem?_getD]
    by_cases h : u < 4
    · rw [List.getElem?_append_left (by simpa using h), Nat.div_eq_of_lt h, Nat.mod_eq_of_lt h, bits16_eq]
      rfl
    · have hr : u - 4 < 4 * (rest.length / 2) := by
        simp only [List.length_cons] at hu
        omega
      have e := ih hr
      simp only [List.getD_eq_getElem?_getD] at e
      rw [List.getElem?_append_right (by simp; omega), Group.toList_length, e,
        show u % 4 = (u - 4) % 4 by omega, show u / 4 = (u - 4) / 4 + 1 by omega]
      rfl
  | case2 b h =>
    have : b.length < 2 := by
      match b, h with
      | [], _ => simp
      | [_], _ => simp
      | b0 :: b1 :: rest, h => exact absurd rfl (h b0 b1 rest)
    omega

/-! ## Decoded groups -/

/-- Four symbols at the front of what is left are the next group (42_streaming R222). -/
theorem drop_group (t : List Sym) {g : Nat} (h : g < t.length / 4) :
    t.drop (4 * g) = (groupAt t g).s0 :: (groupAt t g).s1 :: (groupAt t g).s2 :: (groupAt t g).s3 ::
      t.drop (4 * (g + 1)) := by
  have e : ∀ i (hi : i < t.length), t.drop i = t.getD i 0 :: t.drop (i + 1) := by
    intro i hi
    rw [List.drop_eq_getElem_cons hi, List.getD_eq_getElem?_getD, List.getElem?_eq_getElem hi]
    rfl
  rw [e (4 * g) (by omega), e (4 * g + 1) (by omega), e (4 * g + 2) (by omega), e (4 * g + 3) (by omega)]
  rfl

/-- The bytes of the first `n` units of `f`, high byte first. -/
theorem flatMap_unitBytes_length (f : Nat → UnitVal) (n : Nat) :
    ((List.range n).flatMap fun j => unitBytes (f j)).length = 2 * n := by
  induction n with
  | zero => rfl
  | succ n ih =>
    rw [List.range_succ, List.flatMap_append, List.length_append, ih]
    simp
    omega

theorem flatMap_unitBytes_getD (f : Nat → UnitVal) {n j : Nat} (h : j < n) :
    (((List.range n).flatMap fun j => unitBytes (f j)).getD (2 * j) 0 = ((f j) >>> 8).setWidth 8) ∧
    (((List.range n).flatMap fun j => unitBytes (f j)).getD (2 * j + 1) 0 = (f j).setWidth 8) := by
  induction n with
  | zero => omega
  | succ n ih =>
    rw [List.range_succ, List.flatMap_append]
    simp only [List.getD_eq_getElem?_getD, List.flatMap_cons, List.flatMap_nil, List.append_nil] at ih ⊢
    by_cases hj : j < n
    · rw [List.getElem?_append_left (by rw [flatMap_unitBytes_length]; omega),
        List.getElem?_append_left (by rw [flatMap_unitBytes_length]; omega)]
      exact ih hj
    · have hn : j = n := by omega
      subst hn
      rw [List.getElem?_append_right (by rw [flatMap_unitBytes_length] <;> omega),
        List.getElem?_append_right (by rw [flatMap_unitBytes_length] <;> omega), flatMap_unitBytes_length]
      simp only [Nat.sub_self, Nat.add_sub_cancel_left]
      exact ⟨rfl, rfl⟩

/-- When the first `n` groups decode, the decoder goes on with what is left after them (42_streaming R222). -/
theorem decGroups_prefix {a : Alphabet} {t : List Sym} {f : Nat → UnitVal} {n : Nat} (hn : n ≤ t.length / 4)
    (h : ∀ g < n, dec4 a (groupAt t g) = .ok (f g)) :
    decGroups a t = (((List.range n).flatMap fun j => unitBytes (f j)) ++ (decGroups a (t.drop (4 * n))).1,
      (decGroups a (t.drop (4 * n))).2) := by
  induction n with
  | zero => simp
  | succ n ih =>
    rw [ih (by omega) fun g hg => h g (by omega), drop_group t (by omega)]
    have e : dec4 a ⟨(groupAt t n).s0, (groupAt t n).s1, (groupAt t n).s2, (groupAt t n).s3⟩ = .ok (f n) := h n (by omega)
    simp only [decGroups, e, List.range_succ, List.flatMap_append, List.flatMap_cons, List.flatMap_nil,
      List.append_nil, List.append_assoc]

theorem decGroups_of_short {a : Alphabet} {t : List Sym} (h : t.length < 4) : decGroups a t = ([], none) := by
  match t, h with
  | [], _ => rfl
  | [_], _ => rfl
  | [_, _], _ => rfl
  | [_, _, _], _ => rfl

/-- When every group decodes, the decoder answers all their bytes and no error (42_streaming R222). -/
theorem decGroups_of_ok {a : Alphabet} {t : List Sym} {f : Nat → UnitVal}
    (h : ∀ g < t.length / 4, dec4 a (groupAt t g) = .ok (f g)) :
    decGroups a t = ((List.range (t.length / 4)).flatMap fun j => unitBytes (f j), none) := by
  rw [decGroups_prefix (Nat.le_refl _) h, decGroups_of_short (by rw [List.length_drop]; omega)]
  simp

/-- The first bad group ends the decoding with its error (42_streaming R223). -/
theorem decGroups_of_err {a : Alphabet} {t : List Sym} {f : Nat → UnitVal} {n : Nat} {e : ErrCode}
    (hn : n < t.length / 4) (h : ∀ g < n, dec4 a (groupAt t g) = .ok (f g))
    (he : dec4 a (groupAt t n) = .err e) :
    decGroups a t = ((List.range n).flatMap fun j => unitBytes (f j), some e) := by
  rw [decGroups_prefix (Nat.le_of_lt hn) h, drop_group t hn]
  have e' : dec4 a ⟨(groupAt t n).s0, (groupAt t n).s1, (groupAt t n).s2, (groupAt t n).s3⟩ = .err e := he
  simp only [decGroups, e', List.append_nil]

/-- Either every complete group decodes, or there is a first that does not. -/
theorem first_bad_group (a : Alphabet) (t : List Sym) (n : Nat) :
    (∃ f : Nat → UnitVal, ∀ g < n, dec4 a (groupAt t g) = .ok (f g)) ∨
    (∃ (f : Nat → UnitVal) (g : Nat) (e : ErrCode), g < n ∧ (∀ j < g, dec4 a (groupAt t j) = .ok (f j)) ∧
      dec4 a (groupAt t g) = .err e) := by
  induction n with
  | zero => exact .inl ⟨fun _ => 0, fun g hg => absurd hg (Nat.not_lt_zero g)⟩
  | succ n ih =>
    rcases ih with ⟨f, h⟩ | ⟨f, g, e, hg, h, he⟩
    · cases hd : dec4 a (groupAt t n) with
      | err e => exact .inr ⟨f, n, e, by omega, h, hd⟩
      | ok v =>
        refine .inl ⟨fun g => if g = n then v else f g, fun g hg => ?_⟩
        by_cases hgn : g = n
        · subst hgn
          simp [hd]
        · simp only [hgn, if_false]
          exact h g (by omega)
    · exact .inr ⟨f, g, e, by omega, h, he⟩

/-- The bytes of units stored from `a` upward, read back (20_memory R83). -/
theorem read_writeBytes_units (m : Memory) (a : Nat) (f : Nat → UnitVal) {n j : Nat} (h : j < n) :
    (Memory.read (m.writeBytes a ((List.range n).flatMap fun j => unitBytes (f j))) (a + 2 * j)).toNat
        = (f j).toNat / 256 ∧
    (Memory.read (m.writeBytes a ((List.range n).flatMap fun j => unitBytes (f j))) (a + 2 * j + 1)).toNat
        = (f j).toNat % 256 := by
  have hv := (f j).isLt
  rw [Memory.read_writeBytes, if_pos (by rw [flatMap_unitBytes_length]; omega), Memory.read_writeBytes,
    if_pos (by rw [flatMap_unitBytes_length]; omega), show a + 2 * j - a = 2 * j by omega,
    show a + 2 * j + 1 - a = 2 * j + 1 by omega, (flatMap_unitBytes_getD f h).1, (flatMap_unitBytes_getD f h).2]
  constructor
  · rw [BitVec.toNat_setWidth, BitVec.toNat_ushiftRight, Nat.shiftRight_eq_div_pow]
    exact Nat.mod_eq_of_lt (by omega)
  · rw [BitVec.toNat_setWidth]

end Sys2Proof.Machine
end

