-- ==== Sys2Proof/Laws/Chunks.lean ====
section
/-! SUPPORT. Splitting a feed in two: the carry, the buffer, the windows and the bytes read. -/

namespace Sys2Proof.Machine

/-! ## The encode carry -/

/-- The carry after a feed is the odd byte left over (42_streaming R211). -/
theorem EncCtx.carry_after (l : List Byte) : (EncCtx.after l).carry = l.drop (2 * (l.length / 2)) := by
  unfold EncCtx.after EncCtx.carry
  split
  · rename_i h
    simp only [if_true]
    rw [show 2 * (l.length / 2) = l.length - 1 by omega, List.drop_eq_getElem_cons (by omega),
        show l.length - 1 + 1 = l.length by omega, List.drop_length]
    simp [List.getD_eq_getElem?_getD, List.getElem?_eq_getElem (show l.length - 1 < l.length by omega)]
  · rename_i h
    simp only [Bool.false_eq_true, if_false]
    rw [show 2 * (l.length / 2) = l.length by omega, List.drop_length]

/-- A feed leaves its context OPEN. -/
theorem EncCtx.after_phase (l : List Byte) :
    (EncCtx.after l).phase = .opened := by unfold EncCtx.after; split <;> rfl

/-- Fewer than two bytes make no pair. -/
theorem encPairs_of_short {a : Alphabet} {l : List Byte} (h : l.length < 2) : encPairs a l = [] := by
  match l, h with
  | [], _ => rfl
  | [_], _ => rfl

/-- Only complete pairs are encoded. -/
theorem encPairs_take (a : Alphabet) (l : List Byte) :
    encPairs a (l.take (2 * (l.length / 2))) = encPairs a l := by
  have := encPairs_append (a := a) (s := l.take (2 * (l.length / 2))) (t := l.drop (2 * (l.length / 2)))
      (by simp; omega)
  rw [List.take_append_drop, encPairs_of_short (l := l.drop _) (by simp; omega), List.append_nil] at this
  exact this.symm

/-- Encoding a first part, then the carry and a second part, encodes the whole (42_streaming R230). -/
theorem encPairs_split (a : Alphabet) (l b : List Byte) :
    encPairs a (l ++ b) = encPairs a l ++ encPairs a ((EncCtx.after l).carry ++ b) := by
  rw [EncCtx.carry_after, ← encPairs_take a l, ← encPairs_append (by simp; omega), ← List.append_assoc,
      List.take_append_drop]

/-- The carry after two parts is the carry after the whole (42_streaming R230). -/
theorem EncCtx.after_split (l b : List Byte) :
    EncCtx.after (l ++ b) = EncCtx.after ((EncCtx.after l).carry ++ b) := by
  rw [EncCtx.carry_after]
  have hlen : (l.drop (2 * (l.length / 2)) ++ b).length = (l ++ b).length - 2 * (l.length / 2) := by simp; omega
  unfold EncCtx.after
  rw [hlen]
  have h2 : (l ++ b).length = l.length + b.length := by simp
  have : ((l ++ b).length - 2 * (l.length / 2)) % 2 = (l ++ b).length % 2 := by omega
  rw [this]
  split
  · congr 1
    have : (l.drop (2 * (l.length / 2)) ++ b) = (l ++ b).drop (2 * (l.length / 2)) := by
      rw [List.drop_append_of_le_length (by omega)]
    rw [this]
    simp only [List.getD_eq_getElem?_getD, List.getElem?_drop]
    congr 2; omega
  · rfl

/-! ## The decode buffer -/

/-- Decoding whole groups, then more. -/
theorem decGroups_append {a : Alphabet} {x y : List Sym} (h : x.length % 4 = 0) :
    decGroups a (x ++ y) = if (decGroups a x).2 = none then ((decGroups a x).1 ++ (decGroups a y).1,
    (decGroups a y).2) else decGroups a x := by
  induction x using decGroups.induct (a := a) with
  | case1 s0 s1 s2 s3 rest e he => simp [decGroups, he]
  | case2 s0 s1 s2 s3 rest v hv ih =>
    have := ih (by simp at h; omega)
    simp only [List.cons_append, decGroups, hv, this]
    split <;> simp
  | case3 t ht => 
    match t, ht with
    | [], _ => simp [decGroups]
    | [_], _ => simp at h
    | [_, _], _ => simp at h
    | [_, _, _], _ => simp at h
    | s0 :: s1 :: s2 :: s3 :: rest, h => exact absurd rfl (h s0 s1 s2 s3 rest)

/-- An element past a dropped prefix. -/
theorem getD_drop (l : List Sym) (n i : Nat) :
    (l.drop n).getD i 0 = l.getD (n + i) 0 := by simp [List.getD_eq_getElem?_getD]

/-- A list of at most three elements, padded to four slots and cut again. -/
theorem eq_take_four (l : List Sym) (h : l.length < 4) :
    l = [l.getD 0 0, l.getD 1 0, l.getD 2 0, (0:Sym)].take l.length := by
  match l, h with
  | [], _ => rfl
  | [_], _ => rfl
  | [_, _], _ => rfl
  | [_, _, _], _ => rfl

/-- The context after a feed, slot by slot (42_streaming R222). -/
theorem DecCtx.after_eq (t : List Sym) : DecCtx.after t =
    { count := Fin.ofNat 4 (t.length % 4)
      trail0 := t.getD (4 * (t.length / 4)) 0, trail1 := t.getD (4 * (t.length / 4) + 1) 0
      trail2 := t.getD (4 * (t.length / 4) + 2) 0, trail3 := 0, phase := .opened } := by
  have g0 : ∀ i, t.length % 4 ≤ i → t.getD (4 * (t.length / 4) + i) 0 = 0 := by
    intro i hi; rw [List.getD_eq_getElem?_getD, List.getElem?_eq_none (by omega)]; rfl
  simp only [DecCtx.after, getD_drop]
  have h3 : ¬ 3 < t.length % 4 := by omega
  rw [if_neg h3]
  congr 1
  · split
    · rfl
    · exact (g0 0 (by omega)).symm
  · split
    · rfl
    · exact (g0 1 (by omega)).symm
  · split
    · rfl
    · exact (g0 2 (by omega)).symm

/-- The buffer after a feed is what was left over (42_streaming R222). -/
theorem DecCtx.buffer_after (l : List Sym) : (DecCtx.after l).buffer = l.drop (4 * (l.length / 4)) := by
  have hl : (l.drop (4 * (l.length / 4))).length = l.length % 4 := by simp; omega
  rw [eq_take_four (l.drop (4 * (l.length / 4))) (by omega), hl, getD_drop, getD_drop, getD_drop, DecCtx.after_eq]
  simp only [DecCtx.buffer, Fin.ofNat]
  rw [Nat.mod_mod]; rfl

/-- Decoding a whole is decoding a first part and, when no group of it fails, the buffer and a second part
(42_streaming R230). -/
theorem decGroups_split_eq (a : Alphabet) (l b : List Sym) :
    decGroups a (l ++ b) = if (decGroups a l).2 = none then
      ((decGroups a l).1 ++ (decGroups a ((DecCtx.after l).buffer ++ b)).1,
        (decGroups a ((DecCtx.after l).buffer ++ b)).2)
    else decGroups a l := by
  have h1 : l ++ b = l.take (4 * (l.length / 4)) ++ (l.drop (4 * (l.length / 4)) ++ b) := by
    rw [← List.append_assoc, List.take_append_drop]
  have h2 : decGroups a l = decGroups a (l.take (4 * (l.length / 4))) := by
    have := decGroups_append (a := a) (x := l.take (4 * (l.length / 4))) (y := l.drop (4 * (l.length / 4)))
      (by simp; omega)
    rw [List.take_append_drop, decGroups_of_short (t := l.drop _) (by simp; omega)] at this
    rw [this]
    simp only [List.append_nil]
    split
    · rename_i h
      rw [← h]
    · rfl
  have h3 := decGroups_append (a := a) (x := l.take (4 * (l.length / 4))) (y := l.drop (4 * (l.length / 4)) ++ b)
    (by simp; omega)
  rwa [← h1, ← h2, ← DecCtx.buffer_after] at h3

/-- When the whole decodes, both parts do (42_streaming R230). -/
theorem decGroups_split (a : Alphabet) (l b : List Sym) (h : (decGroups a (l ++ b)).2 = none) :
    (decGroups a l).2 = none ∧ decGroups a (l ++ b) =
      ((decGroups a l).1 ++ (decGroups a ((DecCtx.after l).buffer ++ b)).1,
        (decGroups a ((DecCtx.after l).buffer ++ b)).2) := by
  have hs := decGroups_split_eq a l b
  split at hs
  · exact ⟨‹_›, hs⟩
  · rw [hs] at h
    exact absurd h ‹_›

/-- The buffer after two parts is the buffer after the whole (42_streaming R230). -/
theorem DecCtx.after_split (l b : List Sym) :
    DecCtx.after (l ++ b) = DecCtx.after ((DecCtx.after l).buffer ++ b) := by
  rw [DecCtx.buffer_after, DecCtx.after_eq, DecCtx.after_eq]
  have hd : l.drop (4 * (l.length / 4)) ++ b =
      (l ++ b).drop (4 * (l.length / 4)) := by rw [List.drop_append_of_le_length (by omega)]
  rw [hd]
  have hl : ((l ++ b).drop (4 * (l.length / 4))).length = (l ++ b).length - 4 * (l.length / 4) := by simp
  have h0 : (l ++ b).length = l.length + b.length := by simp
  have e1 : ((l ++ b).length - 4 * (l.length / 4)) % 4 = (l ++ b).length % 4 := by omega
  have e2 : 4 * (l.length / 4) + 4 * (((l ++ b).length - 4 * (l.length / 4)) / 4) =
      4 * ((l ++ b).length / 4) := by omega
  simp only [hl, getD_drop, e1, ← Nat.add_assoc, e2]

/-- A group inside the first granule. -/
theorem groupAt_take (t : List Sym) (j : Nat) (h : j < 16) : groupAt (t.take 64) j = groupAt t j := by
  simp only [groupAt, List.getD_eq_getElem?_getD, List.getElem?_take]
  rw [if_pos (by omega), if_pos (by omega), if_pos (by omega), if_pos (by omega)]

/-- A group past the first granule. -/
theorem groupAt_drop (t : List Sym) (j : Nat)  : groupAt (t.drop 64) j = groupAt t (16 + j) := by
  simp only [groupAt, List.getD_eq_getElem?_getD, List.getElem?_drop]
  congr 3 <;> omega

/-! ## Windows and reads -/

/-- A part of an accessible window is accessible. -/
theorem Window.accessible_mono {w v : Window} {c : Config} (h : w.accessible c = true) (hs : ∀ a, v.has a = true →
    w.has a = true) : v.accessible c = true := by
  rw [Window.accessible_iff] at *
  exact fun a ha => h a (hs a ha)

/-- Parts of disjoint windows are disjoint. -/
theorem Window.overlaps_mono {w v w' v' : Window} (h : w.overlaps v = false) (hs : ∀ a, w'.has a = true → w.has a =
    true) (hs' : ∀ a, v'.has a = true → v.has a = true) : w'.overlaps v' = false := by
  rw [← Bool.not_eq_true, Window.overlaps_iff] at *
  rintro ⟨a, h1, h2⟩; exact h ⟨a, hs a h1, hs' a h2⟩

/-- Well-formed parts of windows that passed `MemCheck` pass it. -/
theorem memCheck_mono {c : Config} {cap cap' : Nat} {w w' : Windows} (h : memCheck c cap w =
    none) (hc : w'.dst.count ≤ cap')
  (h1 : w'.src.ok = true) (h2 : w'.dst.ok = true)
  (hs : ∀ a, w'.src.has a = true → w.src.has a = true) (hd : ∀ a, w'.dst.has a = true → w.dst.has a =
      true) : memCheck c cap' w' = none := by
  rw [memCheck_eq_none_iff] at *
  exact ⟨hc, h1, h2, Window.overlaps_mono h.2.2.2.1 hs hd, Window.accessible_mono h.2.2.2.2.1 hs,
      Window.accessible_mono h.2.2.2.2.2 hd⟩

/-- Adding a number that does not wrap. -/
theorem toNat_add_ofNat (a : Word) (n : Nat) (h : a.toNat + n < 2^32) :
    (a + BitVec.ofNat 32 n).toNat = a.toNat + n := by
  rw [BitVec.toNat_add, BitVec.toNat_ofNat]; omega

/-- Bytes stored from `DST_ADDR` stay in a window that holds them (20_memory R90). -/
theorem read_writeBytes_of_not_has (s : State) (m : Memory) (bs : List Byte) (w : Window) (hb : w.base =
    s.dstAddr.toNat) (h : bs.length ≤ w.bytes) (a : Nat) (ha : w.has a =
    false) : Memory.read (Memory.writeBytes m s.dstAddr.toNat bs) a = Memory.read m a := by
  rw [Memory.read_writeBytes_outside]
  have : ¬ w.has a = true := by simp [ha]
  rw [Window.has_iff] at this
  omega

/-- Reading equal bytes gives equal bytes. -/
theorem Memory.readBytes_ext {m m' : Memory} {a a' n : Nat} (h : ∀ i < n, m.read (a + i) = m'.read (a' + i)) :
    m.readBytes a n = m'.readBytes a' n := by
  unfold Memory.readBytes
  apply List.map_congr_left
  intro i hi; exact h i (List.mem_range.mp hi)

/-- Reading a window in two parts. -/
theorem Memory.readBytes_add (m : Memory) (a n k : Nat) :
    m.readBytes a (n + k) = m.readBytes a n ++ m.readBytes (a + n) k := by
  unfold Memory.readBytes
  rw [List.range_add, List.map_append, List.map_map]
  congr 1
  apply List.map_congr_left; intro i _; simp [Nat.add_assoc]

/-- Reading equal symbols gives equal symbols. -/
theorem Memory.readSyms_ext {m m' : Memory} {es a a' n : Nat}
    (h : ∀ i < es * n, m.read (a + i) = m'.read (a' + i)) : m.readSyms es a n = m'.readSyms es a' n := by
  have key : ∀ k c d, (∀ i < k, m.read (c + i) = m'.read (d + i)) → m.readLE c k = m'.readLE d k := by
    intro k
    induction k with
    | zero => intros; rfl
    | succ k ih =>
      intro c d h
      have h0 := h 0 (by omega)
      simp only [Nat.add_zero] at h0
      simp only [Memory.readLE, h0]
      rw [ih (c + 1) (d + 1)]
      intro i hi
      have := h (i + 1) (by omega)
      rwa [show c + (i + 1) = c + 1 + i by omega, show d + (i + 1) = d + 1 + i by omega] at this
  unfold Memory.readSyms
  apply List.map_congr_left
  intro u hu
  have hu := List.mem_range.mp hu
  unfold Memory.readSym
  congr 1
  have hle : es * u + es ≤ es * n := by
    rw [← Nat.mul_succ]
    exact Nat.mul_le_mul_left es hu
  refine key es _ _ fun i hi => ?_
  have := h (es * u + i) (by omega)
  rwa [← Nat.add_assoc, ← Nat.add_assoc] at this

/-- Reading a window of symbols in two parts. -/
theorem Memory.readSyms_add (m : Memory) (es a n k : Nat) :
    m.readSyms es a (n + k) = m.readSyms es a n ++ m.readSyms es (a + es * n) k := by
  unfold Memory.readSyms
  rw [List.range_add, List.map_append, List.map_map]
  congr 1
  apply List.map_congr_left; intro i _; simp [Nat.mul_add, Nat.add_assoc]

/-- A byte of the source window. -/
theorem State.srcBytes_getD (s : State) (i : Nat) (h : i < s.srcLen.toNat) :
    s.srcBytes.getD i 0 = s.mem.read (s.srcAddr.toNat + i) := by
  simp [State.srcBytes, Memory.readBytes, h]

/-- The source bytes depend on the source window only. -/
theorem State.srcBytes_of_mem {s : State} {m : Memory} (h : ∀ a, s.srcBytesWin.has a = true → m.read a =
    s.mem.read a) : State.srcBytes { s with mem := m } = s.srcBytes := by
  simp only [State.srcBytes, Memory.readBytes]
  apply List.map_congr_left
  intro i hi
  apply h
  rw [Window.has_iff]
  have := List.mem_range.mp hi
  simp only [State.srcBytesWin, Window.bytes]
  omega

/-- The source symbols depend on the source window only. -/
theorem State.srcSyms_of_mem {s : State} {m : Memory} (h : ∀ a, s.srcSymsWin.has a = true → m.read a =
    s.mem.read a) : State.srcSyms { s with mem := m } = s.srcSyms := by
  simp only [State.srcSyms, Memory.readSyms]
  apply List.map_congr_left
  intro i hi
  simp only [Memory.readSym]
  congr 1
  apply Memory.readLE_congr
  intro x h1 h2
  apply h
  rw [Window.has_iff]
  have := List.mem_range.mp hi
  have hb : (State.srcSymsWin s).bytes = s.srcLen.toNat * s.cfg.es := rfl
  rw [hb]
  have h3 : s.cfg.es * i + s.cfg.es ≤ s.srcLen.toNat * s.cfg.es := by
    rw [Nat.mul_comm s.srcLen.toNat, ← Nat.mul_succ]
    exact Nat.mul_le_mul_left _ this
  simp only [State.srcSymsWin]
  omega

/-- Storing the same bytes into two memories leaves each byte equal or untouched. -/
theorem Memory.read_writeBytes_or (m n : Memory) (a : Nat) (bs : List Byte) (x : Nat) :
    Memory.read (m.writeBytes a bs) x = Memory.read (n.writeBytes a bs) x ∨ (Memory.read (m.writeBytes a bs) x =
    Memory.read m x ∧ Memory.read (n.writeBytes a bs) x = Memory.read n x) := by
  rw [Memory.read_writeBytes, Memory.read_writeBytes]
  split
  · left; rfl
  · right; exact ⟨rfl, rfl⟩

/-! ## Feeds whose checks pass -/

/-- ENC_FEED on an OPEN context whose checks pass is its body. -/
theorem exec_encFeed_ok {k : BitVec 4} {s t : State} (hk : k.toNat < s.cfg.nctx) (hp : (s.encAt k.toNat).phase =
    .opened) (hm : s.memCheck (encFeedWindows s k.toNat) = none) (h : exec (.encFeed k) s = .next t) : t =
    encFeedBody k.toNat s := by
  rcases exec_encFeed_cases k s with ⟨h', _⟩ | ⟨_, h', _⟩ | ⟨_, _, _, h', _⟩ | ⟨_, _, _, h'⟩
  · omega
  · exact absurd hp h'
  · rw [hm] at h'; cases h'
  · rw [h] at h'; cases h'; rfl

/-- DEC_FEED on an OPEN context whose checks pass is its body. -/
theorem exec_decFeed_ok {k : BitVec 4} {s t : State} (hk : k.toNat < s.cfg.nctx) (hp : (s.decAt k.toNat).phase =
    .opened) (hm : s.memCheck (decFeedWindows s k.toNat) = none) (h : exec (.decFeed k) s = .next t) : t =
    decFeedBody k.toNat s := by
  rcases exec_decFeed_cases k s with ⟨h', _⟩ | ⟨_, h', _⟩ | ⟨_, _, _, h', _⟩ | ⟨_, _, _, h'⟩
  · omega
  · exact absurd hp h'
  · rw [hm] at h'; cases h'
  · rw [h] at h'; cases h'; rfl

end Sys2Proof.Machine
end

