-- ==== Sys2Proof/Laws/Host.lean ====
section
/-! SUPPORT. Register accesses: aligned ones, symbol writes, and the context views as sums; what a host access can do. -/

namespace Sys2Proof.Machine

/-- An aligned 32-bit access reaches its register. -/
theorem State.onRegister_aligned (s : State) (off : Nat) (f : Nat → State) (h : off < 4096) (h4 : off % 4 = 0) :
    s.onRegister (s.cfg.regBase + off) 4 f = .next (f off) := by
  unfold State.onRegister
  rw [if_neg (by omega), if_neg (by simp [Nat.add_sub_cancel_left, h4]), Nat.add_sub_cancel_left]

/-- A symbol register stores the low `SYM_W` bits (10_state R45). -/
theorem clipSym_eq (w : SymWidth) (v : Word) : clipSym w v = match w with
  | .w16 => (v.setWidth 16).setWidth 32
  | .w32 => v := by
  cases w
  · simp only [clipSym]; apply BitVec.eq_of_toNat_eq
    rw [BitVec.toNat_and, BitVec.toNat_setWidth, BitVec.toNat_setWidth]
    have : v.toNat &&& 65535 = v.toNat % 65536 := Nat.and_two_pow_sub_one_eq_mod _ 16
    show v.toNat &&& 65535 = _
    rw [this]; omega
  · rfl

/-- From offset 0x100 on a register read is a view read. -/
theorem readReg_eq_readView (s : State) (off : Nat) (h : 0x100 ≤ off) : readReg s off = readView s off := by
  unfold readReg
  split <;> first | omega | rfl

/-! ## What a host action can do -/

/-- A register write leaves the contexts and the host; while idle only a write to CMD changes CMD or STATUS
(44_host_interface R293, R294). -/
theorem writeReg_frame (s : State) (off : Nat) (v : Word) :
    (writeReg s off v).enc = s.enc ∧ (writeReg s off v).dec = s.dec ∧ (writeReg s off v).inputs = s.inputs ∧
    (s.status.busy = false → off ≠ 0x008 → (writeReg s off v).cmd = s.cmd ∧ (writeReg s off v).status = s.status) := by
  have operand : (writeOperand s off v).enc = s.enc ∧ (writeOperand s off v).dec = s.dec ∧
      (writeOperand s off v).inputs = s.inputs ∧ (writeOperand s off v).cmd = s.cmd ∧
      (writeOperand s off v).status = s.status := by
    unfold writeOperand
    split <;> exact ⟨rfl, rfl, rfl, rfl, rfl⟩
  unfold writeReg
  split
  · rename_i hb
    split <;> exact ⟨rfl, rfl, rfl, fun h => by rw [h] at hb; cases hb⟩
  · split
    · rename_i h
      exact ⟨rfl, rfl, rfl, fun _ h' => absurd h h'⟩
    · exact ⟨operand.1, operand.2.1, operand.2.2.1, fun _ _ => operand.2.2.2⟩

/-- A host access, which is every action but the reset and giving the turn, leaves the contexts and the actions to
come; while idle it leaves CMD and STATUS unless it issues a command. -/
theorem hostAct_frame {a : HostAction} {s t : State} (h : hostAct a s = .next t) (hr : a ≠ .reset)
    (hy : a ≠ .yield) :
    t.enc = s.enc ∧ t.dec = s.dec ∧ t.inputs = s.inputs ∧
    (s.status.busy = false → issuesCommand s.cfg a = false → t.cmd = s.cmd ∧ t.status = s.status) := by
  cases a with
  | reset => exact absurd rfl hr
  | yield => exact absurd rfl hy
  | regWrite addr width v =>
    simp only [hostAct, State.onRegister] at h
    split at h
    · cases h
    · split at h
      · cases h
      · cases h
        rename_i h1 h2
        obtain ⟨he, hd, hi, hc⟩ := writeReg_frame s (addr - s.cfg.regBase) v
        refine ⟨he, hd, hi, fun h0 h3 => hc h0 fun h4 => ?_⟩
        simp only [issuesCommand, decide_eq_false_iff_not] at h3
        exact h3 (by omega)
  | regRead addr width =>
    simp only [hostAct, State.onRegister] at h
    split at h
    · cases h
    · split at h <;> cases h
      exact ⟨rfl, rfl, rfl, fun _ _ => ⟨rfl, rfl⟩⟩
  | memWrite addr b =>
    simp only [hostAct, State.onMemory] at h
    split at h
    · cases h
    · split at h <;> cases h
      exact ⟨rfl, rfl, rfl, fun _ _ => ⟨rfl, rfl⟩⟩
  | memRead addr =>
    simp only [hostAct, State.onMemory] at h
    split at h
    · cases h
    · split at h <;> cases h
      exact ⟨rfl, rfl, rfl, fun _ _ => ⟨rfl, rfl⟩⟩

end Sys2Proof.Machine
end

