-- ==== Sys2Proof/Laws/Invariant.lean ====
section
/-! SUPPORT. The pieces of the machine invariant: contexts, symbols and memory, one lemma per update. -/

namespace Sys2Proof.Machine

/-- Replacing one element by a good one keeps all good. -/
theorem forall_mem_set {α : Type} {P : α → Prop} {l : List α} {k : Nat} {c : α} (h : ∀ x ∈ l, P x) (hc : P c) :
    ∀ x ∈ l.set k c, P x := by
  intro x hx
  rcases List.mem_or_eq_of_mem_set hx with h' | rfl
  · exact h _ h'
  · exact hc

/-- An empty encode context that is not FAILED is good (10_state R57). -/
theorem encOk_empty (p : Phase) (hp : p ≠ .failed) : EncOk (EncCtx.empty p) := by
  cases p <;> first | decide | contradiction

/-- The encode context after a feed is good (10_state R57). -/
theorem encOk_after (l : List Byte) : EncOk (EncCtx.after l) := by
  unfold EncCtx.after; split <;> simp [EncOk]

/-- Zero fits a symbol slot. -/
theorem symFits_zero (w) : SymFits w 0 := by cases w <;> decide

/-- An empty decode context is good (10_state R57). -/
theorem decOk_empty (w p) : DecOk w (DecCtx.empty p) := by
  cases p <;> cases w <;> decide

/-- An element of a list of fitting symbols fits. -/
theorem symFits_getD {w} {l : List Sym} (h : ∀ x ∈ l, SymFits w x) (i : Nat) : SymFits w (l.getD i 0) := by
  rw [List.getD_eq_getElem?_getD]
  by_cases hi : i < l.length
  · rw [List.getElem?_eq_getElem hi]; exact h _ (List.getElem_mem hi)
  · rw [List.getElem?_eq_none (by omega)]; exact symFits_zero w

/-- The decode context after a feed of fitting symbols is good (10_state R57). -/
theorem decOk_after (w) (l : List Sym) (h : ∀ x ∈ l, SymFits w x) : DecOk w (DecCtx.after l) := by
  have hf : ∀ i,
      SymFits w ((l.drop (4 * (l.length / 4))).getD i 0) := fun i => symFits_getD (fun x hx => h x
      (List.mem_of_mem_drop hx)) i
  have hc : ((DecCtx.after l).count).val = l.length % 4 := by
    show l.length % 4 % 4 = _; omega
  have hm : l.length % 4 < 4 := Nat.mod_lt _ (by decide)
  have hp : (DecCtx.after l).phase = .opened := rfl
  refine ⟨by omega, ?_, ?_, ?_, ?_, fun h => absurd hp h, ?_, ?_, ?_, ?_⟩
  · intro h; rw [hc] at h; exact if_neg (by omega)
  · intro h; rw [hc] at h; exact if_neg (by omega)
  · intro h; rw [hc] at h; exact if_neg (by omega)
  · intro h; rw [hc] at h; exact if_neg (by omega)
  all_goals (simp only [DecCtx.after]; split <;> first | exact hf _ | exact symFits_zero w)

/-- A symbol read from memory has `SYM_W` bits (20_memory R81). -/
theorem State.srcSyms_fit (s : State) : ∀ x ∈ s.srcSyms, SymFits s.cfg.symW x := by
  intro x hx
  simp only [State.srcSyms, Memory.readSyms, List.mem_map] at hx
  obtain ⟨u, -, rfl⟩ := hx
  unfold Memory.readSym SymFits
  rw [SymWidth.two_pow_bits, BitVec.toNat_ofNat]
  exact Nat.lt_of_le_of_lt (Nat.mod_le _ _) (Memory.readLE_lt _ _ _)

/-- The buffered symbols of a good context fit. -/
theorem DecCtx.buffer_fit {w} {d : DecCtx} (h : DecOk w d) : ∀ x ∈ d.buffer, SymFits w x := by
  intro x hx
  obtain ⟨-, -, -, -, -, -, h0, h1, h2, h3⟩ := h
  have := List.mem_of_mem_take hx
  simp at this
  rcases this with rfl | rfl | rfl | rfl <;> assumption

/-- Storing into a destination window that passed `MemCheck` keeps the canonical form. -/
theorem Memory.wf_storeDst {s : State} (hm : Memory.wf s.mem) {bs : List Byte} {w : Windows} (hw : s.memCheck w =
    none) (hb : w.dst.base =
    s.dstAddr.toNat) (hl : bs.length ≤ w.dst.bytes) : Memory.wf (s.mem.writeBytes s.dstAddr.toNat bs) := by
  apply Memory.wf_writeBytes hm
  by_cases h : w.dst.count = 0
  · left; rw [Window.bytes, h, Nat.zero_mul] at hl; exact List.length_eq_zero_iff.mp (by omega)
  · right; have := Windows.dst_le_of_memCheck hw h; rw [hb] at this; omega

/-- What a symbol register stores has `SYM_W` bits (10_state R45). -/
theorem symFits_clipSym (w x) : SymFits w (clipSym w x) := clipSym_lt w x

end Sys2Proof.Machine
end

