-- ==== Sys2Proof/Laws/PerInstr.lean ====
section
/-! SUPPORT. The per-command family `LegalWord`: the word of a command passes `Legal` exactly when the command is
well formed in the configuration (30_encoding R126). -/

namespace Sys2Proof.Laws.LegalWord

/-- `a ≤ b` is the negation of `b < a`, as Booleans. -/
theorem decide_le_eq_not_lt (a b : Nat) : decide (a ≤ b) = !decide (b < a) := by
  by_cases h : b < a
  · simp [h]
  · simp [h, Nat.le_of_not_lt h]

/-- The word of `i` is legal in a configuration exactly when `i` is well formed there. -/
def Statement (i : Instr) : Prop := ∀ c : Config, legal c (encode i) = wellFormed c i

theorem nop : Statement .nop := by
  intro c
  simp [legal, encode, wellFormed, opcodes]

theorem encInit (k : BitVec 4) : Statement (.encInit k) := by
  intro c
  simpa [legal, encode, wellFormed, opcodes] using decide_le_eq_not_lt c.nctx k.toNat

theorem encFeed (k : BitVec 4) : Statement (.encFeed k) := by
  intro c
  simpa [legal, encode, wellFormed, opcodes] using decide_le_eq_not_lt c.nctx k.toNat

theorem encFinal (k : BitVec 4) : Statement (.encFinal k) := by
  intro c
  simpa [legal, encode, wellFormed, opcodes] using decide_le_eq_not_lt c.nctx k.toNat

theorem decInit (k : BitVec 4) : Statement (.decInit k) := by
  intro c
  simpa [legal, encode, wellFormed, opcodes] using decide_le_eq_not_lt c.nctx k.toNat

theorem decFeed (k : BitVec 4) : Statement (.decFeed k) := by
  intro c
  simpa [legal, encode, wellFormed, opcodes] using decide_le_eq_not_lt c.nctx k.toNat

theorem decFinal (k : BitVec 4) : Statement (.decFinal k) := by
  intro c
  simpa [legal, encode, wellFormed, opcodes] using decide_le_eq_not_lt c.nctx k.toNat

theorem uenc2 : Statement .uenc2 := by
  intro c
  simp [legal, encode, wellFormed, opcodes]

theorem uenc1 : Statement .uenc1 := by
  intro c
  simp [legal, encode, wellFormed, opcodes]

theorem udec4 : Statement .udec4 := by
  intro c
  simp [legal, encode, wellFormed, opcodes]

theorem udec2 : Statement .udec2 := by
  intro c
  simp [legal, encode, wellFormed, opcodes]

theorem lutSym (x : Cls) : Statement (.lutSym x) := by
  intro c
  cases x <;> rfl

theorem lutCls : Statement .lutCls := by
  intro c
  simp [legal, encode, wellFormed, opcodes]

theorem divc (x : Divisor) : Statement (.divc x) := by
  intro c
  cases x <;> rfl

theorem venc : Statement .venc := by
  intro c
  simp [legal, encode, wellFormed, opcodes]

theorem vdec : Statement .vdec := by
  intro c
  simp [legal, encode, wellFormed, opcodes]

end Sys2Proof.Laws.LegalWord
end

