-- ==== Sys2Proof/Laws/Units.lean ====
section
/-! SUPPORT. The unit codec on valid alphabets: the encoders as digits, the decoders on digits,
    and the facts about digits. -/

namespace Sys2Proof.Machine

/-! ## Masks and digits -/

/-- Clearing bit 15 is the remainder by 0x8000 (41_unit_codec R184). -/
theorem toNat_and_7FFF (v : UnitVal) : (v &&& 0x7FFF).toNat = v.toNat % 32768 := by
  rw [BitVec.toNat_and]; exact Nat.and_two_pow_sub_one_eq_mod _ 15

/-- Clearing bit 7 is the remainder by 0x80 (41_unit_codec R184). -/
theorem toNat_and_7F (v : Byte) : (v &&& 0x7F).toNat = v.toNat % 128 := by
  rw [BitVec.toNat_and]; exact Nat.and_two_pow_sub_one_eq_mod _ 7

/-- Setting bit 15 of a value below it adds 0x8000. -/
theorem toNat_or_8000 (n : Nat) (h : ¬ 0x7FFF < n) : (BitVec.ofNat 16 n ||| 0x8000).toNat = n + 32768 := by
  have := toNat_shift_or (n := 16) 1 (BitVec.ofNat 16 n) 15 (by rw [BitVec.toNat_ofNat]; omega) (by decide)
  rw [BitVec.or_comm] at this
  rw [BitVec.toNat_ofNat, Nat.mod_eq_of_lt (by omega)] at this
  refine Eq.trans this ?_
  show 1 * 2^15 + n = _
  omega

/-- Setting bit 7 of a value below it adds 0x80. -/
theorem toNat_or_80 (n : Nat) (h : ¬ 0x7F < n) : (BitVec.ofNat 8 n ||| 0x80).toNat = n + 128 := by
  have := toNat_shift_or (n := 8) 1 (BitVec.ofNat 8 n) 7 (by rw [BitVec.toNat_ofNat]; omega) (by decide)
  rw [BitVec.or_comm] at this
  rw [BitVec.toNat_ofNat, Nat.mod_eq_of_lt (by omega)] at this
  refine Eq.trans this ?_
  show 1 * 2^7 + n = _
  omega

/-- A 16-bit value zero-extended to 32 bits is that value. -/
theorem setWidth_ofNat16 (n : Nat) (h : n < 65536) : (BitVec.ofNat 16 n).setWidth 32 = BitVec.ofNat 32 n := by
  apply BitVec.eq_of_toNat_eq
  rw [BitVec.toNat_setWidth, BitVec.toNat_ofNat, BitVec.toNat_ofNat, Nat.mod_eq_of_lt (a := n) (b := 2^16) h]

/-- An 8-bit value zero-extended to 32 bits is that value. -/
theorem setWidth_ofNat8 (n : Nat) (h : n < 256) : (BitVec.ofNat 8 n).setWidth 32 = BitVec.ofNat 32 n := by
  apply BitVec.eq_of_toNat_eq
  rw [BitVec.toNat_setWidth, BitVec.toNat_ofNat, BitVec.toNat_ofNat, Nat.mod_eq_of_lt (a := n) (b := 2^8) h]

/-- The weighted sum of the digits of a value is that value. -/
theorem digits_sum (w : Nat) : w / 2250 * 2250 + w % 2250 / 150 * 150 + w % 150 / 10 * 10 + w % 10 = w := by omega

/-- The digits of a weighted sum are the digits it was made of. -/
theorem digits_unique (ir ic inn ib : Nat) (h1 : ir < 15) (h2 : ic < 15) (h3 : inn < 15) (h4 : ib < 10) :
    (ir * 2250 + ic * 150 + inn * 10 + ib) / 2250 = ir ∧ (ir * 2250 + ic * 150 + inn * 10 + ib) % 2250 / 150 = ic ∧
    (ir * 2250 + ic * 150 + inn * 10 + ib) % 150 / 10 = inn ∧ (ir * 2250 + ic * 150 + inn * 10 + ib) % 10 =
    ib := by
  omega

/-! ## Encoders -/

/-- `Enc2` as digits in an orientation (41_unit_codec R180). -/
theorem enc2_eq_orientedGroup (a : Alphabet) (v : UnitVal) :
    enc2 a v =
    orientedGroup a (decide (32768 ≤ v.toNat)) (v.toNat % 32768 / 2250) (v.toNat % 32768 % 2250 / 150)
    (v.toNat % 32768 % 150 / 10) (v.toNat % 32768 % 10) := by
  simp only [enc2, orientedGroup, toNat_and_7FFF]
  by_cases h : 32768 ≤ v.toNat
  · have : 0x7FFF < v.toNat := h
    simp only [this, h, decide_true, if_true]
  · have h1 : ¬ 0x7FFF < v.toNat := h
    have h2 : v.toNat % 32768 = v.toNat := Nat.mod_eq_of_lt (by omega)
    simp only [h1, h, decide_false, if_false, h2, Bool.false_eq_true]

/-- `Enc1` as digits (41_unit_codec R181). -/
theorem enc1_eq (a : Alphabet) (x : Byte) :
    enc1 a x =
      if 128 ≤ x.toNat then { s0 := a.at .N ((x.toNat - 128) / 10), s1 := a.at .B ((x.toNat - 128) % 10) }
      else { s0 := a.at .R (x.toNat / 15), s1 := a.at .C (x.toNat % 15) } := by
  have := x.isLt
  simp only [enc1, toNat_and_7F]
  by_cases h : 128 ≤ x.toNat
  · have h1 : 0x7F < x.toNat := h
    have : x.toNat % 128 = x.toNat - 128 := by omega
    simp only [h1, h, if_true, this]
  · have h1 : ¬ 0x7F < x.toNat := h
    simp only [h1, h, if_false]

/-- The symbols of an oriented group fit `SYM_W` bits (40_alphabet_lut R150). -/
theorem orientedGroup_lt {a : Alphabet} {w} (hv : a.Valid w) (hi : Bool) {ir ic inn ib : Nat} (h1 : ir < 15)
    (h2 : ic < 15) (h3 : inn < 15) (h4 : ib < 10) :
   let g := orientedGroup a hi ir ic inn ib
   g.s0.toNat < 2 ^ w.bits ∧ g.s1.toNat < 2 ^ w.bits ∧ g.s2.toNat < 2 ^ w.bits ∧ g.s3.toNat < 2 ^ w.bits := by
  have a1 := hv.at_lt (c := .R) h1
  have a2 := hv.at_lt (c := .C) h2
  have a3 := hv.at_lt (c := .N) h3
  have a4 := hv.at_lt (c := .B) h4
  cases hi <;> simp only [orientedGroup, if_true, if_false, Bool.false_eq_true] <;> simp only [*, and_self]

/-- A symbol of a valid alphabet fits its `ES` bytes. -/
theorem Alphabet.Valid.at_fits {a : Alphabet} {w} (hv : a.Valid w) (c : Cls) {i : Nat} (h : i < c.size) :
    (a.at c i).toNat < 256 ^ w.bytes := by
  rw [← SymWidth.two_pow_bits]; exact hv.at_lt h

/-- The symbols of `Enc2` fit their `ES` bytes. -/
theorem enc2_fits {a : Alphabet} {w} (hv : a.Valid w) (v : UnitVal) (q : Nat) :
    ((enc2 a v).toList.getD q 0).toNat < 256 ^ w.bytes := by
  have hm : (v &&& 0x7FFF).toNat < 32768 := by
    rw [BitVec.toNat_and]; exact Nat.lt_of_le_of_lt Nat.and_le_right (by decide)
  have hz : (0 : Sym).toNat < 256 ^ w.bytes := by cases w <;> decide
  unfold enc2
  by_cases hh : 0x7FFF < v.toNat
  · simp only [hh, decide_true, if_true]
    have a1 := Alphabet.Valid.at_fits hv .R (i := (v &&& 0x7FFF).toNat / 2250) (by simp only [Cls.size]; omega)
    have a2 := Alphabet.Valid.at_fits hv .C (i := (v &&& 0x7FFF).toNat % 2250 / 150)
        (by simp only [Cls.size]; omega)
    have a3 := Alphabet.Valid.at_fits hv .N (i := (v &&& 0x7FFF).toNat % 150 / 10)
        (by simp only [Cls.size]; omega)
    have a4 := Alphabet.Valid.at_fits hv .B (i := (v &&& 0x7FFF).toNat % 10) (by simp only [Cls.size]; omega)
    match q with
    | 0 => exact a3
    | 1 => exact a4
    | 2 => exact a1
    | 3 => exact a2
    | q+4 => exact hz
  · simp only [hh, decide_false, if_false, Bool.false_eq_true]
    have a1 := Alphabet.Valid.at_fits hv .R (i := v.toNat / 2250) (by simp only [Cls.size]; omega)
    have a2 := Alphabet.Valid.at_fits hv .C (i := v.toNat % 2250 / 150) (by simp only [Cls.size]; omega)
    have a3 := Alphabet.Valid.at_fits hv .N (i := v.toNat % 150 / 10) (by simp only [Cls.size]; omega)
    have a4 := Alphabet.Valid.at_fits hv .B (i := v.toNat % 10) (by simp only [Cls.size]; omega)
    match q with
    | 0 => exact a1
    | 1 => exact a2
    | 2 => exact a3
    | 3 => exact a4
    | q+4 => exact hz

/-- The symbols of `Enc1` fit their `ES` bytes. -/
theorem enc1_fits {a : Alphabet} {w} (hv : a.Valid w) (v : Byte) (q : Nat) :
    ((enc1 a v).toList.getD q 0).toNat < 256 ^ w.bytes := by
  have hm : (v &&& 0x7F).toNat < 128 := by
    rw [BitVec.toNat_and]; exact Nat.lt_of_le_of_lt Nat.and_le_right (by decide)
  have hz : (0 : Sym).toNat < 256 ^ w.bytes := by cases w <;> decide
  unfold enc1
  split
  · match q with
    | 0 => exact Alphabet.Valid.at_fits hv .N (i := (v &&& 0x7F).toNat / 10) (by simp only [Cls.size]; omega)
    | 1 => exact Alphabet.Valid.at_fits hv .B (i := (v &&& 0x7F).toNat % 10) (by simp only [Cls.size]; omega)
    | q+2 => exact hz
  · match q with
    | 0 => exact Alphabet.Valid.at_fits hv .R (i := v.toNat / 15) (by simp only [Cls.size]; omega)
    | 1 => exact Alphabet.Valid.at_fits hv .C (i := v.toNat % 15) (by simp only [Cls.size]; omega)
    | q+2 => exact hz

/-- Reading a stored symbol of the encoded pairs gives that symbol. -/
theorem readSym_encPairs {a : Alphabet} {w} (hv : a.Valid w) (m : Memory) (d : Nat) (b : List Byte) (u : Nat)
    (hu : u < 4 * (b.length / 2)) :
   Memory.readSym (m.writeBytes d (symBytes w.bytes (encPairs a b))) w.bytes (d + w.bytes * u) =
       (enc2 a (pairAt b (u / 4))).toList.getD (u % 4) 0 := by
  rw [readSym_writeBytes _ _ _ _ (by rw [encPairs_length]; exact hu), encPairs_getD a b hu]
  rw [encPairs_getD a b hu]; exact enc2_fits hv _ _

/-- Group `g` of the encoded pairs is `Enc2` of pair `g`. -/
theorem groupAt_encPairs (a : Alphabet) (b : List Byte) (g : Nat) (h : g < b.length / 2) :
    groupAt (encPairs a b) g = enc2 a (pairAt b g) := by
  have e : ∀ q, q < 4 → (encPairs a b).getD (4 * g + q) 0 = (enc2 a (pairAt b g)).toList.getD q 0 := by
    intro q hq
    rw [encPairs_getD a b (by omega), show (4 * g + q) / 4 = g by omega, show (4 * g + q) % 4 = q by omega]
  have e0 := e 0 (by omega)
  have e1 := e 1 (by omega)
  have e2 := e 2 (by omega)
  have e3 := e 3 (by omega)
  simp only [groupAt]
  rw [Nat.add_zero] at e0
  rw [e0, e1, e2, e3]; rfl

/-! ## Decoders -/

/-- `Dec4` of an oriented group is its weighted sum (41_unit_codec R182). -/
theorem dec4_orientedGroup {a : Alphabet} {w} (hv : a.Valid w) (high : Bool) {ir ic inn ib : Nat} (h1 : ir < 15)
    (h2 : ic < 15) (h3 : inn < 15) (h4 : ib < 10) :
   dec4 a (orientedGroup a high ir ic inn ib) =
       if 0x7FFF < ir * 2250 + ic * 150 + inn * 10 + ib then .err .outOfRange else if high then .ok
       (BitVec.ofNat 16 (ir * 2250 + ic * 150 + inn * 10 + ib) ||| 0x8000) else .ok (BitVec.ofNat 16
       (ir * 2250 + ic * 150 + inn * 10 + ib)) := by
  have a1 := hv.idx_at (c := .R) h1
  have a2 := hv.idx_at (c := .C) h2
  have a3 := hv.idx_at (c := .N) h3
  have a4 := hv.idx_at (c := .B) h4
  cases high
  · simp [orientedGroup, dec4, Alphabet.isR, a1, groupValue, a2, a3, a4]
  · have := hv.idx_at_ne (c := .N) (d := .R) (by decide) h3
    simp [orientedGroup, dec4, Alphabet.isR, a1, groupValue, a2, a3, a4, this]

/-- What a group that names its classes was made of, unless it is an invalid symbol. -/
theorem groupValue_inv {a : Alphabet} {w} (hv : a.Valid w) {p : Bool} {r c n b : Sym} {u}
    (h : groupValue a p r c n b = u) (hu : u ≠ .err .invalidSymbol) :
    ∃ ir ic inn ib, ir < 15 ∧ ic < 15 ∧ inn < 15 ∧ ib < 10 ∧
      r = a.at .R ir ∧ c = a.at .C ic ∧ n = a.at .N inn ∧ b = a.at .B ib ∧
      u = if 0x7FFF < ir * 2250 + ic * 150 + inn * 10 + ib then .err .outOfRange
        else if p then .ok (BitVec.ofNat 16 (ir * 2250 + ic * 150 + inn * 10 + ib) ||| 0x8000)
        else .ok (BitVec.ofNat 16 (ir * 2250 + ic * 150 + inn * 10 + ib)) := by
  simp only [groupValue] at h
  split at h
  · rename_i ir ic inn ib e1 e2 e3 e4
    obtain ⟨l1, e1⟩ := hv.idx_eq_some_iff.mp e1
    obtain ⟨l2, e2⟩ := hv.idx_eq_some_iff.mp e2
    obtain ⟨l3, e3⟩ := hv.idx_eq_some_iff.mp e3
    obtain ⟨l4, e4⟩ := hv.idx_eq_some_iff.mp e4
    exact ⟨ir, ic, inn, ib, l1, l2, l3, l4, e1.symm, e2.symm, e3.symm, e4.symm, h.symm⟩
  · exact absurd h.symm hu

/-- A group that `Dec4` does not reject as an invalid symbol is an oriented group. -/
theorem dec4_inv {a : Alphabet} {w} (hv : a.Valid w) {g : Group} (hu : dec4 a g ≠ .err .invalidSymbol) :
   ∃ p ir ic inn ib, ir < 15 ∧ ic < 15 ∧ inn < 15 ∧ ib < 10 ∧ g = orientedGroup a p ir ic inn ib := by
  unfold dec4 at hu
  split at hu
  · obtain ⟨ir, ic, inn, ib, l1, l2, l3, l4, e1, e2, e3, e4, -⟩ := groupValue_inv hv rfl hu
    exact ⟨false, ir, ic, inn, ib, l1, l2, l3, l4, by cases g; simp_all [orientedGroup]⟩
  · obtain ⟨ir, ic, inn, ib, l1, l2, l3, l4, e1, e2, e3, e4, -⟩ := groupValue_inv hv rfl hu
    exact ⟨true, ir, ic, inn, ib, l1, l2, l3, l4, by cases g; simp_all [orientedGroup]⟩

/-- A tail that `Dec2` does not reject as an invalid symbol is an R,C or an N,B tail. -/
theorem dec2_inv {a : Alphabet} {w} (hv : a.Valid w) {t : Tail} (hu : dec2 a t ≠ .err .invalidSymbol) :
   (∃ i j, i < 15 ∧ j < 15 ∧ t.s0 = a.at .R i ∧ t.s1 = a.at .C j ∧ dec2 a t = tailValue false i j) ∨
   (∃ i j, i < 15 ∧ j < 10 ∧ t.s0 = a.at .N i ∧ t.s1 = a.at .B j ∧ dec2 a t = tailValue true i j) := by
  unfold dec2 at hu ⊢
  split at hu
  · rename_i i j e1 e2
    obtain ⟨l1, d1⟩ := hv.idx_eq_some_iff.mp e1
    obtain ⟨l2, d2⟩ := hv.idx_eq_some_iff.mp e2
    exact .inl ⟨i, j, l1, l2, d1.symm, d2.symm, by simp [e1, e2]⟩
  · rename_i hn
    split at hu
    · rename_i i j e1 e2
      obtain ⟨l1, d1⟩ := hv.idx_eq_some_iff.mp e1
      obtain ⟨l2, d2⟩ := hv.idx_eq_some_iff.mp e2
      refine .inr ⟨i, j, l1, l2, d1.symm, d2.symm, rfl⟩
    · exact absurd rfl hu

/-! ## The divider and the classifier -/

/-- The reciprocal divider is exact on its domain (43_vector_divider R252). -/
theorem divC_eq (d : Divisor) (x : Nat) (h : x < 32768) :
    divC x d = (x / Divisor.value d, x % Divisor.value d) := by
  cases d <;> simp only [divC, recip, Divisor.value, Nat.shiftRight_eq_div_pow,
      Prod.mk.injEq] <;> constructor <;> omega

/-- The orientation test, by classification. -/
theorem Alphabet.isR_iff {a : Alphabet} {x : Sym} :
    Alphabet.isR a x = true ↔ ∃ i, a.classify x = some (.R, i) := by
  rw [Alphabet.isR, Option.isSome_iff_exists]
  simp only [Alphabet.idx_eq_some_iff]

/-- The decode lane with its orientation test named. -/
theorem vDecLane_eq (a : Alphabet) (g : Group) :
    vDecLane a g =
    if Alphabet.isR a g.s0 then laneValue false (a.classify g.s0) (a.classify g.s1) (a.classify g.s2)
    (a.classify g.s3) else laneValue true (a.classify g.s2) (a.classify g.s3) (a.classify g.s0)
    (a.classify g.s1) := by
  by_cases h : Alphabet.isR a g.s0 = true
  · obtain ⟨i, hi⟩ := Alphabet.isR_iff.mp h
    simp [vDecLane, h, hi]
  · rw [if_neg h]; rw [Alphabet.isR_iff] at h
    simp only [vDecLane]
    split
    · rename_i hi; exact absurd ⟨_, hi⟩ h
    · rfl

end Sys2Proof.Machine
end

