-- ==== Sys2Proof/Tests/Slice0.lean ====
section
/-! SUPPORT. Tests. Expected results are those of spec/95_test_vectors.md (named by its section), or the worked
examples of the rule named. Then one witness per statement that has hypotheses: a concrete state that meets them. -/

namespace Sys2Proof.Tests

open Sys2Proof Sys2Proof.Machine

/-! ## Helpers -/

/-- The answer is a next state with property `p`. -/
def passes (o : Host.Outcome State Fault Refusal) (p : State → Bool) : Bool :=
  match o with
  | .next t => p t
  | .fault _ => false
  | .refused _ => false

/-- The state after reset with the operand registers set. -/
def operands (src len dst cap : Word) : State :=
  { State.reset with srcAddr := src, srcLen := len, dstAddr := dst, dstCap := cap }

/-- `s` with encode context 0 OPEN, and a pending byte or none. -/
def encOpen (s : State) (carry : Option Byte) : State :=
  { s with enc := [match carry with
    | some b => { cached := true, trailingByte := b, phase := .opened }
    | none => { cached := false, trailingByte := 0, phase := .opened }] }

/-- `s` with decode context 0 OPEN and `n` buffered symbols. -/
def decOpen (s : State) (n : Fin 4) (t0 t1 t2 : Sym) : State :=
  { s with dec := [{ count := n, trail0 := t0, trail1 := t1, trail2 := t2, trail3 := 0, phase := .opened }] }

/-- `s` with bytes stored from `a` upward. -/
def bytesAt (s : State) (a : Nat) (bs : List Byte) : State := { s with mem := s.mem.writeBytes a bs }

/-- `s` with symbols stored from `a` upward. -/
def symsAt (s : State) (a : Nat) (l : List Sym) : State := bytesAt s a (symBytes s.cfg.es l)

/-- The `n` symbols from `a` upward. -/
def symsOf (s : State) (a n : Nat) : List Sym := s.mem.readSyms s.cfg.es a n

/-- The `n` bytes from `a` upward. -/
def bytesOf (s : State) (a n : Nat) : List Byte := s.mem.readBytes a n

/-- The default configuration with `NCTX = 2`. -/
def cfg2 : Config := { Config.default with nctx := 2 }

/-- The default configuration without the vector unit. -/
def cfgNoVec : Config := { Config.default with hasVec := false }

/-- The default configuration with `SYM_W = 16`. -/
def cfg16 : Config := { Config.default with symW := .w16 }

/-- `STATUS` after the word `w` is accepted and performed with `NCTX = 2`. -/
def statusOf (w : Nat) : Option Word :=
  match step ((State.resetWith cfg2).withFetchWord 32 w) with
  | .next t => some (Status.word t.status)
  | .fault _ => none
  | .refused _ => none

/-! ## Ill-formed and rejected words (30_encoding R126) -/

theorem test_illformed_context : wellFormed Config.default (.encFeed 1) = false := by decide

theorem test_illformed_decode_context : wellFormed cfg2 (.decInit 2) = false := by decide

theorem test_wellformed_context : wellFormed cfg2 (.encFeed 1) = true := by decide

theorem test_illformed_venc : wellFormed cfgNoVec .venc = false := by decide

theorem test_illformed_vdec : wellFormed cfgNoVec .vdec = false := by decide

theorem test_rejects_reserved_bits : decode 0x00010002 = .rejected .reservedBits := by decide

theorem test_rejects_reserved_opcode : decode 0x00000007 = .rejected .reservedOpcode := by decide

theorem test_rejects_ctx : decode 0x00000110 = .rejected .ctxNotZero := by decide

theorem test_rejects_sel : decode 0x00001021 = .rejected .selNotZero := by decide

theorem test_rejects_reserved_sel : decode 0x00004030 = .rejected .selReserved := by decide

/-! ## One word for each command (30_encoding R121, R125, R142; 95_test_vectors L2, L3) -/

theorem test_word_nop : decode 0x00000000 = .command .nop := by decide
theorem test_word_encInit : decode 0x00000101 = .command (.encInit 1) := by decide
theorem test_word_encFeed : decode 0x00000202 = .command (.encFeed 2) := by decide
theorem test_word_encFinal : decode 0x00000F03 = .command (.encFinal 15) := by decide
theorem test_word_decInit : decode 0x00000004 = .command (.decInit 0) := by decide
theorem test_word_decFeed : decode 0x00000305 = .command (.decFeed 3) := by decide
theorem test_word_decFinal : decode 0x00000806 = .command (.decFinal 8) := by decide
theorem test_word_uenc2 : decode 0x00000010 = .command .uenc2 := by decide
theorem test_word_uenc1 : decode 0x00000011 = .command .uenc1 := by decide
theorem test_word_udec4 : decode 0x00000012 = .command .udec4 := by decide
theorem test_word_udec2 : decode 0x00000013 = .command .udec2 := by decide
theorem test_word_lutSym : decode 0x00003020 = .command (.lutSym .B) := by decide
theorem test_word_lutCls : decode 0x00000021 = .command .lutCls := by decide
theorem test_word_divc : decode 0x00002030 = .command (.divc .sb) := by decide
theorem test_word_venc : decode 0x00000040 = .command .venc := by decide
theorem test_word_vdec : decode 0x00000041 = .command .vdec := by decide

/-- The words of the table through the host's reading of them. -/
theorem test_table_words :
    decodeTableWord 32 0x00000000 = some .nop ∧ decodeTableWord 32 0x00000005 = some (.decFeed 0) ∧
    decodeTableWord 32 0x00003030 = some (.divc .sc) ∧ decodeTableWord 32 0x00010000 = none := by decide

/-! ## Commands -/

/-- R296, with L2.8: NOP reports NONE. -/
theorem test_nop : statusOf 0x00000000 = some 0 := by decide

/-- L2.8: an illegal word reports ILLEGAL_CMD. -/
theorem test_illegal_words :
    [0x201, 0x110, 0x4020, 0x1000, 0x100, 0x42, 0xFF, 0x80000000].map statusOf = List.replicate 8 (some 0x60) := by
  decide

/-- L3 P1: ENC_INIT opens context 0. -/
theorem test_encInit : passes (exec (.encInit 0) State.reset)
    (fun t => readReg t 0x100 == 0x01000000 && Status.word t.status == 0) = true := by decide

/-- R210: ENC_INIT discards a pending byte. -/
theorem test_encInit_discards : passes (exec (.encInit 0) (encOpen State.reset (some 0x43)))
    (fun t => readReg t 0x100 == 0x01000000) = true := by decide

/-- L2.5: three bytes from Idle write one group and cache the third. -/
theorem test_encFeed : passes
    (exec (.encFeed 0) (bytesAt (encOpen (operands 0x1000 3 0x2000 4) none) 0x1000 [0x41, 0x42, 0x43]))
    (fun t => symsOf t 0x2000 5 == [0x0159, 0x010A, 0x0146, 0x0185, 0] && t.result == 4 &&
      readReg t 0x100 == 0x01004301) = true := by decide

/-- 20_memory R82: a symbol lies least significant byte first, in two bytes when SYM_W is 16. -/
theorem test_symbol_bytes :
    passes (exec (.encFinal 0) (encOpen (operands 0 0 0x2000 2) (some 0xFF)))
      (fun t => bytesOf t 0x2000 8 == [0xF9, 0x01, 0, 0, 0xDF, 0, 0, 0]) = true ∧
    passes (exec (.encFinal 0) { encOpen (operands 0 0 0x2000 2) (some 0xFF) with cfg := cfg16 })
      (fun t => bytesOf t 0x2000 5 == [0xF9, 0x01, 0xDF, 0, 0]) = true := by decide

/-- L2.5: the pending byte is the high byte of the next unit. -/
theorem test_encFeed_carry : passes
    (exec (.encFeed 0) (bytesAt (encOpen (operands 0x1000 2 0x2000 4) (some 0x7A)) 0x1000 [0x41, 0x42]))
    (fun t => symsOf t 0x2000 4 == [0x024C, 0x023B, 0x019E, 0x00DF] && readReg t 0x100 == 0x01004201) = true := by
  decide

/-- L2.5: the tail of 0xFF, high form. -/
theorem test_encFinal : passes (exec (.encFinal 0) (encOpen (operands 0 0 0x2000 2) (some 0xFF)))
    (fun t => symsOf t 0x2000 2 == [0x01F9, 0x00DF] && t.result == 2 && readReg t 0x100 == 0x02000000) = true := by
  decide

/-- L2.5: too small a window fails CAPACITY and keeps the byte pending. -/
theorem test_encFinal_capacity : passes (exec (.encFinal 0) (encOpen (operands 0 0 0x2000 1) (some 0x43)))
    (fun t => Status.word t.status == 0x40 && t.result == 0 && readReg t 0x100 == 0x01004301) = true := by decide

/-- L3 P2: DEC_INIT opens context 0. -/
theorem test_decInit : passes (exec (.decInit 0) State.reset) (fun t => readReg t 0x200 == 0x01000000) = true := by
  decide

/-- L2.6: five symbols decode one group and buffer the fifth. -/
theorem test_decFeed : passes (exec (.decFeed 0) (symsAt (decOpen (operands 0x3000 5 0x4000 2) 0 0 0 0) 0x3000
      [0x0159, 0x010A, 0x0146, 0x0185, 0x0159]))
    (fun t => bytesOf t 0x4000 2 == [0x41, 0x42] && t.result == 2 && readReg t 0x200 == 0x01000001 &&
      readReg t 0x204 == 0x0159) = true := by decide

/-- L2.6: the group after a good one is out of range: the prefix is written and the context FAILED. -/
theorem test_decFeed_error : passes (exec (.decFeed 0) (symsAt (decOpen (operands 0x3000 8 0x4000 16) 0 0 0 0) 0x3000
      [0x0159, 0x010A, 0x0146, 0x0185, 0x024D, 0x023C, 0x0235, 0x00FE]))
    (fun t => bytesOf t 0x4000 2 == [0x41, 0x42] && t.result == 2 && readReg t 0x200 == 0x03000000 &&
      Status.word t.status == 0x20) = true := by decide

/-- L2.6: a buffered N,B tail. -/
theorem test_decFinal : passes (exec (.decFinal 0) (decOpen (operands 0 0 0x4000 1) 2 0x01F9 0x00DF 0))
    (fun t => bytesOf t 0x4000 1 == [0xFF] && t.result == 1 && readReg t 0x200 == 0x02000000) = true := by decide

/-- L2.6: three buffered symbols are a malformed tail. -/
theorem test_decFinal_malformed :
    passes (exec (.decFinal 0) (decOpen (operands 0 0 0x4000 0) 3 0x0159 0x010A 0x0146))
      (fun t => Status.word t.status == 0x30 && readReg t 0x200 == 0x03000000) = true := by decide

/-- L2.2. -/
theorem test_uenc2 : passes (exec .uenc2 { State.reset with unitIn := 0x4142 })
    (fun t => [t.sym0, t.sym1, t.sym2, t.sym3] == [0x0159, 0x010A, 0x0146, 0x0185]) = true := by decide

/-- L2.2: the high order. -/
theorem test_uenc2_high : passes (exec .uenc2 { State.reset with unitIn := 0xABCD })
    (fun t => [t.sym0, t.sym1, t.sym2, t.sym3] == [0x01F8, 0x0181, 0x0156, 0x023C]) = true := by decide

/-- L1.1, with 90_conflicts C1: 0x41 is R[4] C[5]. -/
theorem test_uenc1 : passes (exec .uenc1 { State.reset with unitIn := 0x41 })
    (fun t => [t.sym0, t.sym1, t.sym2] == [0x0156, 0x0109, 0]) = true := by decide

/-- L2.2: the high form divides the masked value. -/
theorem test_uenc1_high : passes (exec .uenc1 { State.reset with unitIn := 0xC1 })
    (fun t => [t.sym0, t.sym1] == [0x0147, 0x0184]) = true := by decide

/-- L2.3: the largest value of the high order. -/
theorem test_udec4 : passes
    (exec .udec4 { State.reset with sym0 := 0x0147, sym1 := 0x00DF, sym2 := 0x024D, sym3 := 0x010C })
    (fun t => t.unitOut == 0xFFFF) = true := by decide

/-- L2.3: the smallest sum out of range. -/
theorem test_udec4_range : passes
    (exec .udec4 { State.reset with sym0 := 0x024D, sym1 := 0x010C, sym2 := 0x0147, sym3 := 0x00DE, unitOut := 7 })
    (fun t => t.unitOut == 7 && Status.word t.status == 0x20) = true := by decide

/-- L2.3: a high tail. -/
theorem test_udec2 : passes (exec .udec2 { State.reset with sym0 := 0x01F9, sym1 := 0x00DF })
    (fun t => t.unitOut == 0xFF) = true := by decide

/-- L2.3: R[0] B[0] fits neither form. -/
theorem test_udec2_invalid : passes (exec .udec2 { State.reset with sym0 := 0x72, sym1 := 0x62 })
    (fun t => Status.word t.status == 0x10) = true := by decide

/-- L2.1. -/
theorem test_lutSym : passes (exec (.lutSym .R) { State.reset with unitIn := 9 })
    (fun t => t.sym0 == 0x210) = true := by decide

/-- L2.1: class B has ten symbols. -/
theorem test_lutSym_range : passes (exec (.lutSym .B) { State.reset with unitIn := 10, sym0 := 0xDEAD })
    (fun t => t.sym0 == 0xDEAD && Status.word t.status == 0xA0) = true := by decide

/-- L2.1: C[10]. -/
theorem test_lutCls : passes (exec .lutCls { State.reset with sym0 := 0x187 })
    (fun t => t.unitOut == 0x11A) = true := by decide

/-- L2.1: a foreign symbol is no error. -/
theorem test_lutCls_foreign : passes (exec .lutCls { State.reset with sym0 := 0x10072, unitOut := 7 })
    (fun t => t.unitOut == 0 && Status.word t.status == 0) = true := by decide

/-- L2.4. -/
theorem test_divc : passes (exec (.divc .scnb) { State.reset with unitIn := 0x7FFF })
    (fun t => t.unitOut == 0x04F3000E) = true := by decide

/-- L2.4. -/
theorem test_divc_tail : passes (exec (.divc .sc) { State.reset with unitIn := 127 })
    (fun t => t.unitOut == 0x00070008) = true := by decide

/-- L2.7: 32 zero bytes. -/
theorem test_venc : passes (exec .venc (operands 0x1000 32 0x2000 64))
    (fun t => symsOf t 0x2000 8 == [0x72, 0x63, 0x6E, 0x62, 0x72, 0x63, 0x6E, 0x62] && t.result == 64) = true := by
  decide +kernel

/-- L2.7. -/
theorem test_venc_partial : passes (exec .venc (operands 0x1000 33 0x2000 0))
    (fun t => Status.word t.status == 0xA0 && t.result == 0) = true := by decide

/-- 64 symbols of sixteen zero units, at 0x2000. -/
def zeroGranule : State :=
  symsAt (operands 0x2000 64 0x5000 32) 0x2000 (List.replicate 16 [0x72, 0x63, 0x6E, 0x62]).flatten

/-- L2.7: they decode to 32 zero bytes, and no more is written. -/
theorem test_vdec : passes (exec .vdec (bytesAt zeroGranule 0x501E [0xEE, 0xEE, 0xEE]))
    (fun t => bytesOf t 0x501E 3 == [0, 0, 0xEE] && t.result == 32) = true := by decide +kernel

/-- L2.7: a foreign symbol at 23 fails granule 0. -/
theorem test_vdec_fails : passes (exec .vdec (symsAt zeroGranule (0x2000 + 4 * 23) [0x41]))
    (fun t => Status.word t.status == 0x90 && t.result == 0) = true := by decide +kernel

/-! ## Memory checks (L2.9) -/

/-- `ERR` and `RESULT` of ENC_FEED on an OPEN Idle context with the operands given. -/
def feedCheck (src len dst cap : Word) : Option (Word × Word) :=
  match exec (.encFeed 0) (encOpen (operands src len dst cap) none) with
  | .next t => some (Status.word t.status >>> 4, t.result)
  | .fault _ => none
  | .refused _ => none

theorem test_memcheck_rows :
    feedCheck 0x1000 1 0x2002 0 = some (0, 0) ∧ feedCheck 0x1000 2 0x2002 4 = some (7, 0) ∧
    feedCheck 0x1000 2 0x2002 3 = some (4, 0) ∧ feedCheck 0x2003 2 0x2000 4 = some (7, 0) ∧
    feedCheck 0x2000 2 0x2008 4 = some (0, 4) ∧ feedCheck 0xFFFFFFFF 2 0x2000 4 = some (7, 0) := by decide

/-- L2.9: with nothing accessible from 0x10000 on. -/
theorem test_bus_error : passes
    (exec (.encFeed 0) { encOpen (operands 0x1000 2 0xFFF8 4) none with
      cfg := { Config.default with holes := [(0x10000, 0xFFFF0000)] } })
    (fun t => Status.word t.status == 0x80 && t.result == 0) = true := by decide

/-! ## The host interface (L2.8) -/

theorem test_cap_words :
    [Config.default, cfg2, cfgNoVec, cfg16].map capWord = [0x00012001, 0x00012011, 0x00012000, 0x00011001] := by
  decide

/-- `s` with ENC_FEED pending. -/
def feedPending : State := State.accept (encOpen (operands 0x1000 2 0x2000 4) none) 0x00000002

/-- R293: a write while busy is dropped and sets HZ. -/
theorem test_write_while_busy : passes (hostAct (.regWrite 0x01C 4 0) feedPending)
    (fun t => t.dstCap == 4 && Status.word t.status == 0x101) = true := by decide

/-- R293: HZ outlives the completion. -/
theorem test_hz_survives : passes (complete feedPending.markHz)
    (fun t => Status.word t.status == 0x100 && t.result == 4) = true := by decide

/-- R296: `EXEC NOP` clears ERR and HZ. -/
theorem test_nop_clears : passes (hostAct (.regWrite 0x008 4 0)
      { State.reset with status := { busy := false, err := .badState, hz := true } })
    (fun t => Status.word t.status == 1 && passes (step t) (fun u => Status.word u.status == 0)) = true := by decide

/-- R50: read-only and unmapped offsets ignore writes; absent views read 0. -/
theorem test_ignored_writes :
    passes (hostAct (.regWrite 0x020 4 9) feedPending) (fun t => t == feedPending) = true ∧
    readReg State.reset 0x040 = 0 ∧ readReg State.reset 0x220 = 0 := by decide

/-- R45: with `SYM_W = 16` a symbol write keeps bits 15:0. -/
theorem test_symbol_write : passes (hostAct (.regWrite 0x030 4 0x00010072) (State.resetWith cfg16))
    (fun t => readReg t 0x030 == 0x72) = true := by decide

/-- R366: the windows of a pending command are protected. -/
theorem test_window_hazard :
    hostAct (.memWrite 0x1001 1) feedPending = .refused (.windowHazard 0x1001) ∧
    hostAct (.memRead 0x200F) feedPending = .refused (.windowHazard 0x200F) ∧
    passes (hostAct (.memWrite 0x2010 7) feedPending) (fun t => t.mem.read 0x2010 == 7) = true ∧
    passes (hostAct (.memRead 0x1001) feedPending) (fun t => t.hostRead == 0) = true :=
  ⟨rfl, rfl, by decide, by decide⟩

/-- R360: reset of an idle block. -/
theorem test_reset : passes (hostAct .reset (encOpen { State.reset with unitOut := 5 } (some 1)))
    (fun t => t == State.reset) = true := by decide

/-! ## Witnesses: one for each statement with hypotheses -/

/-- `s` with the word `w` pending. -/
def pending (s : State) (w : Word) : State := State.accept s w

/-- The state answered, or `d`. -/
def nextOr (o : Host.Outcome State Fault Refusal) (d : State) : State :=
  match o with
  | .next t => t
  | .fault _ => d
  | .refused _ => d

theorem next_of_passes {o : Host.Outcome State Fault Refusal} {p : State → Bool} (h : passes o p = true)
    (d : State) : o = .next (nextOr o d) ∧ p (nextOr o d) = true := by
  cases o with
  | next t => exact ⟨rfl, h⟩
  | fault _ => cases h
  | refused _ => cases h

/-- The default alphabet meets R150 (checked: R152). -/
theorem default_valid : defaultAlphabet.Valid .w32 := by
  refine ⟨by decide, by decide, by decide, by decide, ?_, fun s _ => s.isLt⟩
  refine List.Pairwise.of_map BitVec.toNat (S := (· ≠ ·)) (fun _ _ h e => h (congrArg _ e)) ?_
  decide +kernel

theorem test_witness_DecodeAndEncodeAgree :
    decode 0x00003020 = .command (.lutSym .B) ∧ (0x00003020 : Word) = encode (.lutSym .B) := by decide

theorem test_witness_LegalIsDecodableAndWellFormed : legal cfg2 0x00000101 = true ∧ legal cfg2 0x00000201 = false := by
  decide

theorem test_witness_StepRunsDecodedCommand :
    (pending State.reset 0x2).status.busy = true ∧ decode (pending State.reset 0x2).cmd = .command (.encFeed 0) ∧
    (pending State.reset 0x2).inputs = [] ∧
    (pending { State.reset with inputs := [.yield] } 0x2).inputs = .yield :: [] := by decide

theorem test_witness_StepFollowsInputs :
    ({ State.reset with inputs := [.reset, .yield] }).inputs = .reset :: [.yield] ∧
    State.reset.status.busy = false ∧ State.reset.inputs = [] := by decide

theorem test_witness_EveryWordRunsOrIsIllegal :
    (pending State.reset 0x102).status.busy = true ∧ (pending State.reset 0x002).status.busy = true ∧
    legal (pending State.reset 0x102).cfg (pending State.reset 0x102).cmd = false ∧
    legal (pending State.reset 0x002).cfg (pending State.reset 0x002).cmd = true := by decide

theorem test_witness_AbsentContextOrUnitIsIllegal :
    wellFormed State.reset.cfg (.encFinal 1) = false ∧ wellFormed (State.resetWith cfgNoVec).cfg .vdec = false := by
  decide

theorem test_witness_EveryCommandCompletes :
    State.reset.inputs = [] ∧ ∃ rest, ({ State.reset with inputs := [.yield] }).inputs = .yield :: rest :=
  ⟨rfl, _, rfl⟩

theorem test_witness_RegistersHaveTheirWriters :
    ∃ t, exec .uenc1 { State.reset with unitIn := 0x41 } = .next t ∧ t.sym0 ≠ State.reset.sym0 :=
  ⟨_, rfl, by decide⟩

theorem test_witness_ContextsAreIndependent :
    ∃ t, exec (.encInit 1) (State.resetWith cfg2) = .next t ∧ (0 : Nat) ≠ (1 : BitVec 4).toNat :=
  ⟨_, rfl, by decide⟩

theorem test_witness_WritesStayInDestinationWindow :
    (exec (.encFeed 0) feedPending = .next (nextOr (exec (.encFeed 0) feedPending) State.reset) ∧
      (nextOr (exec (.encFeed 0) feedPending) State.reset).mem.read 0x2000 = 0x72) ∧
    (windowsOf feedPending (.encFeed 0)).dst.has 0x1FFF = false ∧
    (windowsOf feedPending (.encFeed 0)).dst.has 0x2000 = true ∧
    (windowsOf feedPending (.encFeed 0)).dst.has 0x200F = true ∧
    (windowsOf feedPending (.encFeed 0)).dst.has 0x2010 = false :=
  ⟨⟨(next_of_passes (p := fun _ => true) (by decide) _).1, by decide⟩, by decide⟩

theorem test_witness_ErrorCodesComeFromTheirCommands :
    ∃ t, exec .udec4 State.reset = .next t ∧ t.status.err = .invalidSymbol := ⟨_, rfl, by decide⟩

/-- A pair of windows: `n` bytes at `src`, `req` symbols of four bytes at `dst`. -/
def windowPair (src n dst req : Nat) : Windows :=
  { src := { base := src, count := n, es := 1 }, dst := { base := dst, count := req, es := 4 } }

/-- Each clause at the edge of its range: one symbol too many; misaligned or wrapping by one; one shared byte; one
byte that does not answer; and windows that touch, the second ending at the top of the space. -/
theorem test_witness_MemCheckReportsFirstFailure :
    State.memCheck (operands 0 0 0 3) (windowPair 0x1000 2 0x2000 4) = some .capacity ∧
    State.memCheck (operands 0 0 0 4) (windowPair 0x1000 2 0x2002 4) = some .badBuffer ∧
    State.memCheck (operands 0 0 0 4) (windowPair 0x1000 2 0xFFFFFFF4 4) = some .badBuffer ∧
    State.memCheck (operands 0 0 0 4) (windowPair 0x200F 2 0x2000 4) = some .badBuffer ∧
    State.memCheck { operands 0 0 0 4 with cfg := { Config.default with holes := [(0x200F, 1)] } }
      (windowPair 0x1000 2 0x2000 4) = some .busError ∧
    State.memCheck (operands 0 0 0 4) (windowPair 0xFFFFFFEE 2 0xFFFFFFF0 4) = none ∧
    State.memCheck (operands 0 0 0 0) (windowPair 0xFFFFFFFF 0 0x2002 0) = none := by decide

theorem test_witness_FailedChecksChangeNothingElse :
    isMemoryCommand (.decFinal 0) = true ∧ ∃ t, exec (.decFinal 0) State.reset = .next t ∧
      t.status.err ∈ [ErrCode.badState, .badOperand, .capacity, .badBuffer, .busError] := ⟨rfl, _, rfl, by decide⟩

theorem test_witness_MemCheckReportsFirstFailure_report :
    wellFormed Config.default (.encFeed 0) = true ∧
    ((encOpen (operands 0x1000 2 0x2000 3) none).encAt 0).phase = .opened ∧
    (encOpen (operands 0x1000 2 0x2000 3) none).memCheck
      (windowsOf (encOpen (operands 0x1000 2 0x2000 3) none) (.encFeed 0)) = some .capacity ∧
    (decOpen (operands 0x3001 4 0x4000 2) 0 0 0 0).memCheck
      (windowsOf (decOpen (operands 0x3001 4 0x4000 2) 0 0 0 0) (.decFeed 0)) = some .badBuffer ∧
    (operands 0 64 0x4000 31).srcLen.toNat % 64 = 0 ∧
    (operands 0 64 0x4000 31).memCheck (windowsOf (operands 0 64 0x4000 31) .vdec) = some .capacity := by decide

theorem test_witness_NopWritesOnlyStatus : opcOf 0x00000100 = 0 ∧ (0x00000100 : Word) ≠ 0 := by decide

theorem test_witness_LutSymReadsTable :
    State.reset.cfg.alphabet.Valid State.reset.cfg.symW ∧ (14 : Word).toNat < 15 ∧ 15 ≤ (15 : Word).toNat ∧
    (9 : Word).toNat < 10 ∧ 10 ≤ (10 : Word).toNat :=
  ⟨default_valid, by decide⟩

theorem test_witness_LutClsFindsSymbol :
    State.reset.cfg.alphabet.Valid State.reset.cfg.symW ∧
    defaultAlphabet.r.getD 14 0 = (0x24D : Sym) ∧ 14 < defaultAlphabet.r.length ∧
    defaultAlphabet.c.getD 14 0 = (0x23C : Sym) ∧ 14 < defaultAlphabet.c.length ∧
    defaultAlphabet.n.getD 14 0 = (0x235 : Sym) ∧ 14 < defaultAlphabet.n.length ∧
    defaultAlphabet.b.getD 9 0 = (0xFE : Sym) ∧ 9 < defaultAlphabet.b.length ∧
    (0x41 : Sym) ∉ defaultAlphabet.r ++ defaultAlphabet.c ++ defaultAlphabet.n ++ defaultAlphabet.b :=
  ⟨default_valid, by decide⟩

theorem test_witness_Uenc2WritesDigits :
    State.reset.cfg.alphabet.Valid State.reset.cfg.symW ∧ (0xFFFF : Word).toNat ≤ 0xFFFF ∧
    0xFFFF < (0x10000 : Word).toNat :=
  ⟨default_valid, by decide⟩

theorem test_witness_Uenc1WritesDigits :
    State.reset.cfg.alphabet.Valid State.reset.cfg.symW ∧ (0x7F : Word).toNat ≤ 0x7F ∧
    (0x7F < (0x80 : Word).toNat ∧ (0xFF : Word).toNat ≤ 0xFF) ∧ 0xFF < (0x100 : Word).toNat :=
  ⟨default_valid, by decide⟩

/-- L2.3: R[14] C[8] N[6] B[7] is 0x7FFF and R[14] C[8] N[6] B[8] is 0x8000, in either order. -/
theorem test_witness_Udec4SumsDigits :
    State.reset.cfg.alphabet.Valid State.reset.cfg.symW ∧
    ({ s0 := 0x024D, s1 := 0x010C, s2 := 0x0147, s3 := 0x00DF } : Group)
      = orientedGroup defaultAlphabet false 14 8 6 7 ∧ 14 * 2250 + 8 * 150 + 6 * 10 + 7 ≤ 0x7FFF ∧
    ({ s0 := 0x0147, s1 := 0x00DE, s2 := 0x024D, s3 := 0x010C } : Group)
      = orientedGroup defaultAlphabet true 14 8 6 8 ∧ 0x7FFF < 14 * 2250 + 8 * 150 + 6 * 10 + 8 :=
  ⟨default_valid, by decide⟩

/-- A group whose first symbol is foreign. -/
theorem test_witness_Udec4SumsDigits_other :
    State.reset.cfg.alphabet.Valid State.reset.cfg.symW ∧
    ∀ (high : Bool) (ir ic inn ib : Nat), ir < 15 → ic < 15 → inn < 15 → ib < 10 →
      ({ s0 := 0x41, s1 := 0x62, s2 := 0x72, s3 := 0x63 } : Group)
        ≠ orientedGroup defaultAlphabet high ir ic inn ib := by
  refine ⟨default_valid, fun high ir ic inn ib h1 _ h3 _ h => ?_⟩
  have hr : ∀ i < 15, (0x41 : Sym) ≠ defaultAlphabet.at .R i := by decide
  have hn : ∀ i < 15, (0x41 : Sym) ≠ defaultAlphabet.at .N i := by decide
  have h0 := congrArg Group.s0 h
  cases high
  · exact hr ir h1 h0
  · exact hn inn h3 h0

/-- R[8] C[7] and N[12] B[7] are 0x7F; R[8] C[8] and N[12] B[8] are 0x80. -/
theorem test_witness_Udec2SumsDigits :
    State.reset.cfg.alphabet.Valid State.reset.cfg.symW ∧
    (0x01A6 : Sym) = defaultAlphabet.at .R 8 ∧ (0x010B : Sym) = defaultAlphabet.at .C 7 ∧ 8 * 15 + 7 ≤ 0x7F ∧
    (0x010C : Sym) = defaultAlphabet.at .C 8 ∧ 0x7F < 8 * 15 + 8 ∧
    (0x01F9 : Sym) = defaultAlphabet.at .N 12 ∧ (0x00DF : Sym) = defaultAlphabet.at .B 7 ∧ 12 * 10 + 7 ≤ 0x7F ∧
    (0x00DE : Sym) = defaultAlphabet.at .B 8 ∧ 0x7F < 12 * 10 + 8 :=
  ⟨default_valid, by decide⟩

/-- R[0] B[0]. -/
theorem test_witness_Udec2SumsDigits_other :
    State.reset.cfg.alphabet.Valid State.reset.cfg.symW ∧
    (∀ ir ic, ir < 15 → ic < 15 →
      ¬ ((0x72 : Sym) = defaultAlphabet.at .R ir ∧ (0x62 : Sym) = defaultAlphabet.at .C ic)) ∧
    (∀ inn ib, inn < 15 → ib < 10 →
      ¬ ((0x72 : Sym) = defaultAlphabet.at .N inn ∧ (0x62 : Sym) = defaultAlphabet.at .B ib)) := by
  have hc : ∀ i < 15, (0x62 : Sym) ≠ defaultAlphabet.at .C i := by decide
  have hn : ∀ i < 15, (0x72 : Sym) ≠ defaultAlphabet.at .N i := by decide
  exact ⟨default_valid, fun _ ic _ h2 h => hc ic h2 h.2, fun inn _ h1 _ h => hn inn h1 h.1⟩

theorem test_witness_UnitCommandsRoundTrip :
    State.reset.cfg.alphabet.Valid State.reset.cfg.symW ∧ (0xFFFF : Word).toNat ≤ 0xFFFF ∧
    (0xFF : Word).toNat ≤ 0xFF := ⟨default_valid, by decide⟩

theorem test_witness_UnitCodecIsInverse :
    defaultAlphabet.Valid .w32 ∧
    dec4 defaultAlphabet { s0 := 0x6E, s1 := 0x62, s2 := 0x72, s3 := 0x63 } = .ok 0x8000 ∧
    dec2 defaultAlphabet { s0 := 0x01F9, s1 := 0x00DF } = .ok 0xFF :=
  ⟨default_valid, by decide⟩

theorem test_witness_DivcGivesQuotientAndRemainder :
    (0x7FFF : Word).toNat ≤ 0x7FFF ∧ 0x7FFF < (0x8000 : Word).toNat := by decide

theorem test_witness_VectorDecodeLaneIsScalar :
    vDecLane defaultAlphabet { s0 := 0x6E, s1 := 0x62, s2 := 0x72, s3 := 0x63 } = some 0x8000 ∧
    dec4 defaultAlphabet { s0 := 0x6E, s1 := 0x62, s2 := 0x72, s3 := 0x63 } = .ok 0x8000 := by decide

/-- No vector unit; one byte too many; one symbol of capacity too few; one whole granule. -/
theorem test_witness_VencEncodesEveryUnit :
    (State.resetWith cfgNoVec).cfg.hasVec = false ∧
    (operands 0x1000 33 0x2000 66).srcLen.toNat % 32 ≠ 0 ∧
    (operands 0x1000 32 0x2000 63).memCheck (vencWindows (operands 0x1000 32 0x2000 63)) = some .capacity ∧
    (operands 0x1000 32 0x2000 64).cfg.hasVec = true ∧ (operands 0x1000 32 0x2000 64).srcLen.toNat % 32 = 0 ∧
    (operands 0x1000 32 0x2000 64).memCheck (vencWindows (operands 0x1000 32 0x2000 64)) = none := by decide

theorem test_witness_VdecDecodesGranules :
    zeroGranule.cfg.hasVec = true ∧ zeroGranule.srcLen.toNat % 64 = 0 ∧
    zeroGranule.memCheck (vdecWindows zeroGranule) = none ∧
    ∀ j < zeroGranule.srcLen.toNat / 4, vDecLane zeroGranule.cfg.alphabet (groupAt (sourceSymbols zeroGranule) j) = some 0 := by
  decide +kernel

/-- No vector unit; one symbol too many; one byte of capacity too few. -/
theorem test_witness_VdecDecodesGranules_stops :
    (State.resetWith cfgNoVec).cfg.hasVec = false ∧ (operands 0 65 0 0).srcLen.toNat % 64 ≠ 0 ∧
    (operands 0 64 0x4000 31).memCheck (vdecWindows (operands 0 64 0x4000 31)) = some .capacity := by decide

/-- The granule of `zeroGranule` and a second one, of symbols 0, which are foreign. -/
def badSecondGranule : State := { zeroGranule with srcLen := 128, dstCap := 64 }

theorem test_witness_VdecDecodesGranules_bad :
    badSecondGranule.cfg.hasVec = true ∧ badSecondGranule.srcLen.toNat % 64 = 0 ∧
    badSecondGranule.memCheck (vdecWindows badSecondGranule) = none ∧ 1 < badSecondGranule.srcLen.toNat / 64 ∧
    (∀ j < 16 * 1, vDecLane badSecondGranule.cfg.alphabet (groupAt (sourceSymbols badSecondGranule) j) = some 0) ∧
    16 * 1 ≤ 16 ∧ 16 < 16 * 1 + 16 ∧
    vDecLane badSecondGranule.cfg.alphabet (groupAt (sourceSymbols badSecondGranule) 16) = none := by
  decide +kernel

theorem test_witness_VectorCommandsEqualScalarCodec :
    passes (exec .venc (operands 0x1000 32 0x2000 64)) (fun t => t.status.err == .noError) = true ∧
    passes (exec .vdec zeroGranule) (fun t => t.status.err == .noError) = true := by
  decide +kernel

theorem test_witness_InitOpensContext : (1 : BitVec 4).toNat < (State.resetWith cfg2).cfg.nctx := by decide

/-- Two bytes from Idle, and two after a pending one (an odd total); no phase; one symbol of capacity too few. -/
theorem test_witness_EncFeedEncodesPairs :
    (0 : BitVec 4).toNat < feedPending.cfg.nctx ∧ (feedPending.encAt 0).phase = .opened ∧
    feedPending.memCheck (encFeedWindows feedPending 0) = none ∧
    (encOpen (operands 0x1000 2 0x2000 4) (some 0x7A)).memCheck
      (encFeedWindows (encOpen (operands 0x1000 2 0x2000 4) (some 0x7A)) 0) = none ∧
    (State.reset.encAt 0).phase ≠ .opened ∧
    (encOpen (operands 0x1000 2 0x2000 3) none).memCheck
      (encFeedWindows (encOpen (operands 0x1000 2 0x2000 3) none) 0) = some .capacity := by decide

theorem test_witness_EncFinalWritesTail :
    (State.reset.encAt 0).phase ≠ .opened ∧
    ((encOpen (operands 0 0 0x2000 2) (some 0x43)).encAt 0).phase = .opened ∧
    ((encOpen (operands 0 0 0x2000 2) (some 0x43)).encAt 0).cached = true ∧
    (encOpen (operands 0 0 0x2000 2) (some 0x43)).memCheck
      (encFinalWindows (encOpen (operands 0 0 0x2000 2) (some 0x43)) 0) = none ∧
    (encOpen (operands 0 0 0x2000 0) none).memCheck
      (encFinalWindows (encOpen (operands 0 0 0x2000 0) none) 0) = none ∧
    (encOpen (operands 0 0 0x2000 1) (some 0x43)).memCheck
      (encFinalWindows (encOpen (operands 0 0 0x2000 1) (some 0x43)) 0) = some .capacity := by decide

/-- Three buffered symbols and two more: one group decodes and one symbol is left over (L2.6). -/
def groupAcrossFeeds : State :=
  symsAt (decOpen (operands 0x3000 2 0x4000 2) 3 0x0159 0x010A 0x0146) 0x3000 [0x0185, 0x0072]

theorem test_witness_DecFeedDecodesGroups_stops :
    (State.reset.decAt 0).phase ≠ .opened ∧
    (decOpen (operands 0x3000 1 0x4000 1) 3 0x0159 0x010A 0x0146).memCheck
      (decFeedWindows (decOpen (operands 0x3000 1 0x4000 1) 3 0x0159 0x010A 0x0146) 0) = some .capacity := by decide

theorem test_witness_DecFeedDecodesGroups :
    (0 : BitVec 4).toNat < groupAcrossFeeds.cfg.nctx ∧ (groupAcrossFeeds.decAt 0).phase = .opened ∧
    groupAcrossFeeds.memCheck (decFeedWindows groupAcrossFeeds 0) = none ∧
    ∀ g < 5 / 4, dec4 groupAcrossFeeds.cfg.alphabet
      (groupAt ([0x0159, 0x010A, 0x0146, 0].take 3 ++ sourceSymbols groupAcrossFeeds) g) = .ok 0x4142 := by decide

/-- A good group, then one out of range (L2.6). -/
def badSecondGroup : State :=
  symsAt (decOpen (operands 0x3000 8 0x4000 16) 0 0 0 0) 0x3000
    [0x0159, 0x010A, 0x0146, 0x0185, 0x024D, 0x023C, 0x0235, 0x00FE]

theorem test_witness_DecFeedDecodesGroups_bad :
    (0 : BitVec 4).toNat < badSecondGroup.cfg.nctx ∧ (badSecondGroup.decAt 0).phase = .opened ∧
    badSecondGroup.memCheck (decFeedWindows badSecondGroup 0) = none ∧ 1 < (sourceSymbols badSecondGroup).length / 4 ∧
    (∀ j < 1, dec4 badSecondGroup.cfg.alphabet (groupAt (sourceSymbols badSecondGroup) j) = .ok 0x4142) ∧
    dec4 badSecondGroup.cfg.alphabet (groupAt (sourceSymbols badSecondGroup) 1) = .err .outOfRange := by decide

/-- No phase; no room for the byte; then each count: 0; 1 and 3; 2 with a bad tail (R[8] C[8]) and with a good one
(N[12] B[7]). -/
theorem test_witness_DecFinalEndsStream :
    (State.reset.decAt 0).phase ≠ .opened ∧
    (decOpen (operands 0 0 0x4000 0) 2 0x01A6 0x010C 0).memCheck
      (decFinalWindows (decOpen (operands 0 0 0x4000 0) 2 0x01A6 0x010C 0) 0) = some .capacity ∧
    (decOpen (operands 0 0 0x4000 0) 0 0 0 0).memCheck
      (decFinalWindows (decOpen (operands 0 0 0x4000 0) 0 0 0 0) 0) = none ∧
    (decOpen (operands 0 0 0x4000 0) 1 0x0156 0 0).memCheck
      (decFinalWindows (decOpen (operands 0 0 0x4000 0) 1 0x0156 0 0) 0) = none ∧
    (decOpen (operands 0 0 0x4000 0) 3 0x0159 0x010A 0x0146).memCheck
      (decFinalWindows (decOpen (operands 0 0 0x4000 0) 3 0x0159 0x010A 0x0146) 0) = none ∧
    (decOpen (operands 0 0 0x4000 1) 2 0x01A6 0x010C 0).memCheck
      (decFinalWindows (decOpen (operands 0 0 0x4000 1) 2 0x01A6 0x010C 0) 0) = none ∧
    dec2 defaultAlphabet { s0 := 0x01A6, s1 := 0x010C } = .err .outOfRange ∧
    dec2 defaultAlphabet { s0 := 0x01F9, s1 := 0x00DF } = .ok 0xFF := by decide

/-- Three bytes to be fed as one and two. -/
def threeBytes : State := bytesAt (encOpen (operands 0x1000 3 0x2000 4) none) 0x1000 [0x41, 0x42, 0x43]

theorem test_witness_EncodeChunksMakeOneFeed :
    let t1 := nextOr (exec (.encFeed 0) { threeBytes with srcLen := BitVec.ofNat 32 1 }) threeBytes
    let s2 := { t1 with
      srcAddr := threeBytes.srcAddr + BitVec.ofNat 32 1
      srcLen := BitVec.ofNat 32 2
      dstAddr := threeBytes.dstAddr + BitVec.ofNat 32 (threeBytes.cfg.es * t1.result.toNat)
      dstCap := threeBytes.dstCap - t1.result }
    (0 : BitVec 4).toNat < threeBytes.cfg.nctx ∧ (0 : BitVec 4).toNat < threeBytes.enc.length ∧
    (threeBytes.encAt 0).phase = .opened ∧ threeBytes.srcLen.toNat = 1 + 2 ∧
    threeBytes.memCheck (encFeedWindows threeBytes 0) = none ∧
    passes (exec (.encFeed 0) { threeBytes with srcLen := BitVec.ofNat 32 1 }) (fun _ => true) = true ∧
    passes (exec (.encFeed 0) s2) (fun t => t.result == 4) = true ∧
    passes (exec (.encFeed 0) threeBytes) (fun t => t.result == 4) = true := by decide

/-- Six symbols to be fed as three and three (L3 P2). -/
def sixSymbols : State :=
  symsAt (decOpen (operands 0x3000 6 0x4000 2) 0 0 0 0) 0x3000 [0x01A6, 0x0107, 0x019D, 0x00DF, 0x0154, 0x0107]

theorem test_witness_DecodeChunksMakeOneFeed :
    let t1 := nextOr (exec (.decFeed 0) { sixSymbols with srcLen := BitVec.ofNat 32 3 }) sixSymbols
    let s2 := { t1 with
      srcAddr := sixSymbols.srcAddr + BitVec.ofNat 32 (sixSymbols.cfg.es * 3)
      srcLen := BitVec.ofNat 32 3
      dstAddr := sixSymbols.dstAddr + t1.result
      dstCap := sixSymbols.dstCap - t1.result }
    (0 : BitVec 4).toNat < sixSymbols.cfg.nctx ∧ (0 : BitVec 4).toNat < sixSymbols.dec.length ∧
    sixSymbols.srcLen.toNat = 3 + 3 ∧
    passes (exec (.decFeed 0) sixSymbols) (fun t => t.status.err == .noError) = true ∧
    passes (exec (.decFeed 0) { sixSymbols with srcLen := BitVec.ofNat 32 3 }) (fun t => t.result == 0) = true ∧
    passes (exec (.decFeed 0) s2) (fun t => t.result == 2 && readReg t 0x204 == 0x0154) = true := by decide

/-- `badSecondGroup` fed as five symbols and three: the bad group is met in the second chunk. -/
theorem test_witness_DecodeChunksMeetSameError :
    let t1 := nextOr (exec (.decFeed 0) { badSecondGroup with srcLen := BitVec.ofNat 32 5 }) badSecondGroup
    let s2 := { t1 with
      srcAddr := badSecondGroup.srcAddr + BitVec.ofNat 32 (badSecondGroup.cfg.es * 5)
      srcLen := BitVec.ofNat 32 3
      dstAddr := badSecondGroup.dstAddr + t1.result
      dstCap := badSecondGroup.dstCap - t1.result }
    (0 : BitVec 4).toNat < badSecondGroup.cfg.nctx ∧ (0 : BitVec 4).toNat < badSecondGroup.dec.length ∧
    (badSecondGroup.decAt 0).phase = .opened ∧ badSecondGroup.srcLen.toNat = 5 + 3 ∧
    badSecondGroup.memCheck (decFeedWindows badSecondGroup 0) = none ∧
    passes (exec (.decFeed 0) badSecondGroup) (fun t => t.status.err == .outOfRange && t.result == 2) = true ∧
    passes (exec (.decFeed 0) { badSecondGroup with srcLen := BitVec.ofNat 32 5 })
      (fun t => t.status.err == .noError && t.result == 2) = true ∧
    passes (exec (.decFeed 0) s2) (fun t => t.status.err == .outOfRange && t.result == 0) = true := by decide

/-- The same fed as eight symbols and none: the bad group is met in the first chunk. -/
theorem test_witness_DecodeChunksMeetSameError_first :
    badSecondGroup.srcLen.toNat = 8 + 0 ∧
    passes (exec (.decFeed 0) { badSecondGroup with srcLen := BitVec.ofNat 32 8 })
      (fun t => t.status.err == .outOfRange && t.result == 2) = true := by decide

/-- Two bytes encoded to 0x2000 and decoded to 0x4000, in the default configuration (`default_valid`). -/
def roundTrip : State :=
  bytesAt (decOpen (encOpen (operands 0x1000 2 0x2000 4) none) 0 0 0 0) 0x1000 [0x48, 0x69]

theorem test_witness_StreamRoundTrip :
    let t := nextOr (exec (.encFeed 0) roundTrip) roundTrip
    let s2 := { t with srcAddr := roundTrip.dstAddr, srcLen := t.result, dstAddr := 0x4000, dstCap := 2 }
    (0 : BitVec 4).toNat < roundTrip.cfg.nctx ∧
    (roundTrip.encAt 0).phase = .opened ∧ (roundTrip.encAt 0).cached = false ∧
    (roundTrip.decAt 0).phase = .opened ∧ (roundTrip.decAt 0).count = 0 ∧ roundTrip.srcLen.toNat % 2 = 0 ∧
    roundTrip.memCheck (encFeedWindows roundTrip 0) = none ∧
    passes (exec (.encFeed 0) roundTrip) (fun _ => true) = true ∧
    s2.memCheck (decFeedWindows s2 0) = none := by decide

/-- The byte 0x43 pending, its tail to 0x2000, and the byte back to 0x4000. -/
def tailRoundTrip : State := decOpen (encOpen (operands 0 0 0x2000 2) (some 0x43)) 0 0 0 0

theorem test_witness_TailRoundTrip :
    (0 : BitVec 4).toNat < tailRoundTrip.cfg.nctx ∧ (0 : BitVec 4).toNat < tailRoundTrip.dec.length ∧
    (tailRoundTrip.encAt 0).phase = .opened ∧ (tailRoundTrip.encAt 0).cached = true ∧
    (tailRoundTrip.decAt 0).phase = .opened ∧ (tailRoundTrip.decAt 0).count = 0 ∧
    tailRoundTrip.memCheck (encFinalWindows tailRoundTrip 0) = none ∧
    passes (exec (.encFinal 0) tailRoundTrip) (fun _ => true) = true ∧
    Config.accessible tailRoundTrip.cfg 0x4000 = true := by decide

/-- A memory that differs outside the source window only. -/
theorem test_witness_CommandsReadOnlySourceWindow :
    (∀ a, (windowsOf feedPending (.encFeed 0)).src.has a = true →
      (feedPending.mem.write 0x1002 5).read a = feedPending.mem.read a) ∧
    (feedPending.mem.write 0x1002 5).read 0x1002 ≠ feedPending.mem.read 0x1002 ∧
    passes (exec (.encFeed 0) feedPending) (fun _ => true) = true ∧
    passes (exec (.encFeed 0) { feedPending with mem := feedPending.mem.write 0x1002 5 }) (fun _ => true) = true := by
  refine ⟨fun a ha => ?_, by decide⟩
  have ha : 0x1000 ≤ a ∧ a < 0x1000 + 2 * 1 := (Window.has_iff _ a).mp ha
  rw [Memory.read_write, if_neg (by omega)]

/-- With two contexts, the same context 0 and another context 1. -/
theorem test_witness_CommandsReadOnlyNamedContext :
    let s := { State.resetWith cfg2 with enc := [EncCtx.empty .opened, EncCtx.reset] }
    let e := [EncCtx.empty .opened, EncCtx.empty .closed]
    e.length = s.enc.length ∧ State.encAt { s with enc := e } 0 = s.encAt 0 ∧ e ≠ s.enc ∧
    s.dec.length = [DecCtx.empty .opened, DecCtx.empty .failed].length ∧
    passes (exec (.encFinal 0) s) (fun t => t.status.err == .noError) = true ∧
    passes (exec (.encFinal 0) { s with enc := e, dec := [DecCtx.empty .opened, DecCtx.empty .failed] })
      (fun t => t.status.err == .noError) = true := by decide

theorem test_witness_CmdWriteIsAccepted : State.reset.status.busy = false := by decide

theorem test_witness_WriteWhileBusyIsDropped :
    feedPending.status.busy = true ∧
    0x03C ∈ [0x008, 0x010, 0x014, 0x018, 0x01C, 0x024, 0x030, 0x034, 0x038, 0x03C] ∧
    feedPending.markHz.status.hz = true ∧ passes (step feedPending.markHz) (fun t => t.status.hz) = true := by decide

theorem test_witness_OperandWriteWhileIdle :
    (State.resetWith cfg16).status.busy = false ∧
    ∀ off ∈ [0x000, 0x00C, 0x028, 0x040, 0x100, 0xFFC], off < 4096 ∧ off % 4 = 0 ∧
      off ∉ [0x008, 0x010, 0x014, 0x018, 0x01C, 0x024, 0x030, 0x034, 0x038, 0x03C] := by decide

theorem test_witness_RegisterReadHasNoSideEffect : 0xFFC < 4096 ∧ 0xFFC % 4 = 0 := by decide

theorem test_witness_RegisterMapReads :
    1 ≤ State.reset.cfg.nctx ∧ State.reset.cfg.nctx ≤ 16 ∧
    capWord { Config.default with nctx := 16 } = 0x000120F1 := by decide

theorem test_witness_ContextViewsRead :
    ({ Config.default with nctx := 16 }).nctx ≤ 16 ∧ 15 < ({ Config.default with nctx := 16 }).nctx := by decide

/-- With one context: the gap after UNIT_OUT, the views of context 1, a gap inside the views, the last offset. -/
theorem test_witness_UnmappedOffsetsAreIgnored :
    State.reset.cfg.nctx ≤ 16 ∧ ∀ off ∈ [0x02C, 0x040, 0x104, 0x110, 0x214, 0x220, 0xFFC],
      off < 4096 ∧ off % 4 = 0 ∧
      off ∉ [0x008, 0x010, 0x014, 0x018, 0x01C, 0x024, 0x030, 0x034, 0x038, 0x03C] ∧
      off ∉ [0x000, 0x004, 0x00C, 0x020, 0x028] ∧ (∀ k < State.reset.cfg.nctx, off ≠ 0x100 + 0x10 * k) ∧
      (∀ k < State.reset.cfg.nctx, ∀ j < 5, off ≠ 0x200 + 0x20 * k + 4 * j) := by decide

theorem test_witness_OddRegisterAccessIsRefused : 0xFFE < 4096 ∧ (2 ≠ 4 ∨ 0xFFE % 4 ≠ 0) := by decide

/-- The first and last byte of each window of ENC_FEED, and the bytes beside them. -/
theorem test_witness_ActiveWindowIsProtected :
    feedPending.status.busy = true ∧ decode feedPending.cmd = .command (.encFeed 0) ∧
    wellFormed feedPending.cfg (.encFeed 0) = true ∧
    [0x0FFF, 0x1000, 0x1001, 0x1002].map (windowsOf feedPending (.encFeed 0)).src.has
      = [false, true, true, false] ∧
    [0x1FFF, 0x2000, 0x200F, 0x2010].map (windowsOf feedPending (.encFeed 0)).dst.has
      = [false, true, true, false] ∧
    Config.accessible feedPending.cfg 0x2010 = true := by decide

/-- A byte that does not answer, outside the windows of ENC_FEED and in its source window. -/
theorem test_witness_ActiveWindowIsProtected_hole :
    let s := { feedPending with cfg := { Config.default with holes := [(0x1001, 2)] } }
    Config.accessible s.cfg 0x1002 = false ∧ (windowsOf s (.encFeed 0)).src.has 0x1002 = false ∧
    (windowsOf s (.encFeed 0)).dst.has 0x1002 = false ∧ Config.accessible s.cfg 0x1001 = false ∧
    (windowsOf s (.encFeed 0)).src.has 0x1001 = true ∧ (windowsOf s (.encFeed 0)).dst.has 0x1001 = false := by decide

/-- Idle, and with an illegal word pending, at a byte that answers and at one that does not. -/
theorem test_witness_UnprotectedMemoryAccess :
    State.reset.status.busy = false ∧ legal (pending State.reset 0x42).cfg (pending State.reset 0x42).cmd = false ∧
    (pending State.reset 0x42).status.busy = true ∧ Config.accessible Config.default 0x2000 = true ∧
    Config.accessible { Config.default with holes := [(0x2000, 1)] } 0x2000 = false := by decide

theorem test_witness_ResetSetsEveryRegister : (operands 1 2 3 4).status.busy = false := by decide

theorem test_witness_ResetAbandonsPendingCommand :
    feedPending.status.busy = true ∧ passes (complete feedPending) (fun u => u.mem.read 0x2000 == 0x72) = true := by
  decide

/-! ## The end of a run (44_host_interface R299) -/

/-- A program from reset: ENC_INIT c0, ENC_FINAL c0, then a read of STATUS. -/
def initFinal : State :=
  { State.reset with inputs := [.regWrite 0x008 4 0x1, .yield, .regWrite 0x008 4 0x3, .yield, .regRead 0x00C 4] }

/-- The state and the opened streams after `n` steps of the run of `s`. -/
def reached (n : Nat) (s : State) : State × Streams := (runFor n s Streams.none).getD (s, Streams.none)

/-- With its stream CLOSED the run has ended, the read of STATUS still to come; not before. -/
theorem test_runEnded : (runFor 4 initFinal Streams.none).isSome = true ∧
    Ended (reached 4 initFinal).2 Streams.none (reached 4 initFinal).1 ∧ (reached 4 initFinal).2.enc = [0] ∧
    (reached 4 initFinal).1.inputs = [.regRead 0x00C 4] ∧
    ¬ Ended (reached 2 initFinal).2 Streams.none (reached 2 initFinal).1 := by decide

/-- A stream that is OPEN ends the run only when the program leaves it open, and one lost to a reset has not ended. A
context the program never opened is not judged. -/
theorem test_runEnded_open :
    let s := { encOpen State.reset none with inputs := [.regWrite 0x008 4 0x4, .yield, .reset] }
    ¬ Ended (reached 2 s).2 Streams.none (reached 2 s).1 ∧
    Ended (reached 2 s).2 { enc := [], dec := [0] } (reached 2 s).1 ∧
    ((reached 2 s).1.encAt 0).phase = .opened ∧ ¬ Ended (reached 3 s).2 Streams.none (reached 3 s).1 := by decide

theorem test_witness_EndedRunStaysEnded :
    Ended (reached 4 initFinal).2 Streams.none (reached 4 initFinal).1 ∧
    (∀ rest, (reached 4 initFinal).1.inputs ≠ .reset :: rest) ∧
    (∀ addr width v rest, (reached 4 initFinal).1.inputs ≠ .regWrite addr width v :: rest) ∧
    (∀ addr b rest, (reached 4 initFinal).1.inputs ≠ .memWrite addr b :: rest) ∧
    passes (step (reached 4 initFinal).1) (fun _ => true) = true :=
  ⟨by decide, fun _ h => (by cases h), fun _ _ _ _ h => (by cases h), fun _ _ _ h => (by cases h), by decide⟩

theorem test_witness_EndedRunStaysEnded_reset :
    passes (hostAct .reset State.reset) (fun t => decide (Ended { enc := [0], dec := [] } { enc := [0], dec := [] } t))
      = true := by decide

theorem test_witness_OpenedStreamsEndOrStayOpen :
    ContextsOk initFinal ∧ .reset ∉ initFinal.inputs ∧
    runFor 4 initFinal Streams.none = some ((reached 4 initFinal).1, { enc := [0], dec := [] }) ∧
    (∀ a ∈ (reached 4 initFinal).1.inputs, issuesCommand (reached 4 initFinal).1.cfg a = false) ∧
    (reached 4 initFinal).1.status.busy = false ∧ ((reached 4 initFinal).1.encAt 0).phase ≠ .opened := by decide

theorem test_witness_ContextInvariantsArePreserved :
    passes (step feedPending) (fun _ => true) = true ∧ ContextsOk feedPending := by decide

theorem test_witness_EveryStepKeepsStorageForm :
    passes (step feedPending) (fun _ => true) = true ∧ SymsFit feedPending ∧ Memory.wf feedPending.mem := by decide

end Sys2Proof.Tests
end

section
/-! PROOFS. The state family: the contexts' invariants over every step, the context views, the unmapped offsets,
and the reset input (10_state R32, R48 to R50, R56, R57). -/

namespace Sys2Proof.Machine

/-! ## The contexts' invariants over every step (10_state R57) -/

/-- `ContextsOk` reads the configuration and the two context files only. -/
theorem contextsOk_of_frame {s t : State} (h : ContextsOk s) (hcfg : t.cfg = s.cfg) (henc : t.enc = s.enc)
    (hdec : t.dec = s.dec) : ContextsOk t := by
  rw [ContextsOk, hcfg, henc, hdec]
  exact h

/-- An update of one encode context to a good one keeps the invariants of all. -/
theorem contextsOk_of_enc_set {s t : State} (h : ContextsOk s) (hcfg : t.cfg = s.cfg) {k : Nat} {c : EncCtx}
    (henc : t.enc = s.enc.set k c) (hdec : t.dec = s.dec) (hc : EncOk c) : ContextsOk t := by
  obtain ⟨hel, hdl, he, hd⟩ := h
  rw [ContextsOk, hcfg, henc, hdec]
  exact ⟨List.length_set.trans hel, hdl, forall_mem_set he hc, hd⟩

/-- An update of one decode context to a good one keeps the invariants of all. -/
theorem contextsOk_of_dec_set {s t : State} (h : ContextsOk s) (hcfg : t.cfg = s.cfg) {k : Nat} {d : DecCtx}
    (henc : t.enc = s.enc) (hdec : t.dec = s.dec.set k d) (hd' : DecOk s.cfg.symW d) : ContextsOk t := by
  obtain ⟨hel, hdl, he, hd⟩ := h
  rw [ContextsOk, hcfg, henc, hdec]
  exact ⟨hel, List.length_set.trans hdl, he, forall_mem_set hd hd'⟩

/-- The symbols a DEC_FEED decodes, those buffered before it included, have `SYM_W` bits. -/
theorem decFeed_symbols_fit {s : State} (h : ContextsOk s) {k : Nat} (hk : k < s.cfg.nctx) :
    ∀ x ∈ (s.decAt k).buffer ++ s.srcSyms, SymFits s.cfg.symW x := by
  obtain ⟨-, hdl, -, hd⟩ := h
  have hbuf := DecCtx.buffer_fit (hd _ (State.decAt_mem (hdl ▸ hk)))
  exact fun x hx => (List.mem_append.mp hx).elim (hbuf x) (s.srcSyms_fit x)

/-- DEC_FEED leaves its context FAILED and empty, or OPEN with the symbols left over (42_streaming R222, R223). -/
theorem decFeedBody_contextsOk {s : State} (h : ContextsOk s) {k : Nat} (hk : k < s.cfg.nctx) :
    ContextsOk (decFeedBody k s) := by
  rw [decFeedBody_eq]
  refine contextsOk_of_dec_set h rfl rfl rfl ?_
  split
  · exact decOk_empty _ _
  · exact decOk_after _ _ (decFeed_symbols_fit h hk)

/-- DEC_FINAL empties its context, whatever its outcome (42_streaming R227). -/
theorem decFinalBody_contextsOk {s : State} (h : ContextsOk s) (k : Nat) : ContextsOk (decFinalBody k s) := by
  rcases decFinalBody_cases k s with ⟨-, e⟩ | ⟨-, e⟩ | ⟨-, ⟨_, -, e⟩ | ⟨_, -, e⟩⟩ <;>
    exact e ▸ contextsOk_of_dec_set h rfl rfl rfl (decOk_empty _ _)

/-- ENC_FEED leaves its context OPEN with the byte left over, if any (42_streaming R212). -/
theorem encFeedBody_contextsOk {s : State} (h : ContextsOk s) (k : Nat) : ContextsOk (encFeedBody k s) := by
  rw [encFeedBody_eq]
  exact contextsOk_of_enc_set h rfl rfl rfl (encOk_after _)

/-- ENC_FINAL leaves its context CLOSED and empty (42_streaming R215). -/
theorem encFinalBody_contextsOk {s : State} (h : ContextsOk s) (k : Nat) : ContextsOk (encFinalBody k s) := by
  rw [encFinalBody_eq]
  exact contextsOk_of_enc_set h rfl rfl rfl (encOk_empty _ (by decide))

/-- VENC touches no context. -/
theorem vencBody_contextsOk {s : State} (h : ContextsOk s) : ContextsOk (vencBody s) := by
  rw [vencBody_eq]
  exact contextsOk_of_frame h rfl rfl rfl

/-- VDEC touches no context. -/
theorem vdecBody_contextsOk {s : State} (h : ContextsOk s) : ContextsOk (vdecBody s) := by
  rw [vdecBody_eq]
  exact contextsOk_of_frame h rfl rfl rfl

/-- Every command keeps the invariants of the contexts: a stream command stores a good context, and any other
command stores none. -/
theorem exec_keeps_contextsOk {i : Instr} {s t : State} (h : ContextsOk s) (ht : exec i s = .next t) :
    ContextsOk t := by
  have frame : ∀ {u : State}, u.cfg = s.cfg → u.enc = s.enc → u.dec = s.dec → ContextsOk u :=
    contextsOk_of_frame h
  refine exec_elim s (fun _ u => ContextsOk u) ?illegal ?failMem ?fail ?encInit ?decInit ?encFeed ?encFinal ?decFeed
    ?decFinal ?uenc2 ?uenc1 ?unitOut ?lutSym ?venc ?vdec i t ht
  case illegal => exact fun _ _ => frame rfl rfl rfl
  case failMem => exact fun _ _ _ _ _ _ => frame rfl rfl rfl
  case fail => exact fun _ _ _ _ => frame rfl rfl rfl
  case encInit => exact fun _ _ => contextsOk_of_enc_set h rfl rfl rfl (encOk_empty _ (by decide))
  case decInit => exact fun _ _ => contextsOk_of_dec_set h rfl rfl rfl (decOk_empty _ _)
  case encFeed => exact fun k _ _ _ => encFeedBody_contextsOk h k.toNat
  case encFinal => exact fun k _ _ _ => encFinalBody_contextsOk h k.toNat
  case decFeed => exact fun _ hk _ _ => decFeedBody_contextsOk h hk
  case decFinal => exact fun k _ _ _ => decFinalBody_contextsOk h k.toNat
  case uenc2 => exact fun _ => frame rfl rfl rfl
  case uenc1 => exact fun _ => frame rfl rfl rfl
  case unitOut => exact fun _ _ _ => frame rfl rfl rfl
  case lutSym => exact fun _ _ => frame rfl rfl rfl
  case venc => exact fun _ _ _ => vencBody_contextsOk h
  case vdec => exact fun _ _ _ => vdecBody_contextsOk h

/-- The block's turn keeps the invariants of the contexts: it waits, rejects the pending word, or performs it. -/
theorem blockTurn_keeps_contextsOk {s t : State} (h : ContextsOk s) (ht : blockTurn s = .next t) :
    ContextsOk t := by
  unfold blockTurn at ht
  split at ht
  · unfold complete at ht
    split at ht
    · exact exec_keeps_contextsOk h ht
    · cases ht
      exact contextsOk_of_frame h rfl rfl rfl
  · cases ht
    exact h

/-- The reset input puts the block in its reset state; of what is not the block's it touches data memory and the
count of abandoned commands only, and only while a command is pending (70_reset_and_hazards R360, R362). -/
theorem State.hostReset_eq (s : State) : s.hostReset = { s.resetBlock with
    mem := if s.status.busy then Memory.drawBetween s.resetDraws s.mem (memAfterPending s) else s.mem
    resetDraws := if s.status.busy then s.resetDraws + 1 else s.resetDraws } := by
  cases hb : s.status.busy <;> simp only [State.hostReset, hb] <;> rfl

/-- The contexts of a block that was reset keep their invariants, whatever they were before. -/
theorem hostReset_contextsOk (s : State) : ContextsOk s.hostReset := by
  rw [State.hostReset_eq]
  refine ⟨List.length_replicate, List.length_replicate, fun c hc => ?_, fun d hd => ?_⟩
  · exact List.eq_of_mem_replicate hc ▸ encOk_empty .uninit (by decide)
  · exact List.eq_of_mem_replicate hd ▸ decOk_empty _ .uninit

/-- A register write leaves the configuration. -/
theorem writeReg_cfg (s : State) (off : Nat) (v : Word) : (writeReg s off v).cfg = s.cfg := by
  have operand : (writeOperand s off v).cfg = s.cfg := by
    unfold writeOperand
    split <;> rfl
  unfold writeReg
  split
  · split <;> rfl
  · split
    · rfl
    · exact operand

/-- A register access that is answered is answered by its effect at some offset. -/
theorem State.onRegister_eq_next {s t : State} {addr width : Nat} {f : Nat → State}
    (h : s.onRegister addr width f = .next t) : ∃ off, t = f off := by
  unfold State.onRegister at h
  split at h
  · cases h
  · split at h <;> cases h
    exact ⟨_, rfl⟩

/-- An access to data memory that is answered is answered by its effect. -/
theorem State.onMemory_eq_next {s t : State} {a : Nat} {hazard : Windows → Bool} {f : State}
    (h : s.onMemory a hazard f = .next t) : t = f := by
  unfold State.onMemory at h
  split at h
  · cases h
  · split at h <;> cases h
    rfl

/-- A host access, which is every action but the reset and giving the turn, leaves the configuration. -/
theorem hostAct_cfg {a : HostAction} {s t : State} (h : hostAct a s = .next t) (hr : a ≠ .reset)
    (hy : a ≠ .yield) : t.cfg = s.cfg := by
  unfold hostAct at h
  cases a with
  | reset => exact absurd rfl hr
  | yield => exact absurd rfl hy
  | regWrite addr width v =>
    obtain ⟨off, rfl⟩ := State.onRegister_eq_next h
    exact writeReg_cfg s off v
  | regRead addr width =>
    obtain ⟨off, rfl⟩ := State.onRegister_eq_next h
    rfl
  | memWrite addr b => exact State.onMemory_eq_next h ▸ rfl
  | memRead addr => exact State.onMemory_eq_next h ▸ rfl

/-- Every host action keeps the invariants of the contexts: reset establishes them, the turn is the block's, and an
access touches no context. -/
theorem hostAct_keeps_contextsOk {a : HostAction} {s t : State} (h : ContextsOk s) (ht : hostAct a s = .next t) :
    ContextsOk t := by
  by_cases hr : a = .reset
  · subst hr
    cases ht
    exact hostReset_contextsOk s
  · by_cases hy : a = .yield
    · subst hy
      exact blockTurn_keeps_contextsOk h ht
    · obtain ⟨henc, hdec, -⟩ := hostAct_frame ht hr hy
      exact contextsOk_of_frame h (hostAct_cfg ht hr hy) henc hdec

/-- Settles O53: the step is the block's turn or the host's oldest action, and both keep the invariants. -/
theorem contextInvariantsArePreserved : Obligations.ContextInvariantsArePreserved := by
  intro s t ht h
  unfold step at ht
  split at ht
  · exact blockTurn_keeps_contextsOk h ht
  · refine hostAct_keeps_contextsOk ?_ ht
    exact contextsOk_of_frame h rfl rfl rfl

/-! ## The context views (10_state R48, R49) -/

/-- `ENC_VIEW[k]` reads the view of context `k`. -/
theorem readReg_encView {s : State} {k : Nat} (hn : s.cfg.nctx ≤ 16) (hk : k < s.cfg.nctx) :
    readReg s (0x100 + 0x10 * k) = encView (s.encAt k) := by
  have hidx : (0x100 + 0x10 * k - 0x100) / 0x10 = k := by omega
  rw [readReg_eq_readView _ _ (by omega), readView, if_pos (by omega), hidx, if_pos ⟨by omega, hk⟩]

/-- `DEC_VIEW[k].STATE` reads the view of context `k`. -/
theorem readReg_decView {s : State} {k : Nat} (hk : k < s.cfg.nctx) :
    readReg s (0x200 + 0x20 * k) = decView (s.decAt k) := by
  have hidx : (0x200 + 0x20 * k - 0x200) / 0x20 = k := by omega
  rw [readReg_eq_readView _ _ (by omega), readView, if_neg (by omega), if_pos (by omega), hidx, if_pos hk,
    if_pos (by omega)]

/-- `DEC_VIEW[k].TRAIL[j]` reads slot `j` of context `k`. -/
theorem readReg_decTrail {s : State} {k off : Nat} (hk : k < s.cfg.nctx) (j : Nat) (hj : j < 4)
    (hoff : off = 0x204 + 0x20 * k + 4 * j) : readReg s off = (s.decAt k).trail j := by
  have hidx : (off - 0x200) / 0x20 = k := by omega
  have hslot : (off - 0x200) % 0x20 / 4 - 1 = j := by omega
  rw [readReg_eq_readView _ _ (by omega), readView, if_neg (by omega), if_pos (by omega), hidx, if_pos hk,
    if_neg (by omega), if_pos (by omega), hslot]

/-- A flag as a word is 0 or 1. -/
theorem bit_toNat (b : Bool) : (bit b).toNat = if b then 1 else 0 := by cases b <;> rfl

/-- An encode view as the sum of its fields. -/
theorem encView_toNat (c : EncCtx) :
    (encView c).toNat = (if c.cached then 1 else 0) + 256 * c.trailingByte.toNat + 16777216 * c.phase.code.toNat := by
  have hp := c.phase.code.isLt
  have hb := c.trailingByte.isLt
  have hf : (if c.cached then 1 else 0) ≤ 1 := by split <;> omega
  have hp32 : (c.phase.code.setWidth 32).toNat = c.phase.code.toNat := BitVec.toNat_setWidth_of_le (by decide)
  have hb32 : (c.trailingByte.setWidth 32).toNat = c.trailingByte.toNat := BitVec.toNat_setWidth_of_le (by decide)
  have low : ((c.trailingByte.setWidth 32 <<< 8) ||| bit c.cached).toNat
      = c.trailingByte.toNat * 2 ^ 8 + if c.cached then 1 else 0 := by
    rw [toNat_shift_or _ _ 8 (by rw [bit_toNat]; omega) (by omega), hb32, bit_toNat]
  rw [encView, BitVec.or_assoc, toNat_shift_or _ _ 24 (by omega) (by omega), low, hp32]
  omega

/-- A decode view as the sum of its fields. -/
theorem decView_toNat (d : DecCtx) : (decView d).toNat = d.count.val + 16777216 * d.phase.code.toNat := by
  have hp := d.phase.code.isLt
  have hi := d.count.isLt
  have hp32 : (d.phase.code.setWidth 32).toNat = d.phase.code.toNat := BitVec.toNat_setWidth_of_le (by decide)
  have hi32 : (BitVec.ofNat 32 d.count.val).toNat = d.count.val := Nat.mod_eq_of_lt (by omega)
  rw [decView, toNat_shift_or _ _ 24 (by omega) (by omega), hp32, hi32]
  omega

/-- A list of copies of one value, read with that value past its end, reads as it everywhere. -/
theorem getD_replicate_self {α : Type} (n k : Nat) (x : α) : (List.replicate n x).getD k x = x := by
  rw [List.getD_eq_getElem?_getD, List.getElem?_replicate]
  split
  · rfl
  · rfl

/-- Every encode context of a block after reset is at its reset value. -/
theorem encAt_resetWith (c : Config) (k : Nat) : (State.resetWith c).encAt k = EncCtx.reset :=
  getD_replicate_self ..

/-- Every decode context of a block after reset is at its reset value. -/
theorem decAt_resetWith (c : Config) (k : Nat) : (State.resetWith c).decAt k = DecCtx.reset :=
  getD_replicate_self ..

/-- Settles O45: the offset selects the view of its context, whose word is the sum of its fields. -/
theorem contextViewsRead : Obligations.ContextViewsRead := by
  unfold Obligations.ContextViewsRead
  intro phase
  have code_eq : ∀ p : Phase, p.code.toNat = phase p := by
    intro p
    cases p <;> rfl
  refine ⟨fun s k hn hk => ⟨?encView, ?decView, ?trail0, ?trail1, ?trail2, ?trail3⟩,
    fun c k hn hk => ⟨?encReset, fun j hj => ?decReset⟩⟩
  case encView => rw [readReg_encView hn hk, encView_toNat, code_eq]
  case decView => rw [readReg_decView hk, decView_toNat, code_eq]
  case trail0 => exact readReg_decTrail hk 0 (by decide) (by omega)
  case trail1 => exact readReg_decTrail hk 1 (by decide) (by omega)
  case trail2 => exact readReg_decTrail hk 2 (by decide) (by omega)
  case trail3 => exact readReg_decTrail hk 3 (by decide) (by omega)
  case encReset =>
    rw [readReg_encView hn hk, encAt_resetWith]
    decide
  case decReset =>
    cases j with
    | zero =>
      rw [Nat.mul_zero, Nat.add_zero, readReg_decView hk, decAt_resetWith]
      decide
    | succ j =>
      have trail_zero : ∀ i < 4, DecCtx.reset.trail i = 0 := by decide
      rw [readReg_decTrail hk j (by omega) (by omega), decAt_resetWith]
      exact trail_zero j (by omega)

/-! ## Unmapped offsets (10_state R50) -/

/-- An offset outside the list of CMD and the RW registers differs from each of theirs. -/
theorem ne_of_not_mem_writableOffsets {off : Nat} (h : off ∉ writableOffsets) :
    off ≠ 0x008 ∧ off ≠ 0x010 ∧ off ≠ 0x014 ∧ off ≠ 0x018 ∧ off ≠ 0x01C ∧ off ≠ 0x024 ∧
    off ≠ 0x030 ∧ off ≠ 0x034 ∧ off ≠ 0x038 ∧ off ≠ 0x03C := by
  simpa [writableOffsets] using h

/-- A write to an offset that is neither CMD nor an RW register changes nothing, busy or not. -/
theorem writeReg_of_not_mem {s : State} {off : Nat} (h : off ∉ writableOffsets) (v : Word) :
    writeReg s off v = s := by
  have hne := ne_of_not_mem_writableOffsets h
  have operand : writeOperand s off v = s := by
    unfold writeOperand
    split <;> first | omega | rfl
  rw [writeReg, if_neg h, if_neg hne.1, operand, ite_self]

/-- An offset that no register below the views has reads as a view. -/
theorem readReg_of_not_mem {s : State} {off : Nat} (hw : off ∉ writableOffsets)
    (hr : off ∉ [0x000, 0x004, 0x00C, 0x020, 0x028]) : readReg s off = readView s off := by
  have hne := ne_of_not_mem_writableOffsets hw
  simp only [List.mem_cons, List.not_mem_nil, or_false, not_or] at hr
  unfold readReg
  split <;> first | omega | rfl

/-- An offset of no view of a context that exists reads 0 as a view. -/
theorem readView_eq_zero {s : State} {off : Nat} (henc : ∀ k < s.cfg.nctx, off ≠ 0x100 + 0x10 * k)
    (hdec : ∀ k < s.cfg.nctx, ∀ j < 5, off ≠ 0x200 + 0x20 * k + 4 * j) : readView s off = 0 := by
  unfold readView
  split
  · refine if_neg fun ⟨hal, hk⟩ => henc _ hk ?_
    omega
  · split
    · refine ite_eq_right_iff.mpr fun hk => ?_
      rw [if_neg fun h0 => hdec _ hk 0 (by decide) (by omega),
        if_neg fun ⟨h4, hle⟩ => hdec _ hk ((off - 0x200) % 0x20 / 4) (by omega) (by omega)]
    · rfl

/-- Settles O46: no arm of a write, and no arm of a read but the views', has such an offset. -/
theorem unmappedOffsetsAreIgnored : Obligations.UnmappedOffsetsAreIgnored := by
  intro s off v _ hlt h4 hw
  constructor
  · rw [hostAct, State.onRegister_aligned s off _ hlt h4, writeReg_of_not_mem hw]
  · intro hr henc hdec
    rw [readReg_of_not_mem hw hr, readView_eq_zero henc hdec]

/-! ## The reset input (10_state R56) -/

/-- Settles O49: `State.hostReset_eq`, read field by field. -/
theorem resetSetsEveryRegister : Obligations.ResetSetsEveryRegister := by
  intro s
  refine ⟨s.hostReset, rfl, ?_⟩
  rw [State.hostReset_eq]
  exact ⟨rfl, rfl, rfl, rfl, rfl, rfl, rfl, rfl, rfl, rfl, rfl, rfl, rfl, rfl, rfl, rfl, List.length_replicate,
    List.length_replicate, fun _ => List.eq_of_mem_replicate, fun _ => List.eq_of_mem_replicate,
    fun hidle => by simp [hidle]⟩

end Sys2Proof.Machine
end

section
/-! PROOFS. The memory family: which code `MemCheck` answers, and what a command does whose `MemCheck` fails
(20_memory R86, R88, R89). -/

namespace Sys2Proof.Machine

/-! ## The code of each check, in the order of 20_memory R89 -/

/-- The two windows together are accessible exactly when each byte of either is. -/
theorem Windows.accessible_iff (c : Config) (w : Windows) :
    (w.src.accessible c && w.dst.accessible c) = true ↔
      ∀ a, w.src.has a = true ∨ w.dst.has a = true → Config.accessible c a = true := by
  rw [Bool.and_eq_true, Window.accessible_iff, Window.accessible_iff]
  constructor
  · rintro ⟨hsrc, hdst⟩ a (ha | ha)
    · exact hsrc a ha
    · exact hdst a ha
  · exact fun h => ⟨fun a ha => h a (.inl ha), fun a ha => h a (.inr ha)⟩

/-- Disjoint windows, in the terms of `overlaps`. -/
theorem Window.overlaps_eq_false_iff (v w : Window) :
    v.overlaps w = false ↔ ∀ a, ¬ (v.has a = true ∧ w.has a = true) := by
  rw [← Bool.not_eq_true, Window.overlaps_iff, not_exists]

section Codes

variable {c : Config} {cap : Nat} {w : Windows}

theorem memCheck_eq_capacity (h : cap < w.dst.count) : memCheck c cap w = some .capacity := if_pos h

theorem memCheck_eq_badBuffer_of_not_ok (hcap : w.dst.count ≤ cap) (hok : ¬ (w.src.ok = true ∧ w.dst.ok = true)) :
    memCheck c cap w = some .badBuffer := by
  rw [memCheck, if_neg (Nat.not_lt.mpr hcap),
    if_pos (by rwa [Bool.not_eq_true', ← Bool.not_eq_true, Bool.and_eq_true])]

theorem memCheck_eq_badBuffer_of_overlaps (hcap : w.dst.count ≤ cap) (hsrc : w.src.ok = true)
    (hdst : w.dst.ok = true) (hov : w.src.overlaps w.dst = true) : memCheck c cap w = some .badBuffer := by
  rw [memCheck, if_neg (Nat.not_lt.mpr hcap), if_neg (by simp [hsrc, hdst]), if_pos hov]

theorem memCheck_eq_busError (hcap : w.dst.count ≤ cap) (hsrc : w.src.ok = true) (hdst : w.dst.ok = true)
    (hov : w.src.overlaps w.dst = false) (hacc : (w.src.accessible c && w.dst.accessible c) = false) :
    memCheck c cap w = some .busError := by
  rw [memCheck, if_neg (Nat.not_lt.mpr hcap), if_neg (by simp [hsrc, hdst]), if_neg (by simp [hov]),
    if_pos (by simp [hacc])]

end Codes

/-! ## A command whose `MemCheck` fails -/

/-- A FEED or FINAL on an open context whose `MemCheck` fails reports the code. -/
theorem State.onContext_whenReady_of_fails {s : State} {k : BitVec 4} {e : ErrCode} (hk : k.toNat < s.cfg.nctx)
    (p : State → Phase) (w : State → Windows) (f : State → State) (hp : p s = .opened)
    (hm : s.memCheck (w s) = some e) :
    s.onContext k (fun s => s.whenReady (p s) (w s) f) = .next (s.failMem e) := by
  rw [State.onContext_of_lt hk, State.whenReady, if_pos hp, hm]

/-- A vector command over whole granules whose `MemCheck` fails reports the code. -/
theorem State.onGranules_of_fails {s : State} {n : Nat} {w : Windows} {e : ErrCode} (hv : s.cfg.hasVec = true)
    (hn : s.srcLen.toNat % n = 0) (hm : s.memCheck w = some e) (f : State → State) :
    s.onGranules n w f = .next (s.failMem e) := by
  rw [State.onGranules, if_pos hv, if_neg (not_not_intro hn), hm]

/-- Settles O13: each clause of R89 in the terms of the windows' laws, then the six memory commands. -/
theorem memCheckReportsFirstFailure : Obligations.MemCheckReportsFirstFailure := by
  constructor
  · intro s w fits inWin
    have fits_iff (v : Window) : fits v ↔ v.ok = true := (Window.ok_iff v).symm
    have inWin_iff (v : Window) (a : Nat) : inWin v a ↔ v.has a = true := (Window.has_iff v a).symm
    simp only [fits_iff, inWin_iff, ← Window.overlaps_iff, ← Window.overlaps_eq_false_iff, State.memCheck]
    refine ⟨memCheck_eq_capacity, memCheck_eq_badBuffer_of_not_ok, memCheck_eq_badBuffer_of_overlaps,
      fun hcap hsrc hdst hov hhole => memCheck_eq_busError hcap hsrc hdst hov ?bus,
      fun hcap hsrc hdst hov hacc => (memCheck_eq_none_iff ..).mpr ⟨hcap, hsrc, hdst, hov, ?pass⟩⟩
    case bus =>
      obtain ⟨a, ha, hna⟩ := hhole
      rw [← Bool.not_eq_true, Windows.accessible_iff]
      exact fun h => Bool.false_ne_true (hna.symm.trans (h a ha))
    case pass => exact Bool.and_eq_true_iff.mp ((Windows.accessible_iff s.cfg w).mpr hacc)
  · intro s i e _ hwf hready hm
    cases i with
    | encFeed k =>
      exact State.onContext_whenReady_of_fails (of_decide_eq_true hwf) (fun s => (s.encAt k.toNat).phase)
        (encFeedWindows · k.toNat) _ hready hm
    | encFinal k =>
      exact State.onContext_whenReady_of_fails (of_decide_eq_true hwf) (fun s => (s.encAt k.toNat).phase)
        (encFinalWindows · k.toNat) _ hready hm
    | decFeed k =>
      exact State.onContext_whenReady_of_fails (of_decide_eq_true hwf) (fun s => (s.decAt k.toNat).phase)
        (decFeedWindows · k.toNat) _ hready hm
    | decFinal k =>
      exact State.onContext_whenReady_of_fails (of_decide_eq_true hwf) (fun s => (s.decAt k.toNat).phase)
        (decFinalWindows · k.toNat) _ hready hm
    | venc => exact State.onGranules_of_fails hwf hready hm vencBody
    | vdec => exact State.onGranules_of_fails hwf hready hm vdecBody
    | nop | encInit | decInit | uenc2 | uenc1 | udec4 | udec2 | lutSym | lutCls | divc => exact False.elim hready

end Sys2Proof.Machine
end

section
/-! PROOFS. The encoding family: `Legal` in terms of the decoder, what an illegal word does, and the spec's word
examples (30_encoding R126 to R128, R142). -/

namespace Sys2Proof

/-! ## `Legal` is the decoder and then the configuration's checks (30_encoding R126) -/

/-- Whether the decoder's answer is a command the configuration has. -/
def Decoded.legalIn (c : Config) : Decoded → Bool
  | .command i => wellFormed c i
  | .rejected _ => false

theorem decodePlain_legalIn (c : Config) (w : Word) (i : Instr) : (decodePlain w i).legalIn c =
    (decide ((ctxOf w).toNat = 0) && (decide ((selOf w).toNat = 0) && wellFormed c i)) := by
  unfold decodePlain
  split
  · simp_all [Decoded.legalIn, BitVec.toNat_eq]
  · split <;> simp_all [Decoded.legalIn, BitVec.toNat_eq]

theorem decodeStream_legalIn (c : Config) (w : Word) (f : BitVec 4 → Instr) : (decodeStream w f).legalIn c =
    (decide ((selOf w).toNat = 0) && wellFormed c (f (ctxOf w))) := by
  unfold decodeStream
  split <;> simp_all [Decoded.legalIn, BitVec.toNat_eq]

/-- The commands with a selector exist in every configuration, so one is legal when its selector names something. -/
theorem decodeSel_legalIn {c : Config} (w : Word) {i : Option Instr} (hwf : ∀ j ∈ i, wellFormed c j = true) :
    (decodeSel w i).legalIn c = (decide ((ctxOf w).toNat = 0) && i.isSome) := by
  unfold decodeSel
  split
  · simp_all [Decoded.legalIn, BitVec.toNat_eq]
  · cases i <;> simp_all [Decoded.legalIn, BitVec.toNat_eq]

theorem clsOfSel_isSome (sel : BitVec 4) : (clsOfSel sel).isSome = !decide (4 ≤ sel.toNat) := by
  revert sel
  decide

theorem divisorOfSel_isSome (sel : BitVec 4) : (divisorOfSel sel).isSome = !decide (4 ≤ sel.toNat) := by
  revert sel
  decide

/-- `Legal` accepts what the decoder and then the configuration accept. The cases are the rows of `decode`: plain
commands, stream commands, the two with a selector, and the opcodes outside the table. -/
theorem legal_eq_decode_legalIn (c : Config) (w : Word) : legal c w = (decode w).legalIn c := by
  by_cases hrsv : rsvOf w = 0
  · rw [decode, if_neg (not_not_intro hrsv)]
    split <;> rename_i hopc
    case h_1 | h_8 | h_9 | h_10 | h_11 | h_13 | h_15 | h_16 =>
      simp [legal, hrsv, hopc, opcodes, decodePlain_legalIn, wellFormed]
    case h_2 | h_3 | h_4 | h_5 | h_6 | h_7 =>
      simp [legal, hrsv, hopc, opcodes, decodeStream_legalIn, wellFormed, Laws.LegalWord.decide_le_eq_not_lt,
        Bool.and_comm]
    case h_12 | h_14 =>
      rw [decodeSel_legalIn w (by simp [wellFormed])]
      simp [legal, hrsv, hopc, opcodes, clsOfSel_isSome, divisorOfSel_isSome]
    case h_17 =>
      have hout : (opcOf w).toNat ∉ opcodes := by
        simp only [opcodes, List.cons_append, List.nil_append, List.mem_cons, List.not_mem_nil, or_false, not_or]
        and_intros <;> assumption
      rw [legal, if_neg (not_not_intro hrsv), if_pos hout, Decoded.legalIn]
  · rw [decode, if_pos hrsv, legal, if_pos hrsv, Decoded.legalIn]

theorem legal_of_command {c : Config} {w : Word} {i : Instr} (h : decode w = .command i) :
    legal c w = wellFormed c i := by
  rw [legal_eq_decode_legalIn, h, Decoded.legalIn]

theorem legal_of_rejected {w : Word} {why : DecodeError} (h : decode w = .rejected why) (c : Config) :
    legal c w = false := by
  rw [legal_eq_decode_legalIn, h, Decoded.legalIn]

theorem exists_command_of_legal {c : Config} {w : Word} (h : legal c w = true) : ∃ i, decode w = .command i := by
  cases hd : decode w with
  | command i => exact ⟨i, rfl⟩
  | rejected why => exact absurd ((legal_of_rejected hd c).symm.trans h) Bool.false_ne_true

/-- Settles O3: the words' commands by the decoder; the illegal words by the name of the rejection. -/
theorem specWordExamples : Obligations.SpecWordExamples := by
  refine ⟨by decide, by decide, by decide, by decide, by decide, legal_of_rejected (why := .reservedBits) ?_,
    legal_of_rejected (why := .ctxNotZero) ?_, legal_of_rejected (why := .selReserved) ?_⟩ <;> decide

namespace Machine

/-! ## Commands the configuration does not have (30_encoding R126, R128) -/

/-- A command that is not well formed only reports ILLEGAL_CMD: the first check of `State.onContext` and of
`State.onGranules` is that the configuration has what the command needs. -/
theorem exec_of_not_wellFormed {s : State} {i : Instr} (h : wellFormed s.cfg i = false) :
    exec i s = .next s.illegal := by
  cases i with
  | encInit | encFeed | encFinal | decInit | decFeed | decFinal =>
    exact if_neg (of_decide_eq_false h)
  | venc | vdec => exact if_neg (ne_true_of_eq_false h)
  | nop | uenc2 | uenc1 | udec4 | udec2 | lutSym | lutCls | divc => exact absurd h.symm Bool.false_ne_true

/-- Settles O7: `exec_of_not_wellFormed`, then what `wellFormed` asks of each kind of command. -/
theorem absentContextOrUnitIsIllegal : Obligations.AbsentContextOrUnitIsIllegal := by
  refine ⟨fun s i => exec_of_not_wellFormed, fun c i => ?_⟩
  cases i with
  | encInit | encFeed | encFinal | decInit | decFeed | decFinal => simp [wellFormed]
  | venc | vdec => simp [wellFormed]
  | nop | uenc2 | uenc1 | udec4 | udec2 | lutSym | lutCls | divc => simp [wellFormed]

/-! ## The block's turn on a pending word (30_encoding R127) -/

theorem blockTurn_of_busy {s : State} (h : s.status.busy = true) : blockTurn s = complete s := if_pos h

theorem complete_of_command {s : State} {i : Instr} (h : decode s.cmd = .command i) : complete s = exec i s := by
  rw [complete, h]

/-- An illegal word only reports ILLEGAL_CMD, whether the decoder rejects it or the configuration lacks its command. -/
theorem complete_of_not_legal {s : State} (h : legal s.cfg s.cmd = false) : complete s = .next s.illegal := by
  cases hd : decode s.cmd with
  | command i => rw [complete_of_command hd, exec_of_not_wellFormed (legal_of_command hd ▸ h)]
  | rejected why => rw [complete, hd]

/-- Settles O6: a legal word decodes to a command, and an illegal one completes as `complete_of_not_legal` says. -/
theorem everyWordRunsOrIsIllegal : Obligations.EveryWordRunsOrIsIllegal := by
  have decode_zero : decode 0 = .command .nop := by decide
  refine ⟨fun s hbusy => ⟨fun hlegal => ?_, fun hillegal => ?_⟩, fun _ => legal_of_command decode_zero, decode_zero⟩
  · obtain ⟨i, hi⟩ := exists_command_of_legal hlegal
    exact ⟨i, hi, (blockTurn_of_busy hbusy).trans (complete_of_command hi)⟩
  · exact (blockTurn_of_busy hbusy).trans (complete_of_not_legal hillegal)

end Machine

end Sys2Proof
end

section
/-! PROOFS. The look-up family: the classification of a foreign symbol, the result word of LUT_CLS as a sum, and
the outcomes of LUT_SYM and LUT_CLS (40_alphabet_lut R153, R160, R161). -/

namespace Sys2Proof

/-- `Classify` answers `NotFound` exactly when no class has the symbol, in any alphabet (40_alphabet_lut R153). -/
theorem Alphabet.classify_eq_none_iff {a : Alphabet} {s : Sym} : a.classify s = none ↔ ∀ c, s ∉ a.lut c := by
  constructor
  · intro h c
    refine indexIn_none_iff.mp (?_ : a.find s c = none)
    unfold Alphabet.classify at h
    repeat' split at h
    all_goals cases h
    cases c <;> assumption
  · intro h
    have hfind : ∀ c, a.find s c = none := fun c => indexIn_none_iff.mpr (h c)
    simp only [Alphabet.classify, hfind]

theorem Cls.code_lt (c : Cls) : c.code < 4 := by cases c <;> decide

theorem Cls.size_le (c : Cls) : c.size ≤ 15 := by cases c <;> decide

namespace Machine

/-! ## LUT_SYM -/

/-- An index below the class size reads the table, whose code points `SYM0` keeps whole. -/
theorem exec_lutSym_of_lt {s : State} {c : Cls} (hv : s.cfg.alphabet.Valid s.cfg.symW)
    (hi : s.unitIn.toNat < c.size) : exec (.lutSym c) s = .next { s with
      sym0 := s.cfg.alphabet.at c s.unitIn.toNat, status := statusAfter s .noError } := by
  have hclip : clipSym s.cfg.symW (s.cfg.alphabet.at c s.unitIn.toNat) = s.cfg.alphabet.at c s.unitIn.toNat :=
    clipSym_of_lt (hv.at_lt hi)
  rw [exec, execLutSym, if_neg (Nat.not_le.mpr hi), State.setSym0, hclip]
  rfl

/-- An index past the class only reports. -/
theorem exec_lutSym_of_le {s : State} {c : Cls} (hi : c.size ≤ s.unitIn.toNat) :
    exec (.lutSym c) s = .next { s with status := statusAfter s .badOperand } := if_pos hi

/-- Settles O16: the two outcomes of LUT_SYM, at each class's number, size and table. -/
theorem lutSymReadsTable : Obligations.LutSymReadsTable := by
  intro s c hv
  have below := exec_lutSym_of_lt (c := c) hv
  have past := exec_lutSym_of_le (s := s) (c := c)
  cases c with
  | R | C | N | B => exact ⟨by decide, below, past⟩

/-! ## LUT_CLS -/

/-- FOUND, CLASS and INDEX do not overlap: the result word is their sum. -/
theorem clsWord_some {c : Cls} {i : Nat} (hi : i < 16) :
    clsWord (some (c, i)) = BitVec.ofNat 32 (256 + 16 * c.code + i) := by
  have hc := c.code_lt
  have hindex : (BitVec.ofNat 32 i).toNat = i := Nat.mod_eq_of_lt (by omega)
  have hcode : (BitVec.ofNat 32 c.code).toNat = c.code := Nat.mod_eq_of_lt (by omega)
  have low : ((BitVec.ofNat 32 c.code <<< 4) ||| BitVec.ofNat 32 i).toNat = c.code * 2 ^ 4 + i := by
    rw [toNat_shift_or _ _ 4 (by omega) (by omega), hcode, hindex]
  apply BitVec.eq_of_toNat_eq
  rw [clsWord, BitVec.or_assoc, toNat_shift_or _ _ 8 (by omega) (by decide), low, BitVec.toNat_ofNat,
    BitVec.toNat_ofNat]
  omega

/-- LUT_CLS writes the word of the classification of `SYM0`, and never fails. -/
theorem exec_lutCls (s : State) : exec .lutCls s = .next { s with
    unitOut := clsWord (s.cfg.alphabet.classify s.sym0), status := statusAfter s .noError } := rfl

/-- A code point of a valid alphabet answers FOUND, its class and its index. -/
theorem exec_lutCls_of_at {s : State} (hv : s.cfg.alphabet.Valid s.cfg.symW) (c : Cls) {i : Nat}
    (hi : i < (s.cfg.alphabet.lut c).length) (hs : s.cfg.alphabet.at c i = s.sym0) :
    exec .lutCls s = .next { s with
      unitOut := BitVec.ofNat 32 (256 + 16 * c.code + i), status := statusAfter s .noError } := by
  rw [hv.length] at hi
  have hsize := c.size_le
  rw [exec_lutCls, ← hs, hv.classify_at hi, clsWord_some (by omega)]

/-- A symbol of no class answers 0. -/
theorem exec_lutCls_of_foreign {s : State} (h : ∀ c, s.sym0 ∉ s.cfg.alphabet.lut c) :
    exec .lutCls s = .next { s with unitOut := 0, status := statusAfter s .noError } := by
  rw [exec_lutCls, Alphabet.classify_eq_none_iff.mpr h, clsWord]

/-- Settles O17: `exec_lutCls_of_at` at each class, and a symbol of none of the four sequences is foreign. -/
theorem lutClsFindsSymbol : Obligations.LutClsFindsSymbol := by
  intro s hv
  refine ⟨by decide, fun i => exec_lutCls_of_at hv .R, fun i => exec_lutCls_of_at hv .C,
    fun i => exec_lutCls_of_at hv .N, fun i => exec_lutCls_of_at hv .B, fun h => exec_lutCls_of_foreign ?_⟩
  simp only [List.mem_append, not_or] at h
  obtain ⟨⟨⟨hr, hc⟩, hn⟩, hb⟩ := h
  intro c
  cases c with
  | R => exact hr
  | C => exact hc
  | N => exact hn
  | B => exact hb

end Machine

end Sys2Proof
end

section
/-! PROOFS. The unit codec family: groups and tails as an orientation with digits, the inverse of encoders and
decoders, and the outcomes of UENC2, UENC1, UDEC4 and UDEC2 (41_unit_codec R180 to R188, R195 to R198). -/

namespace Sys2Proof.Machine

/-! ## Groups (41_unit_codec R180, R182) -/

/-- A unit value is an orientation and 15 bits. -/
theorem exists_unitVal_eq (v : UnitVal) :
    ∃ (high : Bool) (n : Nat), n < 32768 ∧ v = BitVec.ofNat 16 (n + if high then 0x8000 else 0) := by
  refine ⟨decide (32768 ≤ v.toNat), v.toNat % 32768, Nat.mod_lt _ (by decide), BitVec.eq_of_toNat_eq ?_⟩
  simp only [decide_eq_true_eq, BitVec.toNat_ofNat]
  split <;> omega

/-- `Enc2` of 15 bits in an orientation is the oriented group of their digits. -/
theorem enc2_ofNat (a : Alphabet) (high : Bool) {n : Nat} (hn : n < 32768) :
    enc2 a (BitVec.ofNat 16 (n + if high then 0x8000 else 0))
      = orientedGroup a high (n / 2250) (n % 2250 / 150) (n % 150 / 10) (n % 10) := by
  have hv : (BitVec.ofNat 16 (n + if high then 0x8000 else 0)).toNat = n + if high then 0x8000 else 0 :=
    Nat.mod_eq_of_lt (by split <;> omega)
  rw [enc2_eq_orientedGroup, hv]
  cases high with
  | false => rw [if_neg Bool.false_ne_true, Nat.add_zero, decide_eq_false (by omega), Nat.mod_eq_of_lt hn]
  | true => rw [if_pos rfl, decide_eq_true (by omega), Nat.add_mod_right, Nat.mod_eq_of_lt hn]

section Groups

variable {a : Alphabet} {w : SymWidth} {high : Bool} {ir ic inn ib : Nat}

/-- A weighted sum of 15 bits decodes, with bit 15 for the high orientation. -/
theorem dec4_orientedGroup_of_le (hv : a.Valid w) (hr : ir < 15) (hc : ic < 15) (hn : inn < 15) (hb : ib < 10)
    (hle : ir * 2250 + ic * 150 + inn * 10 + ib ≤ 0x7FFF) : dec4 a (orientedGroup a high ir ic inn ib)
      = .ok (BitVec.ofNat 16 (ir * 2250 + ic * 150 + inn * 10 + ib + if high then 0x8000 else 0)) := by
  rw [dec4_orientedGroup hv high hr hc hn hb, if_neg (Nat.not_lt.mpr hle)]
  cases high with
  | false => rw [if_neg Bool.false_ne_true, if_neg Bool.false_ne_true, Nat.add_zero]
  | true =>
    refine congrArg UnitResult.ok (BitVec.eq_of_toNat_eq ?_)
    rw [toNat_or_8000 _ (Nat.not_lt.mpr hle), if_pos rfl, BitVec.toNat_ofNat]
    omega

/-- A larger weighted sum is out of range, in either orientation. -/
theorem dec4_orientedGroup_of_lt (hv : a.Valid w) (hr : ir < 15) (hc : ic < 15) (hn : inn < 15) (hb : ib < 10)
    (hlt : 0x7FFF < ir * 2250 + ic * 150 + inn * 10 + ib) :
    dec4 a (orientedGroup a high ir ic inn ib) = .err .outOfRange := by
  rw [dec4_orientedGroup hv high hr hc hn hb, if_pos hlt]

/-- `Enc2` of a weighted sum is the group it was made of, since the digits are unique. -/
theorem enc2_weightedSum (hr : ir < 15) (hc : ic < 15) (hn : inn < 15) (hb : ib < 10)
    (hle : ir * 2250 + ic * 150 + inn * 10 + ib ≤ 0x7FFF) :
    enc2 a (BitVec.ofNat 16 (ir * 2250 + ic * 150 + inn * 10 + ib + if high then 0x8000 else 0))
      = orientedGroup a high ir ic inn ib := by
  obtain ⟨er, ec, en, eb⟩ := digits_unique ir ic inn ib hr hc hn hb
  rw [enc2_ofNat a high (Nat.lt_succ_of_le hle), er, ec, en, eb]

end Groups

/-- `Dec4` undoes `Enc2` (41_unit_codec R188 (a)). -/
theorem dec4_enc2 {a : Alphabet} {w : SymWidth} (hv : a.Valid w) (v : UnitVal) : dec4 a (enc2 a v) = .ok v := by
  obtain ⟨high, n, hn, rfl⟩ := exists_unitVal_eq v
  have hsum := digits_sum n
  rw [enc2_ofNat a high hn, dec4_orientedGroup_of_le hv, hsum] <;> omega

/-- A group that decodes is the one its value encodes to (41_unit_codec R188 (c)). -/
theorem enc2_of_dec4_eq_ok {a : Alphabet} {w : SymWidth} (hv : a.Valid w) {g : Group} {v : UnitVal}
    (h : dec4 a g = .ok v) : enc2 a v = g := by
  obtain ⟨high, ir, ic, inn, ib, hr, hc, hn, hb, rfl⟩ := dec4_inv hv (g := g) (by rw [h]; simp)
  rcases Nat.lt_or_ge 0x7FFF (ir * 2250 + ic * 150 + inn * 10 + ib) with hlt | hle
  · rw [dec4_orientedGroup_of_lt hv hr hc hn hb hlt] at h
    cases h
  · rw [dec4_orientedGroup_of_le hv hr hc hn hb hle] at h
    cases h
    exact enc2_weightedSum hr hc hn hb hle

/-! ## Tails (41_unit_codec R181, R183) -/

/-- How many values the second digit of a tail has: 10 in the N,B orientation, 15 in the R,C one. -/
def tailRadix (high : Bool) : Nat := if high then 10 else 15

/-- The tail of two digits in the orientation `high`. -/
def orientedTail (a : Alphabet) (high : Bool) (i j : Nat) : Tail :=
  if high then { s0 := a.at .N i, s1 := a.at .B j } else { s0 := a.at .R i, s1 := a.at .C j }

/-- A byte is an orientation and 7 bits. -/
theorem exists_byte_eq (x : Byte) :
    ∃ (high : Bool) (n : Nat), n < 128 ∧ x = BitVec.ofNat 8 (n + if high then 0x80 else 0) := by
  refine ⟨decide (128 ≤ x.toNat), x.toNat % 128, Nat.mod_lt _ (by decide), BitVec.eq_of_toNat_eq ?_⟩
  simp only [decide_eq_true_eq, BitVec.toNat_ofNat]
  split <;> omega

/-- `Enc1` of 7 bits in an orientation is the oriented tail of their digits. -/
theorem enc1_ofNat (a : Alphabet) (high : Bool) {n : Nat} (hn : n < 128) :
    enc1 a (BitVec.ofNat 8 (n + if high then 0x80 else 0))
      = orientedTail a high (n / tailRadix high) (n % tailRadix high) := by
  have hx : (BitVec.ofNat 8 (n + if high then 0x80 else 0)).toNat = n + if high then 0x80 else 0 :=
    Nat.mod_eq_of_lt (by split <;> omega)
  rw [enc1_eq, hx]
  cases high with
  | false =>
    rw [if_neg Bool.false_ne_true, Nat.add_zero, if_neg (by omega)]
    rfl
  | true =>
    rw [if_pos rfl, if_pos (by omega), Nat.add_sub_cancel]
    rfl

section Tails

variable {a : Alphabet} {w : SymWidth} {high : Bool} {i j : Nat}

/-- `Dec2` finds both digits, an N not being an R. -/
theorem dec2_orientedTail (hv : a.Valid w) (hi : i < 15) (hj : j < tailRadix high) :
    dec2 a (orientedTail a high i j) = tailValue high i j := by
  cases high with
  | false => simp [dec2, orientedTail, hv.idx_at (c := .R) hi, hv.idx_at (c := .C) hj]
  | true =>
    have hne : a.idx (a.at .N i) .R = none := hv.idx_at_ne (by decide) hi
    simp [dec2, orientedTail, hne, hv.idx_at (c := .N) hi, hv.idx_at (c := .B) hj]

/-- A weighted sum of 7 bits decodes, with bit 7 for the high orientation. -/
theorem dec2_orientedTail_of_le (hv : a.Valid w) (hi : i < 15) (hj : j < tailRadix high)
    (hle : i * tailRadix high + j ≤ 0x7F) : dec2 a (orientedTail a high i j)
      = .ok (BitVec.ofNat 8 (i * tailRadix high + j + if high then 0x80 else 0)) := by
  rw [dec2_orientedTail hv hi hj]
  cases high with
  | false => exact if_neg (Nat.not_lt.mpr hle)
  | true =>
    refine (if_neg (Nat.not_lt.mpr hle)).trans (congrArg UnitResult.ok (BitVec.eq_of_toNat_eq ?_))
    refine (toNat_or_80 _ (Nat.not_lt.mpr hle)).trans ?_
    simp only [tailRadix, if_true] at hle ⊢
    rw [BitVec.toNat_ofNat]
    omega

/-- A larger weighted sum is out of range, in either orientation. -/
theorem dec2_orientedTail_of_lt (hv : a.Valid w) (hi : i < 15) (hj : j < tailRadix high)
    (hlt : 0x7F < i * tailRadix high + j) : dec2 a (orientedTail a high i j) = .err .outOfRange := by
  rw [dec2_orientedTail hv hi hj]
  cases high with
  | false | true => exact if_pos hlt

/-- `Enc1` of a weighted sum is the tail it was made of, since the digits are unique. -/
theorem enc1_weightedSum (hj : j < tailRadix high) (hle : i * tailRadix high + j ≤ 0x7F) :
    enc1 a (BitVec.ofNat 8 (i * tailRadix high + j + if high then 0x80 else 0)) = orientedTail a high i j := by
  have hquot : (i * tailRadix high + j) / tailRadix high = i := by
    rw [Nat.mul_comm, Nat.mul_add_div (Nat.zero_lt_of_lt hj), Nat.div_eq_of_lt hj, Nat.add_zero]
  have hrem : (i * tailRadix high + j) % tailRadix high = j := by
    rw [Nat.mul_comm, Nat.mul_add_mod, Nat.mod_eq_of_lt hj]
  rw [enc1_ofNat a high (Nat.lt_succ_of_le hle), hquot, hrem]

end Tails

/-- A tail that `Dec2` does not reject as an invalid symbol is an oriented tail. -/
theorem exists_eq_orientedTail {a : Alphabet} {w : SymWidth} (hv : a.Valid w) {t : Tail}
    (h : dec2 a t ≠ .err .invalidSymbol) :
    ∃ high i j, i < 15 ∧ j < tailRadix high ∧ t = orientedTail a high i j := by
  obtain ⟨s0, s1⟩ := t
  rcases dec2_inv hv h with ⟨i, j, hi, hj, rfl, rfl, -⟩ | ⟨i, j, hi, hj, rfl, rfl, -⟩
  · exact ⟨false, i, j, hi, hj, rfl⟩
  · exact ⟨true, i, j, hi, hj, rfl⟩

/-- `Dec2` undoes `Enc1` (41_unit_codec R188 (b)). -/
theorem dec2_enc1 {a : Alphabet} {w : SymWidth} (hv : a.Valid w) (x : Byte) : dec2 a (enc1 a x) = .ok x := by
  obtain ⟨high, n, hn, rfl⟩ := exists_byte_eq x
  have hradix : 10 ≤ tailRadix high := by cases high <;> decide
  have hquot : n / tailRadix high < 15 := Nat.div_lt_of_lt_mul (by omega)
  have hrem : n % tailRadix high < tailRadix high := Nat.mod_lt _ (by omega)
  have hsum : n / tailRadix high * tailRadix high + n % tailRadix high = n := Nat.div_add_mod' ..
  rw [enc1_ofNat a high hn, dec2_orientedTail_of_le hv hquot hrem (by omega), hsum]

/-- A tail that decodes is the one its byte encodes to (41_unit_codec R188 (c)). -/
theorem enc1_of_dec2_eq_ok {a : Alphabet} {w : SymWidth} (hv : a.Valid w) {t : Tail} {x : Byte}
    (h : dec2 a t = .ok x) : enc1 a x = t := by
  obtain ⟨high, i, j, hi, hj, rfl⟩ := exists_eq_orientedTail hv (t := t) (by rw [h]; simp)
  rcases Nat.lt_or_ge 0x7F (i * tailRadix high + j) with hlt | hle
  · rw [dec2_orientedTail_of_lt hv hi hj hlt] at h
    cases h
  · rw [dec2_orientedTail_of_le hv hi hj hle] at h
    cases h
    exact enc1_weightedSum hj hle

/-- Settles O23: both round trips, and both kinds of accepted symbols are canonical. -/
theorem unitCodecIsInverse : Obligations.UnitCodecIsInverse := fun _ _ hv =>
  ⟨dec4_enc2 hv, dec2_enc1 hv, fun _ _ => enc2_of_dec4_eq_ok hv, fun _ _ => enc1_of_dec2_eq_ok hv⟩

/-! ## UENC2 and UENC1 (41_unit_codec R195, R196) -/

section Encoders

variable {s : State}

/-- The symbols of `Enc2` have `SYM_W` bits. -/
theorem enc2_lt {a : Alphabet} {w : SymWidth} (hv : a.Valid w) (v : UnitVal) :
    (enc2 a v).s0.toNat < 2 ^ w.bits ∧ (enc2 a v).s1.toNat < 2 ^ w.bits ∧
    (enc2 a v).s2.toNat < 2 ^ w.bits ∧ (enc2 a v).s3.toNat < 2 ^ w.bits := by
  have hlt : v.toNat % 32768 < 32768 := Nat.mod_lt _ (by decide)
  rw [enc2_eq_orientedGroup]
  exact orientedGroup_lt hv _ (by omega) (by omega) (by omega) (by omega)

/-- The symbols of `Enc1` have `SYM_W` bits. -/
theorem enc1_lt {a : Alphabet} {w : SymWidth} (hv : a.Valid w) (x : Byte) :
    (enc1 a x).s0.toNat < 2 ^ w.bits ∧ (enc1 a x).s1.toNat < 2 ^ w.bits := by
  rw [SymWidth.two_pow_bits]
  exact ⟨enc1_fits hv x 0, enc1_fits hv x 1⟩

/-- UENC2 of a 16-bit value writes the group, whose symbols the registers keep whole. -/
theorem exec_uenc2_of_le (hv : s.cfg.alphabet.Valid s.cfg.symW) {g : Group} (h : s.unitIn.toNat ≤ 0xFFFF)
    (hg : enc2 s.cfg.alphabet (BitVec.ofNat 16 s.unitIn.toNat) = g) : exec .uenc2 s = .next { s with
      sym0 := g.s0, sym1 := g.s1, sym2 := g.s2, sym3 := g.s3, status := statusAfter s .noError } := by
  obtain ⟨h0, h1, h2, h3⟩ := enc2_lt hv (BitVec.ofNat 16 s.unitIn.toNat)
  rw [hg] at h0 h1 h2 h3
  rw [exec, execUenc2, if_neg (Nat.not_lt.mpr h), hg]
  simp only [State.setGroup, State.setSym0, State.setSym1, State.setSym2, State.setSym3, State.finish,
    clipSym_of_lt h0, clipSym_of_lt h1, clipSym_of_lt h2, clipSym_of_lt h3, statusAfter]

/-- UENC1 of a byte writes the tail, whose symbols the registers keep whole. -/
theorem exec_uenc1_of_le (hv : s.cfg.alphabet.Valid s.cfg.symW) {t : Tail} (h : s.unitIn.toNat ≤ 0xFF)
    (ht : enc1 s.cfg.alphabet (BitVec.ofNat 8 s.unitIn.toNat) = t) : exec .uenc1 s = .next { s with
      sym0 := t.s0, sym1 := t.s1, status := statusAfter s .noError } := by
  obtain ⟨h0, h1⟩ := enc1_lt hv (BitVec.ofNat 8 s.unitIn.toNat)
  rw [ht] at h0 h1
  rw [exec, execUenc1, if_neg (Nat.not_lt.mpr h), ht]
  simp only [State.setTail, State.setSym0, State.setSym1, State.finish, clipSym_of_lt h0, clipSym_of_lt h1, statusAfter]

/-- UENC2 of a larger operand only reports. -/
theorem exec_uenc2_of_lt (h : 0xFFFF < s.unitIn.toNat) :
    exec .uenc2 s = .next { s with status := statusAfter s .badOperand } := if_pos h

/-- UENC1 of a larger operand only reports. -/
theorem exec_uenc1_of_lt (h : 0xFF < s.unitIn.toNat) :
    exec .uenc1 s = .next { s with status := statusAfter s .badOperand } := if_pos h

end Encoders

/-- Settles O18: a 16-bit operand is its own unit value, and `Enc2` of it is the oriented group of its digits. -/
theorem uenc2WritesDigits : Obligations.Uenc2WritesDigits := by
  refine fun s hv => ⟨by decide, fun hle => exec_uenc2_of_le hv hle ?_, exec_uenc2_of_lt⟩
  rw [enc2_eq_orientedGroup, BitVec.toNat_ofNat, Nat.mod_eq_of_lt (by omega)]

/-- Settles O19: an operand of 8 bits is its own byte, and `Enc1` of it is the tail of its digits. -/
theorem uenc1WritesDigits : Obligations.Uenc1WritesDigits := by
  refine fun s hv => ⟨by decide, fun hlow => exec_uenc1_of_le hv (t := orientedTail _ false _ _) (by omega) ?low,
    fun hhigh hle => exec_uenc1_of_le hv (t := orientedTail _ true _ _) hle ?high, exec_uenc1_of_lt⟩
  case low =>
    rw [enc1_eq, BitVec.toNat_ofNat, Nat.mod_eq_of_lt (by omega), if_neg (by omega)]
    rfl
  case high =>
    rw [enc1_eq, BitVec.toNat_ofNat, Nat.mod_eq_of_lt (by omega), if_pos (by omega)]
    rfl

/-! ## UDEC4 and UDEC2 (41_unit_codec R197, R198) -/

section Decoders

variable {s : State}

/-- UDEC4 of a group that decodes writes its value, zero-extended. -/
theorem exec_udec4_of_ok {n : Nat} (hn : n < 65536)
    (h : dec4 s.cfg.alphabet ⟨s.sym0, s.sym1, s.sym2, s.sym3⟩ = .ok (BitVec.ofNat 16 n)) : exec .udec4 s
      = .next { s with unitOut := BitVec.ofNat 32 n, status := statusAfter s .noError } := by
  rw [exec, execUdec4, h, ← setWidth_ofNat16 n hn]
  rfl

/-- UDEC4 of a group that does not decode only reports. -/
theorem exec_udec4_of_err {e : ErrCode} (h : dec4 s.cfg.alphabet ⟨s.sym0, s.sym1, s.sym2, s.sym3⟩ = .err e) :
    exec .udec4 s = .next { s with status := statusAfter s e } := by
  rw [exec, execUdec4, h]
  rfl

/-- UDEC2 of a tail that decodes writes its byte, zero-extended. -/
theorem exec_udec2_of_ok {n : Nat} (hn : n < 256)
    (h : dec2 s.cfg.alphabet ⟨s.sym0, s.sym1⟩ = .ok (BitVec.ofNat 8 n)) : exec .udec2 s
      = .next { s with unitOut := BitVec.ofNat 32 n, status := statusAfter s .noError } := by
  rw [exec, execUdec2, h, ← setWidth_ofNat8 n hn]
  rfl

/-- UDEC2 of a tail that does not decode only reports. -/
theorem exec_udec2_of_err {e : ErrCode} (h : dec2 s.cfg.alphabet ⟨s.sym0, s.sym1⟩ = .err e) :
    exec .udec2 s = .next { s with status := statusAfter s e } := by
  rw [exec, execUdec2, h]
  rfl

/-- UDEC2 of an oriented tail writes its weighted sum or reports OUT_OF_RANGE. -/
theorem exec_udec2_of_orientedTail (hv : s.cfg.alphabet.Valid s.cfg.symW) {high : Bool} {i j : Nat} (hi : i < 15)
    (hj : j < tailRadix high) (h : (⟨s.sym0, s.sym1⟩ : Tail) = orientedTail s.cfg.alphabet high i j) :
    (i * tailRadix high + j ≤ 0x7F → exec .udec2 s = .next { s with
      unitOut := BitVec.ofNat 32 (i * tailRadix high + j + if high then 0x80 else 0),
      status := statusAfter s .noError }) ∧
    (0x7F < i * tailRadix high + j → exec .udec2 s = .next { s with status := statusAfter s .outOfRange }) := by
  constructor
  · intro hle
    refine exec_udec2_of_ok ?_ (h ▸ dec2_orientedTail_of_le hv hi hj hle)
    split <;> omega
  · exact fun hlt => exec_udec2_of_err (h ▸ dec2_orientedTail_of_lt hv hi hj hlt)

end Decoders

/-- Settles O20: an oriented group decodes or is out of range, and only an oriented group is no invalid symbol. -/
theorem udec4SumsDigits : Obligations.Udec4SumsDigits := by
  intro s hv g
  refine ⟨by decide, fun high ir ic inn ib hr hc hn hb hg => ⟨fun hle => ?ok, fun hlt => ?range⟩,
    fun hno => ?other⟩
  case ok =>
    refine exec_udec4_of_ok ?_ ((congrArg (dec4 _) hg).trans (dec4_orientedGroup_of_le hv hr hc hn hb hle))
    split <;> omega
  case range => exact exec_udec4_of_err ((congrArg (dec4 _) hg).trans (dec4_orientedGroup_of_lt hv hr hc hn hb hlt))
  case other =>
    refine exec_udec4_of_err (Classical.byContradiction fun hne => ?_)
    obtain ⟨high, ir, ic, inn, ib, hr, hc, hn, hb, hg⟩ := dec4_inv hv hne
    exact hno high ir ic inn ib hr hc hn hb hg

/-- Settles O21: each orientation of a tail, and only an oriented tail is no invalid symbol. -/
theorem udec2SumsDigits : Obligations.Udec2SumsDigits := by
  intro s hv a
  refine ⟨by decide, fun i j hi hj h0 h1 => exec_udec2_of_orientedTail hv (high := false) hi hj ?rc,
    fun i j hi hj h0 h1 => exec_udec2_of_orientedTail hv (high := true) hi hj ?nb, fun hrc hnb => ?other⟩
  case rc | nb => rw [h0, h1]; rfl
  case other =>
    refine exec_udec2_of_err (Classical.byContradiction fun hne => ?_)
    rcases dec2_inv hv hne with ⟨i, j, hi, hj, h0, h1, -⟩ | ⟨i, j, hi, hj, h0, h1, -⟩
    · exact hrc i j hi hj ⟨h0, h1⟩
    · exact hnb i j hi hj ⟨h0, h1⟩

end Sys2Proof.Machine
end

section
/-! PROOFS. The streaming family: the words of the stream commands, the checks before a FEED or a FINAL, and what the
INITs, FEEDs and FINALs store (42_streaming R210 to R227). -/

namespace Sys2Proof.Machine

/-! ## What the stream commands share -/

/-- The word of a stream command: its context above its opcode (30_encoding R121). -/
theorem cmdWord_ctx_toNat (opc : BitVec 8) (k : BitVec 4) : (cmdWord opc k 0).toNat = 256 * k.toNat + opc.toNat := by
  have hk := k.isLt
  have ho := opc.isLt
  have hk32 : (k.setWidth 32).toNat = k.toNat := BitVec.toNat_setWidth_of_le (by decide)
  have ho32 : (opc.setWidth 32).toNat = opc.toNat := BitVec.toNat_setWidth_of_le (by decide)
  have hsel : (0 : BitVec 4).setWidth 32 <<< 12 = 0#32 := by decide
  rw [cmdWord, hsel, BitVec.zero_or, toNat_shift_or _ _ 8 (by omega) (by omega), hk32, ho32]
  omega

/-- The outcomes of a FEED or FINAL on a context that exists, `D` being what is to hold of its body. -/
theorem State.whenReady_outcomes {s : State} {p : Phase} {w : Windows} {f : State → State}
    {x : Host.Outcome State Fault Refusal} {D : Prop} (hx : x = .next (s.whenReady p w f))
    (hD : x = .next (f s) → D) :
    (p ≠ .opened → x = .next { s with result := 0, status := statusAfter s .badState }) ∧
    (∀ e, p = .opened → s.memCheck w = some e → x = .next { s with result := 0, status := statusAfter s e }) ∧
    (p = .opened → s.memCheck w = none → D) := by
  refine ⟨fun hp => hx.trans ?closed, fun e hp hm => hx.trans ?check, fun hp hm => hD (hx.trans ?ready)⟩
  case closed => rw [State.whenReady, if_neg hp, State.failMem_eq]
  case check =>
    rw [State.whenReady, if_pos hp, hm]
    rfl
  case ready => rw [State.whenReady_of_ready hp hm]

/-- Settles O30: the word of a stream command, and an INIT of a context that exists is its body. -/
theorem initOpensContext : Obligations.InitOpensContext := by
  intro s k hk
  refine ⟨cmdWord_ctx_toNat 0x01 k, cmdWord_ctx_toNat 0x04 k, ?enc, ?dec⟩
  case enc => exact State.onContext_of_lt hk fun s => (s.setEnc k.toNat (EncCtx.empty .opened)).finish .noError
  case dec => exact State.onContext_of_lt hk fun s => (s.setDec k.toNat (DecCtx.empty .opened)).finish .noError

/-! ## Storing from `DST_ADDR` -/

/-- Storing bytes changes none outside them. -/
theorem sameOutside_of_store {s t : State} {a n : Nat} {bs : List Byte} (h : t.mem = s.mem.writeBytes a bs)
    (hn : bs.length = n) : SameOutside s t a n := by
  intro x hx
  rw [h, Memory.read_writeBytes_outside _ _ _ _ (hn ▸ hx)]

/-- Storing `n` symbols puts each at its address, byte by byte, and changes no byte outside theirs
(20_memory R82). -/
theorem symbols_of_store {s t : State} {a n : Nat} {l : List Sym} {f : Nat → Sym}
    (h : t.mem = s.mem.writeBytes a (symBytes s.cfg.es l)) (hc : t.cfg = s.cfg) (hn : l.length = n)
    (hf : ∀ u < n, l.getD u 0 = f u) :
    SymbolsAt t a n f ∧ SameOutside s t a (symbolSize s.cfg.symW * n) := by
  subst hn
  constructor
  · intro u hu
    rw [← hf u hu]
    exact symbolsAt_of_store h hc u hu
  · exact sameOutside_of_store h (by rw [symBytes_length, Config.es_eq])

/-- Storing the bytes of `n` units puts each unit at its two addresses, high byte first, and changes no byte outside
theirs (20_memory R83). -/
theorem units_of_store {s t : State} {a n : Nat} {f : Nat → UnitVal}
    (h : t.mem = s.mem.writeBytes a ((List.range n).flatMap fun j => unitBytes (f j))) :
    (∀ g < n, (t.mem.read (a + 2 * g)).toNat = (f g).toNat / 256 ∧
      (t.mem.read (a + 2 * g + 1)).toNat = (f g).toNat % 256) ∧ SameOutside s t a (2 * n) := by
  constructor
  · intro g hg
    rw [h]
    exact read_writeBytes_units _ _ _ hg
  · exact sameOutside_of_store h (flatMap_unitBytes_length f n)

/-! ## ENC_FEED and ENC_FINAL (42_streaming R212, R215) -/

/-- The number of bytes of an ENC_FEED, its carry included. -/
theorem encFeed_length (s : State) (k : Nat) :
    ((s.encAt k).carry ++ s.srcBytes).length = (s.encAt k).pending + s.srcLen.toNat := by
  rw [List.length_append, EncCtx.carry_length, State.srcBytes_length]

/-- Settles O31: the store of the encoded pairs, symbol by symbol, beside `EncCtx.after` the bytes fed. -/
theorem encFeedEncodesPairs : Obligations.EncFeedEncodesPairs := by
  intro s k hk es ctx c n pairs req w stops b
  have hw : encFeedWindows s k.toNat = w := by
    rw [encFeedWindows, State.dstSymsWin, Config.es_eq]
    rfl
  have hexec : exec (.encFeed k) s = .next (s.whenReady ctx.phase w (encFeedBody k.toNat)) :=
    hw ▸ if_pos hk
  have hb : b.length = c + n := encFeed_length s k.toNat
  refine ⟨cmdWord_ctx_toNat 0x02 k, State.whenReady_outcomes hexec fun h => ⟨_, h, ?registers, ?memory⟩⟩
  case registers =>
    have hafter : EncCtx.after b = if (c + n) % 2 = 1
        then { cached := true, trailingByte := b.getD (c + n - 1) 0, phase := .opened }
        else { cached := false, trailingByte := 0, phase := .opened } := by rw [EncCtx.after, hb]
    rw [← hafter, encFeedBody_eq, hw]
    rfl
  case memory =>
    have hreq : 4 * (b.length / 2) = req := by rw [hb]
    rw [encFeedBody_eq]
    exact symbols_of_store rfl rfl ((encPairs_length _ b).trans hreq) fun u hu => encPairs_getD _ b (hreq ▸ hu)

/-- Settles O32: the store of the tail's symbols, or of none. -/
theorem encFinalWritesTail : Obligations.EncFinalWritesTail := by
  intro s k hk es ctx req w stops
  have hreq : 2 * ctx.pending = req := by cases hc : ctx.cached <;> simp [EncCtx.pending, req, hc]
  have hw : encFinalWindows s k.toNat = w := by
    rw [encFinalWindows, State.dstSymsWin, Config.es_eq, hreq]
    rfl
  have hexec : exec (.encFinal k) s = .next (s.whenReady ctx.phase w (encFinalBody k.toNat)) :=
    hw ▸ if_pos hk
  refine ⟨cmdWord_ctx_toNat 0x03 k, State.whenReady_outcomes hexec fun h => ⟨_, h, ?registers, ?memory⟩⟩
  case registers =>
    rw [encFinalBody_eq, hw]
    rfl
  case memory =>
    rw [encFinalBody_eq]
    refine symbols_of_store rfl rfl ?length ?symbols
    case length => simp only [ctx, req, apply_ite List.length, Tail.toList_length, List.length_nil]
    case symbols =>
      intro u hu
      have hcached : ctx.cached = true := Classical.byContradiction fun hn => by
        have hzero : req = 0 := if_neg hn
        omega
      rw [if_pos hcached]

/-! ## DEC_FEED and DEC_FINAL (42_streaming R222, R227) -/

/-- The number of symbols of a DEC_FEED, its buffer included. -/
theorem decFeed_length (s : State) (k : Nat) :
    ((s.decAt k).buffer ++ s.srcSyms).length = (s.decAt k).count.val + s.srcLen.toNat := by
  rw [List.length_append, DecCtx.buffer_length, State.srcSyms_length]

/-- Settles O33: the decoder over the complete groups, all of them good or up to the first bad one. -/
theorem decFeedDecodesGroups : Obligations.DecFeedDecodesGroups := by
  intro s k hk ctx i n groups req w stops t group left wrote
  have hw : decFeedWindows s k.toNat = w := by
    rw [decFeedWindows, State.srcSymsWin, Config.es_eq]
    rfl
  have hexec : exec (.decFeed k) s = .next (s.whenReady ctx.phase w (decFeedBody k.toNat)) :=
    hw ▸ if_pos hk
  have ht : (s.decAt k.toNat).buffer ++ s.srcSyms = t := congrArg (ctx.buffer ++ ·) (sourceSymbols_eq s).symm
  have hlen : t.length = i + n := ht ▸ decFeed_length s k.toNat
  refine ⟨cmdWord_ctx_toNat 0x05 k, State.whenReady_outcomes hexec fun h f => ⟨fun hok => ⟨_, h, ?good⟩,
    fun g e hg hok he => ⟨_, h, ?bad⟩⟩⟩
  case good =>
    have hafter : DecCtx.after t =
        { count := Fin.ofNat 4 ((i + n) % 4), trail0 := left 0, trail1 := left 1, trail2 := left 2
          trail3 := left 3, phase := .opened } := by
      simp only [DecCtx.after, getD_drop, hlen] <;> rfl
    rw [decFeedBody_eq, ht, decGroups_of_ok (f := f) (by rwa [hlen]), hlen, ← hafter, hw]
    exact ⟨rfl, units_of_store rfl⟩
  case bad =>
    rw [decFeedBody_eq, ht, decGroups_of_err (by rwa [hlen]) hok he]
    simp only [flatMap_unitBytes_length]
    exact ⟨rfl, units_of_store rfl⟩

section Final

variable {k : Nat} {s : State}

/-- Ending a stream with nothing buffered closes its context. -/
theorem decFinalBody_of_zero (hi : (s.decAt k).count.val = 0) : decFinalBody k s = { s with
    dec := s.dec.set k (DecCtx.empty .closed), result := 0, status := statusAfter s .noError } := by
  simpa [hi] using decFinalBody_cases k s

/-- One or three buffered symbols are no tail. -/
theorem decFinalBody_of_odd (hi : (s.decAt k).count.val = 1 ∨ (s.decAt k).count.val = 3) :
    decFinalBody k s = { s with
      dec := s.dec.set k (DecCtx.empty .failed), result := 0, status := statusAfter s .malformedTail } := by
  rcases hi with hi | hi <;> simpa [hi] using decFinalBody_cases k s

/-- Two buffered symbols that `Dec2` rejects fail with its error. -/
theorem decFinalBody_of_two_err {e : ErrCode} (hi : (s.decAt k).count.val = 2)
    (hd : dec2 s.cfg.alphabet ⟨(s.decAt k).trail0, (s.decAt k).trail1⟩ = .err e) : decFinalBody k s = { s with
      dec := s.dec.set k (DecCtx.empty .failed), result := 0, status := statusAfter s e } := by
  simpa [hi, hd] using decFinalBody_cases k s

/-- Two buffered symbols that `Dec2` accepts are the tail of its byte. -/
theorem decFinalBody_of_two_ok {x : Byte} (hi : (s.decAt k).count.val = 2)
    (hd : dec2 s.cfg.alphabet ⟨(s.decAt k).trail0, (s.decAt k).trail1⟩ = .ok x) : decFinalBody k s = { s with
      mem := s.mem.write s.dstAddr.toNat x
      dec := s.dec.set k (DecCtx.empty .closed), result := 1, status := statusAfter s .noError } := by
  simpa [hi, hd] using decFinalBody_cases k s

end Final

/-- Settles O34: DEC_FINAL by the number of symbols buffered. -/
theorem decFinalEndsStream : Obligations.DecFinalEndsStream := by
  intro s k hk ctx i req w stops tail ended fails
  have hw : decFinalWindows s k.toNat = w := by
    simp only [decFinalWindows, Fin.ext_iff] <;> rfl
  have hexec : exec (.decFinal k) s = .next (s.whenReady ctx.phase w (decFinalBody k.toNat)) :=
    hw ▸ if_pos hk
  refine ⟨cmdWord_ctx_toNat 0x06 k, State.whenReady_outcomes hexec fun h => ?_⟩
  refine ⟨fun hi => h.trans (congrArg _ (decFinalBody_of_zero hi)),
    fun hi => h.trans (congrArg _ (decFinalBody_of_odd hi)),
    fun e hi hd => h.trans (congrArg _ (decFinalBody_of_two_err hi hd)), fun x hi hd => ⟨_, h, ?_⟩⟩
  rw [decFinalBody_of_two_ok hi hd]
  exact ⟨rfl, fun _ => (Memory.read_write ..).trans (ite_congr (propext eq_comm) (fun _ => rfl) fun _ => rfl)⟩

end Sys2Proof.Machine
end

section
/-! PROOFS. The vector and divider family: exact division by reciprocals, the encode and decode lanes as the scalar
codec, and what DIVC, VENC and VDEC store (43_vector_divider R250 to R264). -/

namespace Sys2Proof.Machine

/-! ## The divider (43_vector_divider R250 to R253) -/

/-- Two 16-bit fields of a word do not overlap: the word is their sum. -/
theorem ofNat_shift16_or {r q : Nat} (hr : r < 65536) (hq : q < 65536) :
    (BitVec.ofNat 32 r <<< 16) ||| BitVec.ofNat 32 q = BitVec.ofNat 32 (r * 65536 + q) := by
  have hr32 : (BitVec.ofNat 32 r).toNat = r := Nat.mod_eq_of_lt (by omega)
  have hq32 : (BitVec.ofNat 32 q).toNat = q := Nat.mod_eq_of_lt (by omega)
  apply BitVec.eq_of_toNat_eq
  rw [toNat_shift_or _ _ 16 (by omega) (by omega), hr32, hq32, BitVec.toNat_ofNat]
  omega

/-- The divisors are 10 to 2250, so that quotients and remainders of 15-bit dividends have 16 bits. -/
theorem divisorValue_bounds (d : Divisor) : 10 ≤ Divisor.value d ∧ Divisor.value d ≤ 2250 := by cases d <;> decide

/-- DIVC of a dividend in the domain writes the true quotient and remainder. -/
theorem exec_divc_of_le {s : State} (d : Divisor) (h : s.unitIn.toNat ≤ 0x7FFF) : exec (.divc d) s = .next { s with
    unitOut := BitVec.ofNat 32 (s.unitIn.toNat % Divisor.value d * 65536 + s.unitIn.toNat / Divisor.value d)
    status := statusAfter s .noError } := by
  obtain ⟨hlow, hhigh⟩ := divisorValue_bounds d
  have hrem : s.unitIn.toNat % Divisor.value d < Divisor.value d := Nat.mod_lt _ (by omega)
  have hquot : s.unitIn.toNat / Divisor.value d ≤ s.unitIn.toNat := Nat.div_le_self ..
  rw [exec, execDivc, if_neg (Nat.not_lt.mpr h), divC_eq d _ (Nat.lt_succ_of_le h),
    ← ofNat_shift16_or (by omega) (by omega)]
  rfl

/-- DIVC of a larger dividend only reports. -/
theorem exec_divc_of_lt {s : State} (d : Divisor) (h : 0x7FFF < s.unitIn.toNat) :
    exec (.divc d) s = .next { s with status := statusAfter s .badOperand } := if_pos h

/-- Settles O24: the two outcomes of DIVC, at each divisor's selector and value. -/
theorem divcGivesQuotientAndRemainder : Obligations.DivcGivesQuotientAndRemainder := by
  intro s d
  have inDomain := exec_divc_of_le (s := s) d
  have above := exec_divc_of_lt (s := s) d
  cases d with
  | scnb | snb | sb | sc => exact ⟨by decide, inDomain, above⟩

/-! ## The lanes are the scalar codec (43_vector_divider R256, R260) -/

/-- The polarity bit of a unit. -/
theorem getLsbD_15_eq (v : UnitVal) : v.getLsbD 15 = decide (32768 ≤ v.toNat) :=
  (BitVec.msb_eq_getLsbD_last v).symm.trans (BitVec.msb_eq_decide v)

/-- The chain of exact divisions gives the digits of `Enc2`. -/
theorem vEncLane_eq_enc2 (a : Alphabet) (v : UnitVal) : vEncLane a v = enc2 a v := by
  have hw : v.toNat % 32768 < 32768 := Nat.mod_lt _ (by decide)
  have hmod : v.toNat % 32768 % 2250 % 150 = v.toNat % 32768 % 150 := Nat.mod_mod_of_dvd _ (by decide)
  have hib : v.toNat % 32768 % 150 % 10 = v.toNat % 32768 % 10 := Nat.mod_mod_of_dvd _ (by decide)
  rw [enc2_eq_orientedGroup, vEncLane, getLsbD_15_eq, toNat_and_7FFF]
  simp only [divC_eq .scnb _ hw, divC_eq .snb _ (show v.toNat % 32768 % 2250 < 32768 by omega),
    divC_eq .sb _ (show v.toNat % 32768 % 150 < 32768 by omega), Divisor.value, hmod, hib]
  rfl

/-- Settles O25: the digits agree in either orientation. -/
theorem vectorEncodeLaneIsScalar : Obligations.VectorEncodeLaneIsScalar := vEncLane_eq_enc2

/-- In one orientation, a classification in the class that a position must have is the index `Dec4` looks up there, and
both answer the same weighted sum. -/
theorem laneValue_eq_some_iff (a : Alphabet) (high : Bool) (r c n b : Sym) (v : UnitVal) :
    laneValue high (a.classify r) (a.classify c) (a.classify n) (a.classify b) = some v ↔
      groupValue a high r c n b = .ok v := by
  unfold laneValue
  split
  · rename_i ir ic inn ib hr hc hn hb
    rw [groupValue, Alphabet.idx_eq_some_iff.mpr hr, Alphabet.idx_eq_some_iff.mpr hc,
      Alphabet.idx_eq_some_iff.mpr hn, Alphabet.idx_eq_some_iff.mpr hb]
    by_cases hle : ir * 2250 + ic * 150 + inn * 10 + ib ≤ 0x7FFF
    · cases high <;> simp [hle, Nat.not_lt.mpr hle]
    · simp [hle, Nat.lt_of_not_le hle]
  · rename_i hno
    unfold groupValue
    split
    · rename_i hr hc hn hb
      exact absurd (Alphabet.idx_eq_some_iff.mp hb) (hno _ _ _ _ (Alphabet.idx_eq_some_iff.mp hr)
        (Alphabet.idx_eq_some_iff.mp hc) (Alphabet.idx_eq_some_iff.mp hn))
    · simp

/-- Lane and scalar decoder take their orientation from the same test. -/
theorem vDecLane_eq_some_iff (a : Alphabet) (g : Group) (v : UnitVal) : vDecLane a g = some v ↔ dec4 a g = .ok v := by
  rw [vDecLane_eq, dec4]
  split
  · exact laneValue_eq_some_iff a false ..
  · exact laneValue_eq_some_iff a true ..

/-! ## VENC and VDEC before their granules -/

/-- The outcomes of a vector command, `D` being what is to hold of its body. -/
theorem State.onGranules_outcomes {s : State} {unit : Nat} {w : Windows} {f : State → State}
    {x : Host.Outcome State Fault Refusal} {D : Prop} (hx : x = s.onGranules unit w f)
    (hD : s.srcLen.toNat % unit = 0 → x = .next (f s) → D) :
    (s.cfg.hasVec = false → x = .next { s with status := statusAfter s .illegalCmd }) ∧
    (s.cfg.hasVec = true → s.srcLen.toNat % unit ≠ 0 →
      x = .next { s with result := 0, status := statusAfter s .badOperand }) ∧
    (∀ e, s.cfg.hasVec = true → s.srcLen.toNat % unit = 0 → s.memCheck w = some e →
      x = .next { s with result := 0, status := statusAfter s e }) ∧
    (s.cfg.hasVec = true → s.srcLen.toNat % unit = 0 → s.memCheck w = none → D) := by
  refine ⟨fun hv => hx.trans ?absent, fun hv hn => hx.trans ?part,
    fun e hv hn hm => hx.trans (State.onGranules_of_fails hv hn hm f), fun hv hn hm => hD hn (hx.trans ?ready)⟩
  case absent => exact if_neg (ne_true_of_eq_false hv)
  case part => exact (if_pos hv).trans (if_pos hn)
  case ready => rw [State.onGranules, if_pos hv, if_neg (not_not_intro hn), hm]

/-- A vector command that reports no error passed its checks. -/
theorem State.onGranules_passed {s t : State} {unit : Nat} {w : Windows} {f : State → State}
    (h : s.onGranules unit w f = .next t) (he : t.status.err = .noError) :
    s.cfg.hasVec = true ∧ s.srcLen.toNat % unit = 0 ∧ s.memCheck w = none := by
  rcases State.onGranules_cases s unit w f with ⟨-, e⟩ | ⟨-, -, e⟩ | ⟨-, -, c, hc, e⟩ | ⟨hv, hn, hm, -⟩
  · cases h.symm.trans e
    cases he
  · cases h.symm.trans e
    cases he
  · cases h.symm.trans e
    rcases memCheck_code hc with rfl | rfl | rfl <;> cases he
  · exact ⟨hv, hn, hm⟩

/-! ## VENC (43_vector_divider R254, R257) -/

/-- A granule's lanes encode its pairs. -/
theorem vencLanes_eq_encPairs (a : Alphabet) : ∀ b : List Byte, vencLanes a b = encPairs a b
  | [] | [_] => rfl
  | b0 :: b1 :: rest => by rw [vencLanes, encPairs, vEncLane_eq_enc2, vencLanes_eq_encPairs a rest]

/-- Whole granules are encoded as the pairs of all their bytes. -/
theorem vencGranules_eq_encPairs (a : Alphabet) {g : Nat} {b : List Byte} (h : b.length = 32 * g) :
    vencGranules a g b = encPairs a b := by
  induction g generalizing b with
  | zero =>
    rw [List.eq_nil_of_length_eq_zero h]
    rfl
  | succ g ih =>
    rw [vencGranules, vencLanes_eq_encPairs, ih (by rw [List.length_drop]; omega),
      ← encPairs_append (by rw [List.length_take]; omega), List.take_append_drop]

/-- Pair `j` of the source bytes, in memory. -/
theorem pairAt_srcBytes {s : State} {j : Nat} (h : 2 * j + 1 < s.srcLen.toNat) : pairAt s.srcBytes j =
    unitOf (s.mem.read (s.srcAddr.toNat + 2 * j)) (s.mem.read (s.srcAddr.toNat + 2 * j + 1)) := by
  rw [pairAt, State.srcBytes_getD s _ (by omega), State.srcBytes_getD s _ h]
  rfl

/-- Settles O27: the store of the encoded pairs, symbol by symbol. -/
theorem vencEncodesEveryUnit : Obligations.VencEncodesEveryUnit := by
  intro s es n req w stops
  have hw : vencWindows s = w := by
    rw [vencWindows, State.dstSymsWin, Config.es_eq]
    rfl
  have hexec : exec .venc s = s.onGranules 32 w vencBody := hw ▸ rfl
  refine ⟨by decide, State.onGranules_outcomes hexec fun hn h => ⟨_, h, ?registers, ?memory⟩⟩
  case registers => rw [vencBody_eq]
  case memory =>
    have hlen : s.srcBytes.length = n := s.srcBytes_length
    have hreq : 4 * (s.srcBytes.length / 2) = req := by omega
    rw [vencBody_eq, vencGranules_eq_encPairs _ (by omega)]
    refine symbols_of_store rfl rfl ((encPairs_length _ _).trans hreq) fun u hu => ?_
    rw [encPairs_getD _ _ (hreq ▸ hu), vEncLane_eq_enc2, pairAt_srcBytes (by omega)]

/-! ## VDEC (43_vector_divider R254, R261, R263) -/

/-- The lanes of a symbol sequence are its groups'. -/
theorem vdecLanes_eq_map (a : Alphabet) : ∀ t : List Sym,
    vdecLanes a t = (List.range (t.length / 4)).map fun j => vDecLane a (groupAt t j)
  | [] | [_] | [_, _] | [_, _, _] => by simp [vdecLanes]
  | s0 :: s1 :: s2 :: s3 :: rest => by
    have hlen : (s0 :: s1 :: s2 :: s3 :: rest).length / 4 = rest.length / 4 + 1 := by
      simp only [List.length_cons]
      omega
    rw [vdecLanes, vdecLanes_eq_map a rest, hlen, List.range_succ_eq_map, List.map_cons, List.map_map]
    rfl

/-- Group `j` of what is left after `n` granules. -/
theorem groupAt_drop_granules (t : List Sym) (n j : Nat) : groupAt (t.drop (64 * n)) j = groupAt t (16 * n + j) := by
  simp only [groupAt, getD_drop]
  congr 2 <;> omega

/-- The lanes of granule `n`. -/
theorem vdecLanes_granule (a : Alphabet) {t : List Sym} {n : Nat} (h : 64 * n + 64 ≤ t.length) :
    vdecLanes a ((t.drop (64 * n)).take 64) =
      ((List.range 16).map (16 * n + ·)).map fun j => vDecLane a (groupAt t j) := by
  have hlen : ((t.drop (64 * n)).take 64).length / 4 = 16 := by
    rw [List.length_take, List.length_drop]
    omega
  rw [vdecLanes_eq_map, hlen, List.map_map]
  refine List.map_congr_left fun j hj => ?_
  rw [groupAt_take _ _ (List.mem_range.mp hj), groupAt_drop_granules]
  rfl

/-- A granule whose lanes are all valid gives their bytes. -/
theorem granuleBytes_of_valid {lane : Nat → Option UnitVal} {f : Nat → UnitVal} {l : List Nat}
    (h : ∀ j ∈ l, lane j = some (f j)) : granuleBytes (l.map lane) = some (l.flatMap fun j => unitBytes (f j)) := by
  induction l with
  | nil => rfl
  | cons j l ih =>
    rw [List.map_cons, h j List.mem_cons_self, granuleBytes, ih fun i hi => h i (List.mem_cons_of_mem _ hi)]
    rfl

/-- A granule with an invalid lane gives none. -/
theorem granuleBytes_of_invalid {l : List (Option UnitVal)} (h : none ∈ l) : granuleBytes l = none := by
  induction l with
  | nil => cases h
  | cons o l ih =>
    cases o with
    | none => rfl
    | some v => rw [granuleBytes, ih (by simpa using h), Option.map_none]

/-- When the lanes of the first `n` granules are valid, the decoder goes on with what is left after them. -/
theorem vdecGranules_prefix {a : Alphabet} {t : List Sym} {f : Nat → UnitVal} {n m : Nat}
    (hlen : 64 * (n + m) ≤ t.length) (h : ∀ j < 16 * n, vDecLane a (groupAt t j) = some (f j)) :
    vdecGranules a (n + m) t =
      (((List.range (16 * n)).flatMap fun j => unitBytes (f j)) ++ (vdecGranules a m (t.drop (64 * n))).1,
        (vdecGranules a m (t.drop (64 * n))).2) := by
  induction n generalizing m with
  | zero => simp
  | succ n ih =>
    have hgranule : ∀ j ∈ (List.range 16).map (16 * n + ·), vDecLane a (groupAt t j) = some (f j) := by
      intro j hj
      obtain ⟨i, hi, rfl⟩ := List.mem_map.mp hj
      have hi' := List.mem_range.mp hi
      exact h _ (by omega)
    rw [Nat.add_right_comm, Nat.add_assoc, ih (by omega) fun j hj => h j (by omega), vdecGranules,
      vdecLanes_granule a (by omega), granuleBytes_of_valid hgranule, List.drop_drop, Nat.mul_succ, Nat.mul_succ,
      List.range_add, List.flatMap_append, List.append_assoc]

/-- When every lane is valid, the decoder answers all their bytes. -/
theorem vdecGranules_of_ok {a : Alphabet} {t : List Sym} {f : Nat → UnitVal} {n : Nat} (hlen : t.length = 64 * n)
    (h : ∀ j < 16 * n, vDecLane a (groupAt t j) = some (f j)) :
    vdecGranules a n t = ((List.range (16 * n)).flatMap fun j => unitBytes (f j), true) := by
  rw [← Nat.add_zero n, vdecGranules_prefix (by omega) h, vdecGranules, List.append_nil]
  rfl

/-- The first granule with an invalid lane ends the decoding. -/
theorem vdecGranules_of_bad {a : Alphabet} {t : List Sym} {f : Nat → UnitVal} {n g bad : Nat}
    (hlen : t.length = 64 * n) (hg : g < n) (h : ∀ j < 16 * g, vDecLane a (groupAt t j) = some (f j))
    (hlo : 16 * g ≤ bad) (hhi : bad < 16 * g + 16) (hbad : vDecLane a (groupAt t bad) = none) :
    vdecGranules a n t = ((List.range (16 * g)).flatMap fun j => unitBytes (f j), false) := by
  obtain ⟨m, rfl⟩ := Nat.exists_eq_add_of_lt hg
  have hmem : none ∈ ((List.range 16).map (16 * g + ·)).map fun j => vDecLane a (groupAt t j) :=
    List.mem_map.mpr ⟨bad, List.mem_map.mpr ⟨bad - 16 * g, List.mem_range.mpr (by omega), by omega⟩, hbad⟩
  rw [Nat.add_assoc, vdecGranules_prefix (by omega) h, vdecGranules, vdecLanes_granule a (by omega),
    granuleBytes_of_invalid hmem, List.append_nil]

/-- Settles O28: the decoder over the granules, all of them good or up to the first with an invalid lane. -/
theorem vdecDecodesGranules : Obligations.VdecDecodesGranules := by
  intro s n req w stops lane wrote
  have hw : vdecWindows s = w := by
    rw [vdecWindows, State.srcSymsWin, Config.es_eq]
    rfl
  have hexec : exec .vdec s = s.onGranules 64 w vdecBody := hw ▸ rfl
  have hlen : (sourceSymbols s).length = n := (congrArg _ (sourceSymbols_eq s)).trans s.srcSyms_length
  refine ⟨by decide, State.onGranules_outcomes hexec fun hn h f => ⟨fun hok => ⟨_, h, ?good⟩,
    fun g bad hg hok hlo hhi hbad => ⟨_, h, ?bad⟩⟩⟩
  case good =>
    have hlanes : n / 4 = 16 * (n / 64) := by omega
    rw [hlanes] at hok ⊢
    rw [vdecBody_eq, ← sourceSymbols_eq, vdecGranules_of_ok (by omega) hok]
    exact ⟨rfl, units_of_store rfl⟩
  case bad =>
    have hbytes : 2 * (16 * g) = 32 * g := by omega
    rw [vdecBody_eq, ← sourceSymbols_eq, vdecGranules_of_bad (by omega) hg hok hlo hhi hbad]
    simp only [flatMap_unitBytes_length, hbytes]
    exact ⟨rfl, units_of_store rfl⟩

/-! ## The vector commands as the scalar codec (43_vector_divider R264) -/

/-- Settles O29: what VENC stores is O27's, with the lanes as `Enc2`; and VDEC reports an error by O28 unless every
group decodes. -/
theorem vectorCommandsEqualScalarCodec : Obligations.VectorCommandsEqualScalarCodec := by
  intro s t he
  constructor
  · intro ht
    obtain ⟨hv, hn, hm⟩ := State.onGranules_passed ht he
    obtain ⟨-, -, -, -, stores⟩ := vencEncodesEveryUnit s
    obtain ⟨u, hu, -, hsyms, -⟩ := stores hv hn (by rwa [vencWindows, State.dstSymsWin, Config.es_eq] at hm)
    cases ht.symm.trans hu
    simpa only [vEncLane_eq_enc2] using hsyms
  · intro ht
    obtain ⟨hv, hn, hm⟩ := State.onGranules_passed ht he
    obtain ⟨-, -, -, -, stores⟩ := vdecDecodesGranules s
    have body := stores hv hn (by rwa [vdecWindows, State.srcSymsWin, Config.es_eq] at hm)
    rcases first_bad_group s.cfg.alphabet (sourceSymbols s) (s.srcLen.toNat / 4) with
      ⟨f, hok⟩ | ⟨f, bad, e, hlt, hok, hbad⟩
    · obtain ⟨u, hu, -, hbytes, -⟩ := (body f).1 fun j hj => (vDecLane_eq_some_iff ..).mpr (hok j hj)
      cases ht.symm.trans hu
      exact fun g hg => ⟨f g, hok g hg, hbytes g hg⟩
    · have hnone : vDecLane s.cfg.alphabet (groupAt (sourceSymbols s) bad) = none :=
        Option.eq_none_iff_forall_ne_some.mpr fun v hsome => by
          cases hbad.symm.trans ((vDecLane_eq_some_iff ..).mp hsome)
      obtain ⟨u, hu, hregs, -⟩ := (body f).2 (bad / 16) bad (by omega)
        (fun j hj => (vDecLane_eq_some_iff ..).mpr (hok j (by omega))) (by omega) (by omega) hnone
      cases ht.symm.trans hu
      rw [hregs] at he
      cases he

end Sys2Proof.Machine
end

section
/-! PROOFS. The host family: the only word of NOP, and register writes while idle and while busy
(44_host_interface R292 to R294, R296). -/

namespace Sys2Proof

/-! ## The words with `OPC = 0` (44_host_interface R296) -/

theorem decodePlain_eq_command_iff {w : Word} {i j : Instr} :
    decodePlain w i = .command j ↔ ctxOf w = 0 ∧ selOf w = 0 ∧ i = j := by
  unfold decodePlain
  split
  · simp_all
  · split <;> simp_all

theorem decodeStream_eq_command_iff {w : Word} {f : BitVec 4 → Instr} {j : Instr} :
    decodeStream w f = .command j ↔ selOf w = 0 ∧ f (ctxOf w) = j := by
  unfold decodeStream
  split <;> simp_all

theorem decodeSel_eq_command_iff {w : Word} {i : Option Instr} {j : Instr} :
    decodeSel w i = .command j ↔ ctxOf w = 0 ∧ i = some j := by
  unfold decodeSel
  split
  · simp_all
  · cases i <;> simp_all

/-- A word decodes to NOP when every field is 0: the first row of `decode` alone answers NOP, and that row leaves no
field free. -/
theorem decode_eq_nop_iff (w : Word) : decode w = .command .nop ↔ w = 0 := by
  constructor
  · intro h
    unfold decode at h
    split at h
    · cases h
    next hrsv =>
      have zero_of_plain (hopc : (opcOf w).toNat = 0) (h : decodePlain w .nop = .command .nop) : w = 0 := by
        obtain ⟨hctx, hsel, -⟩ := decodePlain_eq_command_iff.mp h
        exact word_ext_fields (BitVec.eq_of_toNat_eq hopc) hctx hsel (Decidable.not_not.mp hrsv)
      split at h
      case h_1 hopc => exact zero_of_plain hopc h
      all_goals simp [decodePlain_eq_command_iff, decodeStream_eq_command_iff, decodeSel_eq_command_iff] at h
  · rintro rfl
    decide

/-- With `OPC = 0` the decoder answers NOP or rejects. -/
theorem eq_nop_of_decode_of_opcOf_eq_zero {w : Word} {i : Instr} (hopc : opcOf w = 0) (h : decode w = .command i) :
    i = .nop := by
  rw [decode, hopc] at h
  split at h
  · cases h
  · exact (decodePlain_eq_command_iff.mp h).2.2.symm

/-- Settles O15: NOP's arm of `exec`, and the decoder on `OPC = 0`. -/
theorem nopWritesOnlyStatus : Obligations.NopWritesOnlyStatus := by
  refine ⟨fun s => rfl, decode_eq_nop_iff, fun c w hopc hw => ?_⟩
  cases hd : decode w with
  | command i =>
    obtain rfl := eq_nop_of_decode_of_opcOf_eq_zero hopc hd
    exact absurd ((decode_eq_nop_iff w).mp hd) hw
  | rejected why => exact legal_of_rejected hd c

namespace Machine

/-! ## Register writes while idle and while busy (44_host_interface R292 to R294) -/

/-- An aligned 32-bit write in the register block is answered by `writeReg` at its offset. -/
theorem hostAct_regWrite (s : State) (v : Word) {off : Nat} (hlt : off < 4096) (h4 : off % 4 = 0) :
    hostAct (.regWrite (s.cfg.regBase + off) 4 v) s = .next (writeReg s off v) :=
  State.onRegister_aligned s off (fun off => writeReg s off v) hlt h4

theorem writeReg_cmd_of_idle {s : State} (h : s.status.busy = false) (w : Word) : writeReg s 0x008 w = s.accept w := by
  simp [writeReg, h]

theorem writeReg_of_idle {s : State} (h : s.status.busy = false) {off : Nat} (hoff : off ≠ 0x008) (v : Word) :
    writeReg s off v = writeOperand s off v := by
  simp [writeReg, h, hoff]

theorem writeReg_of_busy {s : State} (h : s.status.busy = true) {off : Nat} (hoff : off ∈ writableOffsets) (v : Word) :
    writeReg s off v = s.markHz := by
  rw [writeReg, if_pos h, if_pos hoff]

/-- CMD and the RW registers are aligned registers of the block. -/
theorem writableOffsets_aligned : ∀ off ∈ writableOffsets, off < 4096 ∧ off % 4 = 0 := by decide

/-- Settles O40: `State.accept` at CMD's offset, and then the completion of the word accepted. -/
theorem cmdWriteIsAccepted : Obligations.CmdWriteIsAccepted := by
  intro s w hidle
  refine ⟨s.accept w, ?_, rfl, ?_⟩
  · rw [hostAct_regWrite s w (by decide) (by decide), writeReg_cmd_of_idle hidle]
  · rw [blockTurn_of_busy rfl, complete, State.accept_cmd]
    cases decode w with
    | command i => rfl
    | rejected why => rfl

/-- Settles O42: `writeOperand` at each RW offset, a symbol by `clipSym_eq`; any other offset has no arm. -/
theorem operandWriteWhileIdle : Obligations.OperandWriteWhileIdle := by
  intro s v hidle wr sym
  have hsym : clipSym s.cfg.symW v = sym := clipSym_eq ..
  have operand : ∀ off ∈ writableOffsets, off ≠ 0x008 → wr off = .next (writeOperand s off v) := by
    intro off hoff hcmd
    obtain ⟨hlt, h4⟩ := writableOffsets_aligned off hoff
    rw [← writeReg_of_idle hidle hcmd]
    exact hostAct_regWrite s v hlt h4
  rw [← hsym]
  refine ⟨?_, ?_, ?_, ?_, ?_, ?_, ?_, ?_, ?_, fun off hlt h4 hoff => ?unmapped⟩
  case unmapped => exact (hostAct_regWrite s v hlt h4).trans (congrArg _ (writeReg_of_not_mem hoff v))
  all_goals exact operand _ (by decide) (by decide)

/-! ## The sticky flag HZ (44_host_interface R293) -/

/-- Every command completes with HZ as it was. -/
theorem exec_keeps_hz {i : Instr} {s t : State} (h : exec i s = .next t) : t.status.hz = s.status.hz := by
  refine exec_elim s (fun _ u => u.status.hz = s.status.hz) ?illegal ?failMem ?fail ?encInit ?decInit ?encFeed
    ?encFinal ?decFeed ?decFinal ?uenc2 ?uenc1 ?unitOut ?lutSym ?venc ?vdec i t h
  case decFeed =>
    intro k _ _ _
    rw [decFeedBody_eq]
    rfl
  case decFinal =>
    intro k _ _ _
    rcases decFinalBody_cases k.toNat s with ⟨-, e⟩ | ⟨-, e⟩ | ⟨-, ⟨_, -, e⟩ | ⟨_, -, e⟩⟩ <;> rw [e] <;> rfl
  case vdec =>
    intro _ _ _
    rw [vdecBody_eq]
    rfl
  all_goals intros; rfl

/-- The block's turn, when it answers a state, waits, rejects the pending word or performs a command. -/
theorem eq_or_exec_of_blockTurn {s t : State} (h : blockTurn s = .next t) :
    t = s ∨ t = s.illegal ∨ ∃ i, exec i s = .next t := by
  unfold blockTurn complete at h
  split at h
  · split at h
    next i _ => exact .inr (.inr ⟨i, h⟩)
    · cases h
      exact .inr (.inl rfl)
  · cases h
    exact .inl rfl

theorem blockTurn_keeps_hz {s t : State} (h : blockTurn s = .next t) : t.status.hz = s.status.hz := by
  rcases eq_or_exec_of_blockTurn h with rfl | rfl | ⟨i, hi⟩
  · rfl
  · rfl
  · exact exec_keeps_hz hi

/-- Only an accepted write of CMD clears HZ. -/
theorem writeReg_keeps_hz {s : State} {off : Nat} (v : Word) (hz : s.status.hz = true)
    (h : s.status.busy = true ∨ off ≠ 0x008) : (writeReg s off v).status.hz = true := by
  cases hb : s.status.busy with
  | true =>
    rw [writeReg, if_pos hb]
    split
    · rfl
    · exact hz
  | false =>
    obtain ⟨-, -, -, hframe⟩ := writeReg_frame s off v
    have hcmd : off ≠ 0x008 := h.resolve_left (ne_true_of_eq_false hb)
    rw [(hframe hb hcmd).2, hz]

/-- A register access that is answered is an aligned one of 32 bits, answered at its offset. -/
theorem State.exists_offset_of_onRegister {s t : State} {addr width : Nat} {f : Nat → State}
    (h : s.onRegister addr width f = .next t) : ∃ off, addr = s.cfg.regBase + off ∧ width = 4 ∧ t = f off := by
  unfold State.onRegister at h
  split at h
  · cases h
  · split at h <;> cases h
    exact ⟨addr - s.cfg.regBase, by omega, by omega, rfl⟩

/-- A host action leaves HZ set unless it is the reset input or an accepted write of CMD. -/
theorem hostAct_keeps_hz {a : HostAction} {s t : State} (h : hostAct a s = .next t) (hz : s.status.hz = true) :
    t.status.hz = true ∨ a = .reset ∨
      (s.status.busy = false ∧ ∃ w, a = .regWrite (s.cfg.regBase + 0x008) 4 w) := by
  unfold hostAct at h
  cases a with
  | reset => exact .inr (.inl rfl)
  | yield => exact .inl ((blockTurn_keeps_hz h).trans hz)
  | regRead addr width =>
    obtain ⟨off, rfl⟩ := State.onRegister_eq_next h
    exact .inl hz
  | memWrite addr b => exact .inl (State.onMemory_eq_next h ▸ hz)
  | memRead addr => exact .inl (State.onMemory_eq_next h ▸ hz)
  | regWrite addr width v =>
    obtain ⟨off, rfl, rfl, rfl⟩ := State.exists_offset_of_onRegister h
    cases hb : s.status.busy with
    | true => exact .inl (writeReg_keeps_hz v hz (.inl hb))
    | false =>
      by_cases hcmd : off = 0x008
      · exact .inr (.inr ⟨rfl, v, hcmd ▸ rfl⟩)
      · exact .inl (writeReg_keeps_hz v hz (.inr hcmd))

/-- Settles O41: the write is `State.markHz`; and a step is the block's turn or the host's oldest action. -/
theorem writeWhileBusyIsDropped : Obligations.WriteWhileBusyIsDropped := by
  refine ⟨fun s off v hbusy hoff => ?_, fun s t ht hz => ?_⟩
  · obtain ⟨hlt, h4⟩ := writableOffsets_aligned off hoff
    rw [hostAct_regWrite s v hlt h4, writeReg_of_busy hbusy hoff, State.markHz, hbusy]
  · unfold step at ht
    split at ht
    · exact .inl ((blockTurn_keeps_hz ht).trans hz)
    next a rest hin =>
      rcases hostAct_keeps_hz ht hz with hkept | rfl | ⟨hidle, w, rfl⟩
      · exact .inl hkept
      · exact .inr (.inl ⟨rest, hin⟩)
      · exact .inr (.inr ⟨hidle, w, rest, hin⟩)

end Machine

end Sys2Proof
end

section
/-! PROOFS. The reset family: no command writes outside its destination window, and so no reset that abandons one does
(20_memory R87, R90, 70_reset_and_hazards R362). -/

namespace Sys2Proof.Machine

/-! ## A command's writes stay in its destination window (20_memory R87, R90) -/

/-- ENC_FINAL stores exactly the bytes of its destination window (20_memory R87). -/
theorem encFinal_stores (s : State) (k : Nat) :
    (symBytes s.cfg.es
      (if (s.encAt k).cached then (enc1 s.cfg.alphabet (s.encAt k).trailingByte).toList else [])).length
      = (encFinalWindows s k).dst.bytes := by
  rw [symBytes_length, Nat.mul_comm]
  cases hc : (s.encAt k).cached <;> simp [encFinalWindows, State.dstSymsWin, Window.bytes, EncCtx.pending, hc]

/-- DEC_FINAL changes no byte outside its destination window, which holds the one byte of a good tail. -/
theorem decFinalBody_read_outside {s : State} {k a : Nat} (ha : (decFinalWindows s k).dst.has a = false) :
    (decFinalBody k s).mem.read a = s.mem.read a := by
  rcases decFinalBody_cases k s with ⟨-, e⟩ | ⟨-, e⟩ | ⟨hi, ⟨_, -, e⟩ | ⟨x, -, e⟩⟩ <;> rw [e]
  have hcount : (s.decAt k).count = 2 := Fin.ext hi
  have hbytes : (decFinalWindows s k).dst.bytes = 1 := by
    simp [decFinalWindows, State.dstBytesWin, Window.bytes, hcount]
  exact read_writeBytes_of_not_has s s.mem [x] _ rfl (Nat.le_of_eq hbytes.symm) a ha

/-- No command changes a byte outside its destination window: a memory command stores from the window's base no more
bytes than the window has, and any other leaves data memory. -/
theorem exec_read_outside {i : Instr} {s t : State} (h : exec i s = .next t) :
    ∀ a, (windowsOf s i).dst.has a = false → t.mem.read a = s.mem.read a := by
  refine exec_elim s (fun i u => ∀ a, (windowsOf s i).dst.has a = false → u.mem.read a = s.mem.read a) ?illegal
    ?failMem ?fail ?encInit ?decInit ?encFeed ?encFinal ?decFeed ?decFinal ?uenc2 ?uenc1 ?unitOut ?lutSym ?venc ?vdec
    i t h
  case encFeed =>
    intro k _ _ _
    rw [encFeedBody_eq]
    exact read_writeBytes_of_not_has s s.mem _ _ rfl (Nat.le_of_eq (encFeed_stores s k.toNat))
  case encFinal =>
    intro k _ _ _
    rw [encFinalBody_eq]
    exact read_writeBytes_of_not_has s s.mem _ _ rfl (Nat.le_of_eq (encFinal_stores s k.toNat))
  case decFeed =>
    intro k _ _ _
    rw [decFeedBody_eq]
    exact read_writeBytes_of_not_has s s.mem _ _ rfl (decFeed_stores_le s k.toNat)
  case decFinal => exact fun _ _ _ _ _ => decFinalBody_read_outside
  case venc =>
    intro _ hn _
    rw [vencBody_eq]
    exact read_writeBytes_of_not_has s s.mem _ _ rfl (Nat.le_of_eq (venc_stores s hn))
  case vdec =>
    intro _ hn _
    rw [vdecBody_eq]
    exact read_writeBytes_of_not_has s s.mem _ _ rfl (vdec_stores_le s hn)
  all_goals intros; rfl

/-! ## The pending word (30_encoding R126, 20_memory R87) -/

/-- The windows of a legal pending word are its command's. -/
theorem pendingWindows_of_command {s : State} {i : Instr} (hlegal : legal s.cfg s.cmd = true)
    (hi : decode s.cmd = .command i) : pendingWindows s = windowsOf s i := by
  rw [pendingWindows, hi]
  exact if_pos ((legal_of_command hi).symm.trans hlegal)

/-- The completion step changes no byte outside the pending word's destination window, whether the word is legal or
only reports ILLEGAL_CMD. -/
theorem complete_read_outside {s u : State} (h : complete s = .next u) {a : Nat}
    (ha : (pendingWindows s).dst.has a = false) : u.mem.read a = s.mem.read a := by
  cases hlegal : legal s.cfg s.cmd with
  | false =>
    cases (complete_of_not_legal hlegal).symm.trans h
    rfl
  | true =>
    obtain ⟨i, hi⟩ := exists_command_of_legal hlegal
    rw [pendingWindows_of_command hlegal hi] at ha
    exact exec_read_outside ((complete_of_command hi).symm.trans h) a ha

/-! ## The reset input while a command is pending (70_reset_and_hazards R362) -/

/-- Such a reset draws each byte between its value and the one the completion step would have left. -/
theorem State.read_hostReset_of_busy {s u : State} (hbusy : s.status.busy = true) (hu : complete s = .next u)
    (a : Nat) : s.hostReset.mem.read a =
      if Config.resetDraw s.resetDraws a = true then u.mem.read a else s.mem.read a := by
  have hafter : memAfterPending s = u.mem := by rw [memAfterPending, hu]
  rw [State.hostReset_eq]
  simp only [hbusy, if_true]
  rw [Memory.read_drawBetween, hafter]

/-- Settles O50: each byte is a draw of two values that are equal outside the destination window. -/
theorem resetAbandonsPendingCommand : Obligations.ResetAbandonsPendingCommand := by
  intro s u hbusy hu
  have hread := State.read_hostReset_of_busy hbusy hu
  refine ⟨s.hostReset, rfl, ?registers, fun a => ?mixed, fun a ha => ?outside⟩
  case registers =>
    rw [State.hostReset_eq]
    rfl
  case mixed =>
    rw [hread a]
    split
    · exact .inr rfl
    · exact .inl rfl
  case outside => rw [hread a, complete_read_outside hu ha, ite_self]

end Sys2Proof.Machine
end

section
/-! PROOFS. The words: the decoder and the encoder undo each other, and `Legal` in terms of both
(30_encoding R121 to R126). -/

namespace Sys2Proof

/-! ## The decoder reads back exactly the encoder's words -/

theorem decode_encode (i : Instr) : decode (encode i) = .command i := by
  cases i with
  | nop | uenc2 | uenc1 | udec4 | udec2 | lutCls | venc | vdec => decide
  | encInit | encFeed | encFinal | decInit | decFeed | decFinal => simp [decode, encode, decodeStream]
  | lutSym | divc => simp [decode, encode, decodeSel]

/-- A word with `RSV = 0` is put together from its other fields (30_encoding R121). -/
theorem eq_cmdWord {w : Word} {opc : BitVec 8} {ctx sel : BitVec 4} (hrsv : rsvOf w = 0)
    (hopc : (opcOf w).toNat = opc.toNat) (hctx : ctxOf w = ctx) (hsel : selOf w = sel) : w = cmdWord opc ctx sel := by
  apply word_ext_fields
  · rw [opcOf_cmdWord, BitVec.eq_of_toNat_eq hopc]
  · rw [ctxOf_cmdWord, hctx]
  · rw [selOf_cmdWord, hsel]
  · rw [rsvOf_cmdWord, hrsv]

/-- A word that decodes is its command's: each row of `decode` fixes the fields its command does not carry, and the
command carries the others. -/
theorem eq_encode_of_decode {w : Word} {i : Instr} (h : decode w = .command i) : w = encode i := by
  unfold decode at h
  split at h
  · cases h
  next hrsv =>
    have hrsv : rsvOf w = 0 := Decidable.not_not.mp hrsv
    split at h <;> rename_i hopc
    case h_1 | h_8 | h_9 | h_10 | h_11 | h_13 | h_15 | h_16 =>
      obtain ⟨hctx, hsel, rfl⟩ := decodePlain_eq_command_iff.mp h
      exact eq_cmdWord hrsv hopc hctx hsel
    case h_2 | h_3 | h_4 | h_5 | h_6 | h_7 =>
      obtain ⟨hsel, rfl⟩ := decodeStream_eq_command_iff.mp h
      exact eq_cmdWord hrsv hopc rfl hsel
    case h_12 =>
      obtain ⟨hctx, hmap⟩ := decodeSel_eq_command_iff.mp h
      obtain ⟨c, hc, rfl⟩ := Option.map_eq_some_iff.mp hmap
      exact eq_cmdWord hrsv hopc hctx (clsOfSel_eq_some hc)
    case h_14 =>
      obtain ⟨hctx, hmap⟩ := decodeSel_eq_command_iff.mp h
      obtain ⟨d, hd, rfl⟩ := Option.map_eq_some_iff.mp hmap
      exact eq_cmdWord hrsv hopc hctx (divisorOfSel_eq_some hd)
    case h_17 => cases h

/-- Settles O1: `eq_encode_of_decode` and `decode_encode`. -/
theorem decodeAndEncodeAgree : Obligations.DecodeAndEncodeAgree := fun _ i =>
  ⟨eq_encode_of_decode, fun hw => hw ▸ decode_encode i⟩

/-- Settles O2: `Legal` is the decoder's answer and then the configuration's. -/
theorem legalIsDecodableAndWellFormed : Obligations.LegalIsDecodableAndWellFormed := by
  intro c w
  rw [legal_eq_decode_legalIn]
  cases decode w with
  | command i => simp [Decoded.legalIn]
  | rejected why => simp [Decoded.legalIn]

end Sys2Proof
end

section
/-! PROOFS. What every command keeps: the registers that no command writes, the contexts of others, memory outside the
destination window, the codes, and the form in which symbols and memory are stored (10_state R41 to R54,
20_memory R87 to R90, 60_exceptions R320). -/

namespace Sys2Proof.Machine

/-! ## The registers (10_state R31, R41, R43, R45, R51) -/

/-- No command writes a field that is not named here, and each leaves `BUSY = 0` and HZ as it was. -/
theorem exec_frame {i : Instr} {s t : State} (h : exec i s = .next t) : t = { s with
    status := statusAfter s t.status.err, result := t.result, unitOut := t.unitOut
    sym0 := t.sym0, sym1 := t.sym1, sym2 := t.sym2, sym3 := t.sym3, enc := t.enc, dec := t.dec, mem := t.mem } := by
  refine exec_elim s (fun _ u => u = { s with
      status := statusAfter s u.status.err, result := u.result, unitOut := u.unitOut
      sym0 := u.sym0, sym1 := u.sym1, sym2 := u.sym2, sym3 := u.sym3, enc := u.enc, dec := u.dec, mem := u.mem })
    ?illegal ?failMem ?fail ?encInit ?decInit ?encFeed ?encFinal ?decFeed ?decFinal ?uenc2 ?uenc1 ?unitOut ?lutSym
    ?venc ?vdec i t h
  case encFeed =>
    intros
    rw [encFeedBody_eq]
    rfl
  case encFinal =>
    intros
    rw [encFinalBody_eq]
    rfl
  case decFeed =>
    intros
    rw [decFeedBody_eq]
    rfl
  case decFinal =>
    intro k _ _ _
    rcases decFinalBody_cases k.toNat s with ⟨-, e⟩ | ⟨-, e⟩ | ⟨-, ⟨_, -, e⟩ | ⟨_, -, e⟩⟩ <;> rw [e] <;> rfl
  case venc =>
    intros
    rw [vencBody_eq]
    rfl
  case vdec =>
    intros
    rw [vdecBody_eq]
    rfl
  all_goals intros; rfl

theorem State.exists_onContext_eq_next (s : State) (k : BitVec 4) (f : State → State) :
    ∃ t, s.onContext k f = .next t := by
  rcases State.onContext_eq s k f with ⟨-, e⟩ | ⟨-, e⟩ <;> exact ⟨_, e⟩

theorem State.exists_onGranules_eq_next (s : State) (n : Nat) (w : Windows) (f : State → State) :
    ∃ t, s.onGranules n w f = .next t := by
  rcases State.onGranules_cases s n w f with ⟨-, e⟩ | ⟨-, -, e⟩ | ⟨-, -, _, -, e⟩ | ⟨-, -, -, e⟩ <;> exact ⟨_, e⟩

/-- Every command answers a next state: no arm of `exec` faults or is refused. -/
theorem exists_exec_eq_next (i : Instr) (s : State) : ∃ t, exec i s = .next t := by
  cases i with
  | nop => exact ⟨_, rfl⟩
  | encInit k | decInit k | encFeed k | encFinal k | decFeed k | decFinal k =>
    simp only [exec, execEncInit, execDecInit, execEncFeed, execEncFinal, execDecFeed, execDecFinal]
    exact State.exists_onContext_eq_next s k _
  | venc | vdec => exact State.exists_onGranules_eq_next s _ _ _
  | uenc2 | uenc1 | udec4 | udec2 | lutSym | lutCls | divc =>
    simp only [exec, execUenc2, execUenc1, execUdec4, execUdec2, execLutSym, execLutCls, execDivc]
    repeat' split
    all_goals exact ⟨_, rfl⟩

/-- The block's turn is always a step: it waits, performs the pending command, or rejects the pending word. -/
theorem exists_blockTurn_eq_next (s : State) : ∃ t, blockTurn s = .next t := by
  unfold blockTurn complete
  repeat' split
  · exact exists_exec_eq_next _ s
  · exact ⟨_, rfl⟩
  · exact ⟨_, rfl⟩

/-- Settles O8: `exists_exec_eq_next` with the frame of a command, and `exists_blockTurn_eq_next`. -/
theorem everyCommandCompletes : Obligations.EveryCommandCompletes := by
  constructor
  · intro i s
    obtain ⟨t, ht⟩ := exists_exec_eq_next i s
    have hframe := exec_frame ht
    refine ⟨t, ht, ?_, ?_, ?_⟩ <;> rw [hframe] <;> rfl
  · rintro s (hin | ⟨rest, hin⟩)
    · rw [SafeStep, step, hin]
      exact exists_blockTurn_eq_next s
    · rw [SafeStep, step, hin]
      exact exists_blockTurn_eq_next { s with inputs := rest }

/-- The registers that only some commands write, each unchanged unless `i` is one of its writers. -/
def WritersOnly (i : Instr) (s t : State) : Prop :=
  (t.result = s.result ∨ isMemoryCommand i = true) ∧
  (t.unitOut = s.unitOut ∨ i = .udec4 ∨ i = .udec2 ∨ i = .lutCls ∨ ∃ d, i = .divc d) ∧
  (t.sym0 = s.sym0 ∨ i = .uenc2 ∨ i = .uenc1 ∨ ∃ c, i = .lutSym c) ∧
  (t.sym1 = s.sym1 ∨ i = .uenc2 ∨ i = .uenc1) ∧
  (t.sym2 = s.sym2 ∨ i = .uenc2) ∧ (t.sym3 = s.sym3 ∨ i = .uenc2)

/-- A memory command writes, of these registers, RESULT at most. -/
theorem writersOnly_of_memoryCommand {i : Instr} {s t : State} (hm : isMemoryCommand i = true)
    (hout : t.unitOut = s.unitOut) (h0 : t.sym0 = s.sym0) (h1 : t.sym1 = s.sym1) (h2 : t.sym2 = s.sym2)
    (h3 : t.sym3 = s.sym3) : WritersOnly i s t :=
  ⟨.inr hm, .inl hout, .inl h0, .inl h1, .inl h2, .inl h3⟩

theorem exec_writersOnly {i : Instr} {s t : State} (h : exec i s = .next t) : WritersOnly i s t := by
  have unchanged : ∀ {i : Instr} {u : State}, u.result = s.result → u.unitOut = s.unitOut → u.sym0 = s.sym0 →
      u.sym1 = s.sym1 → u.sym2 = s.sym2 → u.sym3 = s.sym3 → WritersOnly i s u :=
    fun hres hout h0 h1 h2 h3 => ⟨.inl hres, .inl hout, .inl h0, .inl h1, .inl h2, .inl h3⟩
  refine exec_elim s (fun i u => WritersOnly i s u) ?illegal ?failMem ?fail ?encInit ?decInit ?encFeed ?encFinal
    ?decFeed ?decFinal ?uenc2 ?uenc1 ?unitOut ?lutSym ?venc ?vdec i t h
  case illegal => exact fun _ _ => unchanged rfl rfl rfl rfl rfl rfl
  case fail => exact fun _ _ _ _ => unchanged rfl rfl rfl rfl rfl rfl
  case encInit | decInit => exact fun _ _ => unchanged rfl rfl rfl rfl rfl rfl
  case failMem => exact fun _ _ hm _ _ _ => writersOnly_of_memoryCommand hm rfl rfl rfl rfl rfl
  case encFeed | encFinal | decFeed =>
    intros
    simp only [encFeedBody_eq, encFinalBody_eq, decFeedBody_eq]
    exact writersOnly_of_memoryCommand rfl rfl rfl rfl rfl rfl
  case decFinal =>
    intro k _ _ _
    rcases decFinalBody_cases k.toNat s with ⟨-, e⟩ | ⟨-, e⟩ | ⟨-, ⟨_, -, e⟩ | ⟨_, -, e⟩⟩ <;> rw [e] <;>
      exact writersOnly_of_memoryCommand rfl rfl rfl rfl rfl rfl
  case venc | vdec =>
    intros
    simp only [vencBody_eq, vdecBody_eq]
    exact writersOnly_of_memoryCommand rfl rfl rfl rfl rfl rfl
  case uenc2 => exact fun _ => ⟨.inl rfl, .inl rfl, .inr (.inl rfl), .inr (.inl rfl), .inr rfl, .inr rfl⟩
  case uenc1 => exact fun _ => ⟨.inl rfl, .inl rfl, .inr (.inr (.inl rfl)), .inr (.inr rfl), .inl rfl, .inl rfl⟩
  case unitOut => exact fun _ _ hi => ⟨.inl rfl, .inr hi, .inl rfl, .inl rfl, .inl rfl, .inl rfl⟩
  case lutSym => exact fun c _ => ⟨.inl rfl, .inl rfl, .inr (.inr (.inr ⟨c, rfl⟩)), .inl rfl, .inl rfl, .inl rfl⟩

/-- Settles O9: `exec_frame` for the registers no command writes, `exec_writersOnly` for the others. -/
theorem registersHaveTheirWriters : Obligations.RegistersHaveTheirWriters := by
  intro i s t h
  refine ⟨?_, exec_writersOnly h⟩
  rw [exec_frame h]
  exact ⟨rfl, rfl, rfl, rfl, rfl, rfl, rfl, rfl, rfl⟩

/-! ## The contexts (10_state R46, R47, R53) -/

/-- A command leaves the contexts, or stores one encode or one decode context: its own, and in none of the phases that
only the reset input and, for an encode context, nothing at all leads to. -/
inductive StoresOwnContext (i : Instr) (s t : State) : Prop
  | none (henc : t.enc = s.enc) (hdec : t.dec = s.dec)
  | enc (k : BitVec 4) (c : EncCtx) (hi : i = .encInit k ∨ i = .encFeed k ∨ i = .encFinal k)
      (hp : c.phase = .opened ∨ c.phase = .closed) (henc : t.enc = s.enc.set k.toNat c) (hdec : t.dec = s.dec)
  | dec (k : BitVec 4) (d : DecCtx) (hi : i = .decInit k ∨ i = .decFeed k ∨ i = .decFinal k)
      (hp : d.phase = .opened ∨ d.phase = .closed ∨ d.phase = .failed) (henc : t.enc = s.enc)
      (hdec : t.dec = s.dec.set k.toNat d)

theorem exec_storesOwnContext {i : Instr} {s t : State} (h : exec i s = .next t) : StoresOwnContext i s t := by
  refine exec_elim s (fun i u => StoresOwnContext i s u) ?illegal ?failMem ?fail ?encInit ?decInit ?encFeed ?encFinal
    ?decFeed ?decFinal ?uenc2 ?uenc1 ?unitOut ?lutSym ?venc ?vdec i t h
  case encInit => exact fun k _ => .enc k _ (.inl rfl) (.inl rfl) rfl rfl
  case encFeed =>
    intro k _ _ _
    rw [encFeedBody_eq]
    exact .enc k _ (.inr (.inl rfl)) (.inl (EncCtx.after_phase _)) rfl rfl
  case encFinal =>
    intro k _ _ _
    rw [encFinalBody_eq]
    exact .enc k _ (.inr (.inr rfl)) (.inr rfl) rfl rfl
  case decInit => exact fun k _ => .dec k _ (.inl rfl) (.inl rfl) rfl rfl
  case decFeed =>
    intro k _ _ _
    rw [decFeedBody_eq]
    refine .dec k _ (.inr (.inl rfl)) ?_ rfl rfl
    split
    · exact .inr (.inr rfl)
    · exact .inl rfl
  case decFinal =>
    intro k _ _ _
    rcases decFinalBody_cases k.toNat s with ⟨-, e⟩ | ⟨-, e⟩ | ⟨-, ⟨_, -, e⟩ | ⟨_, -, e⟩⟩ <;> rw [e]
    · exact .dec k _ (.inr (.inr rfl)) (.inr (.inl rfl)) rfl rfl
    · exact .dec k _ (.inr (.inr rfl)) (.inr (.inr rfl)) rfl rfl
    · exact .dec k _ (.inr (.inr rfl)) (.inr (.inr rfl)) rfl rfl
    · exact .dec k _ (.inr (.inr rfl)) (.inr (.inl rfl)) rfl rfl
  case venc =>
    intros
    rw [vencBody_eq]
    exact .none rfl rfl
  case vdec =>
    intros
    rw [vdecBody_eq]
    exact .none rfl rfl
  all_goals intros; exact .none rfl rfl

/-- What `encAt` reads is the file of encode contexts. -/
theorem encAt_of_enc_eq {s t : State} (h : t.enc = s.enc) (j : Nat) : t.encAt j = s.encAt j := by
  rw [State.encAt, h, State.encAt]

/-- What `decAt` reads is the file of decode contexts. -/
theorem decAt_of_dec_eq {s t : State} (h : t.dec = s.dec) (j : Nat) : t.decAt j = s.decAt j := by
  rw [State.decAt, h, State.decAt]

/-- An encode context after a store: the one stored at its number, the old one elsewhere. -/
theorem encAt_of_enc_set {s t : State} {k : Nat} {c : EncCtx} (h : t.enc = s.enc.set k c) (j : Nat) :
    t.encAt j = if k = j ∧ j < s.enc.length then c else s.encAt j :=
  (encAt_of_enc_eq (s := s.setEnc k c) h j).trans (State.encAt_setEnc s k j c)

/-- A decode context after a store: the one stored at its number, the old one elsewhere. -/
theorem decAt_of_dec_set {s t : State} {k : Nat} {d : DecCtx} (h : t.dec = s.dec.set k d) (j : Nat) :
    t.decAt j = if k = j ∧ j < s.dec.length then d else s.decAt j :=
  (decAt_of_dec_eq (s := s.setDec k d) h j).trans (State.decAt_setDec s k j d)

/-- Settles O10: a command stores its own context at most. -/
theorem contextsAreIndependent : Obligations.ContextsAreIndependent := by
  intro i s t h
  cases exec_storesOwnContext h with
  | none henc hdec =>
    cases i with
    | encInit | encFeed | encFinal => exact ⟨hdec, congrArg _ henc, fun j _ => encAt_of_enc_eq henc j⟩
    | decInit | decFeed | decFinal => exact ⟨henc, congrArg _ hdec, fun j _ => decAt_of_dec_eq hdec j⟩
    | nop | uenc2 | uenc1 | udec4 | udec2 | lutSym | lutCls | divc | venc | vdec => exact ⟨henc, hdec⟩
  | enc k c hi _ henc hdec =>
    have hlen : t.enc.length = s.enc.length := by rw [henc, List.length_set]
    have hothers (j : Nat) (hj : j ≠ k.toNat) : t.encAt j = s.encAt j := by
      rw [encAt_of_enc_set henc, if_neg fun hkj => hj hkj.1.symm]
    rcases hi with rfl | rfl | rfl <;> exact ⟨hdec, hlen, hothers⟩
  | dec k d hi _ henc hdec =>
    have hlen : t.dec.length = s.dec.length := by rw [hdec, List.length_set]
    have hothers (j : Nat) (hj : j ≠ k.toNat) : t.decAt j = s.decAt j := by
      rw [decAt_of_dec_set hdec, if_neg fun hkj => hj hkj.1.symm]
    rcases hi with rfl | rfl | rfl <;> exact ⟨henc, hlen, hothers⟩

/-! ## Memory (20_memory R87, R90) -/

/-- A command that is no memory command leaves data memory. -/
theorem exec_mem_of_not_memoryCommand {i : Instr} {s t : State} (h : exec i s = .next t) :
    isMemoryCommand i = false → t.mem = s.mem := by
  refine exec_elim s (fun i u => isMemoryCommand i = false → u.mem = s.mem) ?illegal ?failMem ?fail ?encInit ?decInit
    ?encFeed ?encFinal ?decFeed ?decFinal ?uenc2 ?uenc1 ?unitOut ?lutSym ?venc ?vdec i t h
  case encFeed | encFinal | decFeed | decFinal => exact fun _ _ _ _ hm => nomatch hm
  case venc | vdec => exact fun _ _ _ hm => nomatch hm
  all_goals intros; rfl

/-- Settles O11: `exec_read_outside`, and `exec_mem_of_not_memoryCommand`. -/
theorem writesStayInDestinationWindow : Obligations.WritesStayInDestinationWindow := fun _ _ _ h =>
  ⟨exec_read_outside h, exec_mem_of_not_memoryCommand h⟩

/-! ## The codes (60_exceptions R320) -/

theorem illegalCmd_mem_reportable (i : Instr) : ErrCode.illegalCmd ∈ reportable i := by cases i <;> simp [reportable]

theorem noError_mem_reportable (i : Instr) : ErrCode.noError ∈ reportable i := by cases i <;> simp [reportable]

/-- The code of DEC_FEED is no error, or that of the first bad group. -/
theorem decFeedBody_err (k : Nat) (s : State) : (decFeedBody k s).status.err = .noError ∨
    (decFeedBody k s).status.err = .invalidSymbol ∨ (decFeedBody k s).status.err = .outOfRange := by
  rw [decFeedBody_eq]
  cases hout : (decGroups s.cfg.alphabet ((s.decAt k).buffer ++ s.srcSyms)).2 with
  | none => simp [statusAfter]
  | some e => simpa [statusAfter, hout] using Or.inr (decGroups_err_code hout)

/-- The code of DEC_FINAL is no error, MALFORMED_TAIL, or that of the tail. -/
theorem decFinalBody_err (k : Nat) (s : State) : (decFinalBody k s).status.err = .noError ∨
    (decFinalBody k s).status.err = .malformedTail ∨ (decFinalBody k s).status.err = .invalidSymbol ∨
    (decFinalBody k s).status.err = .outOfRange := by
  rcases decFinalBody_cases k s with ⟨-, e⟩ | ⟨-, e⟩ | ⟨-, ⟨_, he, e⟩ | ⟨_, -, e⟩⟩ <;> rw [e]
  · exact .inl rfl
  · exact .inr (.inl rfl)
  · exact .inr (.inr (dec2_err_code he))
  · exact .inl rfl

/-- The code of VDEC is no error or GRANULE_FAIL. -/
theorem vdecBody_err (s : State) :
    (vdecBody s).status.err = .noError ∨ (vdecBody s).status.err = .granuleFail := by
  rw [vdecBody_eq]
  simp only [statusAfter]
  split
  · exact .inl rfl
  · exact .inr rfl

/-- Settles O12: the code of each outcome of a command is one of the command's. -/
theorem errorCodesComeFromTheirCommands : Obligations.ErrorCodesComeFromTheirCommands := by
  intro i s t h
  refine exec_elim s (fun i u => u.status.err ∈ reportable i) ?illegal ?failMem ?fail ?encInit ?decInit ?encFeed
    ?encFinal ?decFeed ?decFinal ?uenc2 ?uenc1 ?unitOut ?lutSym ?venc ?vdec i t h
  case illegal => exact fun i _ => illegalCmd_mem_reportable i
  case failMem => exact fun _ _ _ _ he _ => he
  case fail => exact fun _ _ _ he => he
  case decFeed =>
    intro k _ _ _
    rcases decFeedBody_err k.toNat s with e | e | e <;> rw [e] <;> simp [reportable]
  case decFinal =>
    intro k _ _ _
    rcases decFinalBody_err k.toNat s with e | e | e | e <;> rw [e] <;> simp [reportable]
  case vdec =>
    intro _ _ _
    rcases vdecBody_err s with e | e <;> rw [e] <;> decide
  all_goals intros; exact noError_mem_reportable _

/-- The codes of the checks a memory command makes before it touches memory. -/
def checkCodes : List ErrCode := [.badState, .badOperand, .capacity, .badBuffer, .busError]

theorem noError_not_mem_checkCodes : ErrCode.noError ∉ checkCodes := by decide

theorem illegalCmd_not_mem_checkCodes : ErrCode.illegalCmd ∉ checkCodes := by decide

/-- Settles O14: of the outcomes of a memory command only a failed check has such a code. -/
theorem failedChecksChangeNothingElse : Obligations.FailedChecksChangeNothingElse := by
  intro i s t hmem h
  refine exec_elim s (fun i u => isMemoryCommand i = true → u.status.err ∈ checkCodes →
      u = { s with result := 0, status := statusAfter s u.status.err }) ?illegal ?failMem ?fail ?encInit ?decInit
    ?encFeed ?encFinal ?decFeed ?decFinal ?uenc2 ?uenc1 ?unitOut ?lutSym ?venc ?vdec i t h hmem
  case illegal => exact fun _ _ _ he => absurd he illegalCmd_not_mem_checkCodes
  case failMem => exact fun _ _ _ _ _ _ _ _ => rfl
  case fail => exact fun _ _ hn _ hm => absurd hm (ne_true_of_eq_false hn)
  case decFeed =>
    intro k _ _ _ _ he
    rcases decFeedBody_err k.toNat s with e | e | e <;> exact absurd (e ▸ he) (by decide)
  case decFinal =>
    intro k _ _ _ _ he
    rcases decFinalBody_err k.toNat s with e | e | e | e <;> exact absurd (e ▸ he) (by decide)
  case vdec =>
    intro _ _ _ _ he
    rcases vdecBody_err s with e | e <;> exact absurd (e ▸ he) (by decide)
  case encFeed | encFinal => exact fun _ _ _ _ _ he => absurd he noError_not_mem_checkCodes
  case venc => exact fun _ _ _ _ he => absurd he noError_not_mem_checkCodes
  case uenc2 | uenc1 => exact fun _ hm => nomatch hm
  case encInit | decInit | lutSym => exact fun _ _ hm => nomatch hm
  case unitOut => exact fun _ _ _ _ he => absurd he noError_not_mem_checkCodes

end Sys2Proof.Machine
end

section
/-! PROOFS. The form in which symbols and data memory are stored, over every step (10_state R45, 20_memory R80). -/

namespace Sys2Proof.Machine

/-- From `s` to `t` the configuration is the same, symbol registers of `SYM_W` bits stay so, and data memory in
canonical form stays so. -/
def StorageKept (s t : State) : Prop :=
  t.cfg = s.cfg ∧ (SymsFit s → SymsFit t) ∧ (Memory.wf s.mem → Memory.wf t.mem)

/-- `SymsFit` reads the configuration and the four symbol registers only. -/
theorem symsFit_of_frame {s t : State} (hcfg : t.cfg = s.cfg) (h0 : t.sym0 = s.sym0) (h1 : t.sym1 = s.sym1)
    (h2 : t.sym2 = s.sym2) (h3 : t.sym3 = s.sym3) : SymsFit s → SymsFit t := by
  rw [SymsFit, SymsFit, hcfg, h0, h1, h2, h3]
  exact id

/-- An update of none of these fields keeps them. -/
theorem storageKept_of_frame {s t : State} (hcfg : t.cfg = s.cfg) (h0 : t.sym0 = s.sym0) (h1 : t.sym1 = s.sym1)
    (h2 : t.sym2 = s.sym2) (h3 : t.sym3 = s.sym3) (hmem : t.mem = s.mem) : StorageKept s t :=
  ⟨hcfg, symsFit_of_frame hcfg h0 h1 h2 h3, fun h => hmem ▸ h⟩

/-! ## Symbol registers: every write of one is clipped (10_state R45) -/

theorem symsFit_setSym0 {s : State} (x : Sym) (h : SymsFit s) : SymsFit (s.setSym0 x) := by
  obtain ⟨-, h1, h2, h3⟩ := h
  exact ⟨symFits_clipSym _ x, h1, h2, h3⟩

theorem symsFit_setSym1 {s : State} (x : Sym) (h : SymsFit s) : SymsFit (s.setSym1 x) := by
  obtain ⟨h0, -, h2, h3⟩ := h
  exact ⟨h0, symFits_clipSym _ x, h2, h3⟩

theorem symsFit_setSym2 {s : State} (x : Sym) (h : SymsFit s) : SymsFit (s.setSym2 x) := by
  obtain ⟨h0, h1, -, h3⟩ := h
  exact ⟨h0, h1, symFits_clipSym _ x, h3⟩

theorem symsFit_setSym3 {s : State} (x : Sym) (h : SymsFit s) : SymsFit (s.setSym3 x) := by
  obtain ⟨h0, h1, h2, -⟩ := h
  exact ⟨h0, h1, h2, symFits_clipSym _ x⟩

/-! ## Commands -/

/-- Storing into a destination window that passed `MemCheck` keeps the canonical form. -/
theorem storageKept_of_store {s t : State} {bs : List Byte} {w : Windows} (hw : s.memCheck w = none)
    (hbase : w.dst.base = s.dstAddr.toNat) (hlen : bs.length ≤ w.dst.bytes) (hcfg : t.cfg = s.cfg)
    (h0 : t.sym0 = s.sym0) (h1 : t.sym1 = s.sym1) (h2 : t.sym2 = s.sym2) (h3 : t.sym3 = s.sym3)
    (hmem : t.mem = s.mem.writeBytes s.dstAddr.toNat bs) : StorageKept s t :=
  ⟨hcfg, symsFit_of_frame hcfg h0 h1 h2 h3, fun h => hmem ▸ Memory.wf_storeDst h hw hbase hlen⟩

/-- DEC_FINAL stores one byte at `DST_ADDR` at most. -/
theorem decFinalBody_storageKept (k : Nat) (s : State) : StorageKept s (decFinalBody k s) := by
  rcases decFinalBody_cases k s with ⟨-, e⟩ | ⟨-, e⟩ | ⟨-, ⟨_, -, e⟩ | ⟨x, -, e⟩⟩ <;> rw [e]
  · exact storageKept_of_frame rfl rfl rfl rfl rfl rfl
  · exact storageKept_of_frame rfl rfl rfl rfl rfl rfl
  · exact storageKept_of_frame rfl rfl rfl rfl rfl rfl
  · exact ⟨rfl, symsFit_of_frame rfl rfl rfl rfl rfl, fun h => Memory.wf_write h s.dstAddr.isLt⟩

/-- A memory command stores into its destination window, and any other clips the symbols it writes. -/
theorem exec_storageKept {i : Instr} {s t : State} (h : exec i s = .next t) : StorageKept s t := by
  have frame : ∀ {u : State}, u.cfg = s.cfg → u.sym0 = s.sym0 → u.sym1 = s.sym1 → u.sym2 = s.sym2 →
      u.sym3 = s.sym3 → u.mem = s.mem → StorageKept s u := storageKept_of_frame
  refine exec_elim s (fun _ u => StorageKept s u) ?illegal ?failMem ?fail ?encInit ?decInit ?encFeed ?encFinal ?decFeed
    ?decFinal ?uenc2 ?uenc1 ?unitOut ?lutSym ?venc ?vdec i t h
  case illegal => exact fun _ _ => frame rfl rfl rfl rfl rfl rfl
  case failMem => exact fun _ _ _ _ _ _ => frame rfl rfl rfl rfl rfl rfl
  case fail => exact fun _ _ _ _ => frame rfl rfl rfl rfl rfl rfl
  case encInit | decInit => exact fun _ _ => frame rfl rfl rfl rfl rfl rfl
  case unitOut => exact fun _ _ _ => frame rfl rfl rfl rfl rfl rfl
  case lutSym => exact fun _ x => ⟨rfl, symsFit_setSym0 x, id⟩
  case uenc1 =>
    refine fun g => ⟨rfl, fun hs => ?_, id⟩
    show SymsFit ((s.setSym0 g.s0).setSym1 g.s1)
    exact symsFit_setSym1 g.s1 (symsFit_setSym0 g.s0 hs)
  case uenc2 =>
    refine fun g => ⟨rfl, fun hs => ?_, id⟩
    show SymsFit ((((s.setSym0 g.s0).setSym1 g.s1).setSym2 g.s2).setSym3 g.s3)
    exact symsFit_setSym3 g.s3 (symsFit_setSym2 g.s2 (symsFit_setSym1 g.s1 (symsFit_setSym0 g.s0 hs)))
  case encFeed =>
    intro k _ _ hm
    rw [encFeedBody_eq]
    exact storageKept_of_store hm rfl (Nat.le_of_eq (encFeed_stores s k.toNat)) rfl rfl rfl rfl rfl rfl
  case encFinal =>
    intro k _ _ hm
    rw [encFinalBody_eq]
    exact storageKept_of_store hm rfl (Nat.le_of_eq (encFinal_stores s k.toNat)) rfl rfl rfl rfl rfl rfl
  case decFeed =>
    intro k _ _ hm
    rw [decFeedBody_eq]
    exact storageKept_of_store hm rfl (decFeed_stores_le s k.toNat) rfl rfl rfl rfl rfl rfl
  case decFinal => exact fun k _ _ _ => decFinalBody_storageKept k.toNat s
  case venc =>
    intro _ hn hm
    rw [vencBody_eq]
    exact storageKept_of_store hm rfl (Nat.le_of_eq (venc_stores s hn)) rfl rfl rfl rfl rfl rfl
  case vdec =>
    intro _ hn hm
    rw [vdecBody_eq]
    exact storageKept_of_store hm rfl (vdec_stores_le s hn) rfl rfl rfl rfl rfl rfl

/-- The block's turn waits, rejects the pending word or performs a command. -/
theorem blockTurn_storageKept {s t : State} (h : blockTurn s = .next t) : StorageKept s t := by
  rcases eq_or_exec_of_blockTurn h with rfl | rfl | ⟨i, hi⟩
  · exact storageKept_of_frame rfl rfl rfl rfl rfl rfl
  · exact storageKept_of_frame rfl rfl rfl rfl rfl rfl
  · exact exec_storageKept hi

/-! ## Host actions and steps -/

/-- What memory would be after the pending word is in canonical form: that word's completion step answers a state. -/
theorem memAfterPending_wf {s : State} (hbusy : s.status.busy = true) (hm : Memory.wf s.mem) :
    Memory.wf (memAfterPending s) := by
  obtain ⟨t, ht⟩ := exists_blockTurn_eq_next s
  obtain ⟨-, -, hkept⟩ := blockTurn_storageKept ht
  have hmem : memAfterPending s = t.mem := by
    rw [memAfterPending, (blockTurn_of_busy hbusy).symm.trans ht]
  rw [hmem]
  exact hkept hm

/-- The reset input clears the symbol registers and draws each byte of memory between two memories in canonical form. -/
theorem hostReset_storageKept (s : State) : StorageKept s s.hostReset := by
  have hzero := symFits_zero s.cfg.symW
  rw [State.hostReset_eq]
  refine ⟨rfl, fun _ => ⟨hzero, hzero, hzero, hzero⟩, fun hm => ?_⟩
  show Memory.wf (if s.status.busy then Memory.drawBetween s.resetDraws s.mem (memAfterPending s) else s.mem)
  split
  next hbusy => exact Memory.wf_drawBetween hm (memAfterPending_wf hbusy hm)
  next => exact hm

/-- A register write stores a symbol clipped and leaves data memory. -/
theorem writeReg_storageKept (s : State) (off : Nat) (v : Word) : StorageKept s (writeReg s off v) := by
  have frame : ∀ {u : State}, u.cfg = s.cfg → u.sym0 = s.sym0 → u.sym1 = s.sym1 → u.sym2 = s.sym2 →
      u.sym3 = s.sym3 → u.mem = s.mem → StorageKept s u := storageKept_of_frame
  have operand : StorageKept s (writeOperand s off v) := by
    unfold writeOperand
    split
    case h_6 => exact ⟨rfl, symsFit_setSym0 v, id⟩
    case h_7 => exact ⟨rfl, symsFit_setSym1 v, id⟩
    case h_8 => exact ⟨rfl, symsFit_setSym2 v, id⟩
    case h_9 => exact ⟨rfl, symsFit_setSym3 v, id⟩
    all_goals exact frame rfl rfl rfl rfl rfl rfl
  unfold writeReg
  split
  · split
    · exact frame rfl rfl rfl rfl rfl rfl
    · exact frame rfl rfl rfl rfl rfl rfl
  · split
    · exact frame rfl rfl rfl rfl rfl rfl
    · exact operand

/-- A host action keeps the form: a byte is stored inside the 32-bit address space (20_memory R80). -/
theorem hostAct_storageKept {a : HostAction} {s t : State} (h : hostAct a s = .next t) : StorageKept s t := by
  unfold hostAct at h
  cases a with
  | regWrite addr width v =>
    obtain ⟨off, rfl⟩ := State.onRegister_eq_next h
    exact writeReg_storageKept s off v
  | regRead addr width =>
    obtain ⟨off, rfl⟩ := State.onRegister_eq_next h
    exact storageKept_of_frame rfl rfl rfl rfl rfl rfl
  | memWrite addr b =>
    obtain rfl := State.onMemory_eq_next h
    exact ⟨rfl, symsFit_of_frame rfl rfl rfl rfl rfl, fun hm => Memory.wf_write hm addr.isLt⟩
  | memRead addr =>
    obtain rfl := State.onMemory_eq_next h
    exact storageKept_of_frame rfl rfl rfl rfl rfl rfl
  | reset =>
    cases h
    exact hostReset_storageKept s
  | yield => exact blockTurn_storageKept h

/-- Settles O54: the step is the block's turn or the host's oldest action, and both keep the form. -/
theorem everyStepKeepsStorageForm : Obligations.EveryStepKeepsStorageForm := by
  intro s t h
  unfold step at h
  split at h
  · exact blockTurn_storageKept h
  next rest _ => exact hostAct_storageKept (s := { s with inputs := rest }) h

end Sys2Proof.Machine
end

section
/-! PROOFS. The step and the host: whose turn a step is, what registers read as, and accesses to data memory while a
command is pending or not (10_state R30 to R36, 44_host_interface R290, R291, 70_reset_and_hazards R366). -/

namespace Sys2Proof.Machine

/-! ## The step (10_state R30, R31) -/

theorem step_of_no_inputs {s : State} (h : s.inputs = []) : step s = blockTurn s := by rw [step, h]

theorem step_of_inputs {s : State} {a : HostAction} {rest : List HostAction} (h : s.inputs = a :: rest) :
    step s = hostAct a { s with inputs := rest } := by rw [step, h]

theorem blockTurn_of_idle {s : State} (h : s.status.busy = false) : blockTurn s = .next s :=
  if_neg (ne_true_of_eq_false h)

theorem blockTurn_of_command {s : State} {i : Instr} (hbusy : s.status.busy = true) (hi : decode s.cmd = .command i) :
    blockTurn s = exec i s := (blockTurn_of_busy hbusy).trans (complete_of_command hi)

/-- Settles O4: the block's turn on a pending command is the command's meaning. -/
theorem stepRunsDecodedCommand : Obligations.StepRunsDecodedCommand := fun s _ hbusy hi =>
  ⟨fun hin => (step_of_no_inputs hin).trans (blockTurn_of_command hbusy hi),
    fun rest hin => (step_of_inputs hin).trans (blockTurn_of_command (s := { s with inputs := rest }) hbusy hi)⟩

/-- Settles O5: the two kinds of step, and the block's turn while idle. -/
theorem stepFollowsInputs : Obligations.StepFollowsInputs := fun _ =>
  ⟨fun _ _ => step_of_inputs, fun hidle hin => (step_of_no_inputs hin).trans (blockTurn_of_idle hidle),
    blockTurn_of_idle⟩

/-! ## After reset (10_state R56) -/

/-- Settles O51: every register of the default configuration's reset state is a literal. -/
theorem resetState : Obligations.ResetState := by
  refine ⟨rfl, ?_, rfl, ?_, rfl, rfl, rfl, rfl, rfl, rfl, rfl, rfl, rfl, rfl, rfl, rfl, rfl⟩
  · decide
  · decide

/-- Settles O52: the reset input on a reset block changes nothing, and establishes the contexts' invariants. -/
theorem invariantHoldsAfterReset : Obligations.InvariantHoldsAfterReset := by
  intro c
  have hzero := symFits_zero c.symW
  exact ⟨hostReset_contextsOk (State.resetWith c), ⟨hzero, hzero, hzero, hzero⟩, Memory.wf_nil⟩

/-! ## Register accesses (44_host_interface R290, R291) -/

/-- Settles O43: an aligned read is answered with the register's value. -/
theorem registerReadHasNoSideEffect : Obligations.RegisterReadHasNoSideEffect := fun s off =>
  State.onRegister_aligned s off fun off => { s with hostRead := readReg s off }

/-- An access of another width, or at an offset that is not aligned, is refused. -/
theorem State.onRegister_odd {s : State} {off width : Nat} (f : Nat → State) (hlt : off < 4096)
    (hodd : width ≠ 4 ∨ off % 4 ≠ 0) : s.onRegister (s.cfg.regBase + off) width f
      = .refused (.registerAccessForm (s.cfg.regBase + off) width) := by
  rw [State.onRegister, if_neg (by omega), if_pos (by rwa [Nat.add_sub_cancel_left])]

/-- Settles O47: both kinds of access are `State.onRegister`. -/
theorem oddRegisterAccessIsRefused : Obligations.OddRegisterAccessIsRefused := fun s _ _ v hlt hodd =>
  ⟨State.onRegister_odd (fun off => writeReg s off v) hlt hodd,
    State.onRegister_odd (fun off => { s with hostRead := readReg s off }) hlt hodd⟩

/-- CAP as the sum of its fields (10_state R34). -/
theorem capWord_toNat {c : Config} (h1 : 1 ≤ c.nctx) (h16 : c.nctx ≤ 16) : (capWord c).toNat
    = (if c.hasVec then 1 else 0) + 16 * (c.nctx - 1) + 256 * c.symW.bits + 65536 := by
  have hw : c.symW.bits ≤ 32 := by cases c.symW <;> decide
  have hf : (if c.hasVec then 1 else 0) ≤ 1 := by split <;> omega
  have hw32 : (BitVec.ofNat 32 c.symW.bits).toNat = c.symW.bits := Nat.mod_eq_of_lt (by omega)
  have hn32 : ((BitVec.ofNat 4 (c.nctx - 1)).setWidth 32).toNat = c.nctx - 1 :=
    (BitVec.toNat_setWidth_of_le (by decide)).trans (Nat.mod_eq_of_lt (by omega))
  have low : (((BitVec.ofNat 4 (c.nctx - 1)).setWidth 32 <<< 4) ||| bit c.hasVec).toNat
      = (c.nctx - 1) * 2 ^ 4 + if c.hasVec then 1 else 0 := by
    rw [toNat_shift_or _ _ 4 (by rw [bit_toNat]; omega) (by omega), hn32, bit_toNat]
  have mid : ((BitVec.ofNat 32 c.symW.bits <<< 8) |||
      (((BitVec.ofNat 4 (c.nctx - 1)).setWidth 32 <<< 4) ||| bit c.hasVec)).toNat
      = c.symW.bits * 2 ^ 8 + ((c.nctx - 1) * 2 ^ 4 + if c.hasVec then 1 else 0) := by
    rw [toNat_shift_or _ _ 8 (by omega) (by omega), hw32, low]
  rw [capWord, BitVec.or_assoc, BitVec.or_assoc, toNat_shift_or _ _ 16 (by omega) (by decide), mid, BitVec.toNat_ofNat]
  omega

/-- STATUS as the sum of its fields (10_state R36). -/
theorem Status.word_toNat (t : Status) : t.word.toNat
    = (if t.busy then 1 else 0) + 16 * t.err.code.toNat + if t.hz then 256 else 0 := by
  have he := t.err.code.isLt
  have hf : (if t.busy then 1 else 0) ≤ 1 := by split <;> omega
  have he32 : (t.err.code.setWidth 32).toNat = t.err.code.toNat := BitVec.toNat_setWidth_of_le (by decide)
  have low : ((t.err.code.setWidth 32 <<< 4) ||| bit t.busy).toNat
      = t.err.code.toNat * 2 ^ 4 + if t.busy then 1 else 0 := by
    rw [toNat_shift_or _ _ 4 (by rw [bit_toNat]; omega) (by omega), he32, bit_toNat]
  rw [Status.word, BitVec.or_assoc, toNat_shift_or _ _ 8 (by omega) (by rw [bit_toNat]; split <;> decide), low,
    bit_toNat]
  split <;> omega

/-- Settles O44: CAP and STATUS as sums; each other register reads as its field. -/
theorem registerMapReads : Obligations.RegisterMapReads := by
  intro s h1 h16 symW err
  have hbits : s.cfg.symW.bits = symW := by cases h : s.cfg.symW <;> simp only [symW, h] <;> rfl
  have hcode : s.status.err.code.toNat = err := by cases h : s.status.err <;> simp only [err, h] <;> rfl
  refine ⟨rfl, ?cap, rfl, ?status, rfl, rfl, rfl, rfl, rfl, rfl, rfl, rfl, rfl, rfl, rfl⟩
  case cap => exact hbits ▸ capWord_toNat h1 h16
  case status => exact hcode ▸ Status.word_toNat s.status

/-! ## Accesses to data memory (70_reset_and_hazards R366) -/

section Access

variable {s : State} {a : Word}

/-- A write to a byte of a window of the pending word is refused. -/
theorem hostAct_memWrite_of_protected (b : Byte) (hbusy : s.status.busy = true)
    (h : (pendingWindows s).src.has a.toNat = true ∨ (pendingWindows s).dst.has a.toNat = true) :
    hostAct (.memWrite a b) s = .refused (.windowHazard a.toNat) :=
  if_pos (by simpa [hbusy] using h)

/-- A read of a byte of the destination window of the pending word is refused. -/
theorem hostAct_memRead_of_protected (hbusy : s.status.busy = true)
    (h : (pendingWindows s).dst.has a.toNat = true) : hostAct (.memRead a) s = .refused (.windowHazard a.toNat) :=
  if_pos (by simpa [hbusy] using h)

/-- A write to a byte of no window of a pending word stores it, if the byte answers, and changes nothing else. -/
theorem hostAct_memWrite_of_free (b : Byte) (hfree : s.status.busy = true →
      (pendingWindows s).src.has a.toNat = false ∧ (pendingWindows s).dst.has a.toNat = false) :
    (Config.accessible s.cfg a.toNat = true → ∃ t, hostAct (.memWrite a b) s = .next t ∧ t = { s with mem := t.mem } ∧
      ∀ x, t.mem.read x = if x = a.toNat then b else s.mem.read x) ∧
    (Config.accessible s.cfg a.toNat = false →
      hostAct (.memWrite a b) s = .fault (.hostMemoryNoAnswer a.toNat)) := by
  have hno : ¬ (s.status.busy &&
      ((pendingWindows s).src.has a.toNat || (pendingWindows s).dst.has a.toNat)) = true := by
    simpa using hfree
  constructor
  · intro hacc
    refine ⟨s.setMem (s.mem.write a.toNat b), (if_neg hno).trans (if_pos hacc), rfl, fun x => ?_⟩
    rw [State.setMem_mem, Memory.read_write]
    exact ite_congr (propext eq_comm) (fun _ => rfl) fun _ => rfl
  · exact fun hacc => (if_neg hno).trans (if_neg (ne_true_of_eq_false hacc))

/-- A read of a byte outside the destination window of a pending word returns it, if the byte answers. -/
theorem hostAct_memRead_of_free (hfree : s.status.busy = true → (pendingWindows s).dst.has a.toNat = false) :
    (Config.accessible s.cfg a.toNat = true →
      hostAct (.memRead a) s = .next { s with hostRead := BitVec.ofNat 32 (s.mem.read a.toNat).toNat }) ∧
    (Config.accessible s.cfg a.toNat = false →
      hostAct (.memRead a) s = .fault (.hostMemoryNoAnswer a.toNat)) := by
  have hno : ¬ (s.status.busy && (pendingWindows s).dst.has a.toNat) = true := by simpa using hfree
  rw [BitVec.ofNat_toNat]
  exact ⟨fun hacc => (if_neg hno).trans (if_pos hacc),
    fun hacc => (if_neg hno).trans (if_neg (ne_true_of_eq_false hacc))⟩

end Access

/-- Settles O48: the pending windows are the command's. -/
theorem activeWindowIsProtected : Obligations.ActiveWindowIsProtected := by
  intro s i a b hbusy hi hwf src dst
  have hw : pendingWindows s = windowsOf s i := pendingWindows_of_command ((legal_of_command hi).trans hwf) hi
  have write (hsrc : src = false) (hdst : dst = false) := hostAct_memWrite_of_free (s := s) (a := a) b
    fun _ => hw ▸ ⟨hsrc, hdst⟩
  have read (hdst : dst = false) := hostAct_memRead_of_free (s := s) (a := a) fun _ => hw ▸ hdst
  exact ⟨fun h => hostAct_memWrite_of_protected b hbusy (hw ▸ h), fun h => hostAct_memRead_of_protected hbusy (hw ▸ h),
    fun hacc hsrc hdst => (write hsrc hdst).1 hacc, fun hacc hdst => (read hdst).1 hacc,
    fun hacc hsrc hdst => (write hsrc hdst).2 hacc, fun hacc hdst => (read hdst).2 hacc⟩

theorem Window.has_none (a : Nat) : Window.none.has a = false := by
  rw [← Bool.not_eq_true, Window.has_iff]
  simp [Window.none, Window.bytes]

/-- An illegal pending word has no windows (log 26). -/
theorem pendingWindows_of_not_legal {s : State} (h : legal s.cfg s.cmd = false) :
    pendingWindows s = { src := Window.none, dst := Window.none } := by
  rw [pendingWindows]
  split
  next i hi => exact if_neg (ne_true_of_eq_false ((legal_of_command hi).symm.trans h))
  next => rfl

/-- Settles O57: with nothing pending, or an illegal word, no byte is protected. -/
theorem unprotectedMemoryAccess : Obligations.UnprotectedMemoryAccess := by
  intro s a b hunprotected
  have hfree : s.status.busy = true →
      (pendingWindows s).src.has a.toNat = false ∧ (pendingWindows s).dst.has a.toNat = false := by
    intro hbusy
    have hillegal := hunprotected.resolve_left (by simp [hbusy])
    rw [pendingWindows_of_not_legal hillegal]
    exact ⟨Window.has_none _, Window.has_none _⟩
  obtain ⟨write, writeFault⟩ := hostAct_memWrite_of_free b hfree
  obtain ⟨read, readFault⟩ := hostAct_memRead_of_free fun hbusy => (hfree hbusy).2
  exact ⟨fun hacc => ⟨write hacc, read hacc⟩, fun hacc => ⟨writeFault hacc, readFault hacc⟩⟩

end Sys2Proof.Machine
end

section
/-! PROOFS. The codec's own laws at the level of commands and lanes (41_unit_codec R188, 43_vector_divider R258), and
the end of a run (44_host_interface R299). -/

namespace Sys2Proof.Machine

/-! ## Unit commands and decode lanes -/

/-- Settles O22: the symbols an encoder leaves in the registers are those of `Enc2` and `Enc1`, which the decoders
undo. -/
theorem unitCommandsRoundTrip : Obligations.UnitCommandsRoundTrip := by
  intro s hv
  have hout : BitVec.ofNat 32 s.unitIn.toNat = s.unitIn := by rw [BitVec.ofNat_toNat, BitVec.setWidth_eq]
  constructor
  · exact fun hle => ⟨_, _, exec_uenc2_of_le hv hle rfl,
      exec_udec4_of_ok (Nat.lt_succ_of_le hle) (dec4_enc2 hv _), hout, rfl⟩
  · exact fun hle => ⟨_, _, exec_uenc1_of_le hv hle rfl,
      exec_udec2_of_ok (Nat.lt_succ_of_le hle) (dec2_enc1 hv _), hout, rfl⟩

/-- Settles O26: `vDecLane_eq_some_iff`. -/
theorem vectorDecodeLaneIsScalar : Obligations.VectorDecodeLaneIsScalar := vDecLane_eq_some_iff

/-! ## What a step does to the host's list and to the contexts -/

theorem blockTurn_inputs {s t : State} (h : blockTurn s = .next t) : t.inputs = s.inputs := by
  rcases eq_or_exec_of_blockTurn h with rfl | rfl | ⟨i, hi⟩
  · rfl
  · rfl
  · rw [exec_frame hi]

/-- A host action leaves the actions to come. -/
theorem hostAct_inputs {a : HostAction} {s t : State} (h : hostAct a s = .next t) : t.inputs = s.inputs := by
  by_cases hr : a = .reset
  · subst hr
    cases h
    rw [State.hostReset_eq]
    rfl
  · by_cases hy : a = .yield
    · subst hy
      exact blockTurn_inputs h
    · obtain ⟨-, -, hin, -⟩ := hostAct_frame h hr hy
      exact hin

/-- A step takes the oldest host action off the list. -/
theorem step_inputs {s t : State} (h : step s = .next t) : t.inputs = s.inputs.tail := by
  cases hin : s.inputs with
  | nil => exact (blockTurn_inputs ((step_of_no_inputs hin).symm.trans h)).trans hin
  | cons a rest => exact hostAct_inputs ((step_of_inputs hin).symm.trans h)

theorem step_cfg {s t : State} (h : step s = .next t) : t.cfg = s.cfg := (everyStepKeepsStorageForm s t h).1

/-- When the block has the turn, the step is its turn. -/
theorem exists_step_eq_blockTurn {s : State} (h : blockHasTurn s = true) :
    ∃ rest, step s = blockTurn { s with inputs := rest } := by
  unfold blockHasTurn at h
  split at h
  next hin => exact ⟨[], by rw [step_of_no_inputs hin, ← hin]⟩
  next rest hin => exact ⟨rest, by rw [step_of_inputs hin, hostAct]⟩
  all_goals cases h

/-- When the block has not the turn and the host no reset, the step is a host access, which leaves the contexts. -/
theorem step_contexts_of_access {s t : State} (hturn : blockHasTurn s = false) (hr : .reset ∉ s.inputs)
    (h : step s = .next t) : t.enc = s.enc ∧ t.dec = s.dec := by
  cases hin : s.inputs with
  | nil =>
    rw [blockHasTurn, hin] at hturn
    cases hturn
  | cons a rest =>
    have hreset : a ≠ .reset := by
      rintro rfl
      exact hr (hin ▸ List.mem_cons_self)
    have hyield : a ≠ .yield := by
      rintro rfl
      rw [blockHasTurn, hin] at hturn
      cases hturn
    obtain ⟨henc, hdec, -⟩ := hostAct_frame ((step_of_inputs hin).symm.trans h) hreset hyield
    exact ⟨henc, hdec⟩

/-- A step with no reset ahead leaves the contexts, or is a command and stores its own. -/
theorem step_storesOwnContext {s t : State} (hr : .reset ∉ s.inputs) (h : step s = .next t) :
    ∃ i, StoresOwnContext i s t := by
  cases hturn : blockHasTurn s with
  | false =>
    obtain ⟨henc, hdec⟩ := step_contexts_of_access hturn hr h
    exact ⟨.nop, .none henc hdec⟩
  | true =>
    obtain ⟨rest, hstep⟩ := exists_step_eq_blockTurn hturn
    rcases eq_or_exec_of_blockTurn (hstep.symm.trans h) with rfl | rfl | ⟨i, hi⟩
    · exact ⟨.nop, .none rfl rfl⟩
    · exact ⟨.nop, .none rfl rfl⟩
    · refine ⟨i, ?_⟩
      cases exec_storesOwnContext hi with
      | none henc hdec => exact .none henc hdec
      | enc k c hi hp henc hdec => exact .enc k c hi hp henc hdec
      | dec k d hi hp henc hdec => exact .dec k d hi hp henc hdec

/-! ## A run that has ended stays ended (44_host_interface R299) -/

/-- While nothing is pending a step opens no stream. -/
theorem afterStep_of_idle (o : Streams) {s : State} (h : s.status.busy = false) : o.afterStep s = o := by
  rw [Streams.afterStep, h]
  rfl

/-- While nothing is pending, a step that is no reset and issues no command is a host access, or takes nothing but a
`yield` off the host's list. -/
theorem idle_step_cases {s t : State} (hidle : s.status.busy = false) (hr : ∀ rest, s.inputs ≠ .reset :: rest)
    (h : step s = .next t) : t = { s with inputs := s.inputs.tail } ∨
    ∃ a rest, s.inputs = a :: rest ∧ a ≠ .reset ∧ a ≠ .yield ∧ hostAct a { s with inputs := rest } = .next t := by
  cases hin : s.inputs with
  | nil =>
    cases h.symm.trans ((step_of_no_inputs hin).trans (blockTurn_of_idle hidle))
    exact .inl (by rw [List.tail_nil, ← hin])
  | cons a rest =>
    have hact := (step_of_inputs hin).symm.trans h
    by_cases hy : a = .yield
    · subst hy
      cases hact.symm.trans (blockTurn_of_idle (s := { s with inputs := rest }) hidle)
      exact .inl rfl
    · exact .inr ⟨a, rest, rfl, fun ha => hr rest (ha ▸ hin), hy, hact⟩

/-- Such a step leaves the contexts, CMD and STATUS. -/
theorem idle_step_frame {s t : State} (hidle : s.status.busy = false)
    (hissue : ∀ a ∈ s.inputs, issuesCommand s.cfg a = false) (hr : ∀ rest, s.inputs ≠ .reset :: rest)
    (h : step s = .next t) : t.enc = s.enc ∧ t.dec = s.dec ∧ t.cmd = s.cmd ∧ t.status = s.status := by
  rcases idle_step_cases hidle hr h with rfl | ⟨a, rest, hin, hreset, hyield, hact⟩
  · exact ⟨rfl, rfl, rfl, rfl⟩
  · obtain ⟨henc, hdec, -, hidleframe⟩ := hostAct_frame hact hreset hyield
    obtain ⟨hcmd, hstatus⟩ := hidleframe hidle (hissue a (hin ▸ List.mem_cons_self))
    exact ⟨henc, hdec, hcmd, hstatus⟩

/-- A read, of a register or of data memory, leaves the observation. -/
theorem observation_of_read {a : HostAction} {s t : State} (h : hostAct a s = .next t) (hreset : a ≠ .reset)
    (hyield : a ≠ .yield) (hreg : ∀ addr width v, a ≠ .regWrite addr width v) (hmem : ∀ addr b, a ≠ .memWrite addr b) :
    observation t = observation s := by
  unfold hostAct at h
  cases a with
  | regWrite addr width v => exact absurd rfl (hreg addr width v)
  | memWrite addr b => exact absurd rfl (hmem addr b)
  | reset => exact absurd rfl hreset
  | yield => exact absurd rfl hyield
  | regRead addr width =>
    obtain ⟨off, rfl⟩ := State.onRegister_eq_next h
    rfl
  | memRead addr =>
    obtain rfl := State.onMemory_eq_next h
    rfl

/-- The end of a run is kept when contexts and STATUS are and the host's list only shrinks. -/
theorem ended_of_frame {o left : Streams} {s t : State} (h : Ended o left s) (hin : t.inputs = s.inputs.tail)
    (hcfg : t.cfg = s.cfg) (hstatus : t.status = s.status) (henc : t.enc = s.enc) (hdec : t.dec = s.dec) :
    Ended o left t := by
  obtain ⟨hissue, hidle, he, hd⟩ := h
  refine ⟨fun a ha => ?_, hstatus ▸ hidle, fun k hk => ?_, fun k hk => ?_⟩
  · rw [hcfg]
    exact hissue a (List.mem_of_mem_tail (hin ▸ ha))
  · rw [encAt_of_enc_eq henc]
    exact he k hk
  · rw [decAt_of_dec_eq hdec]
    exact hd k hk

/-- After a reset every context is UNINIT. -/
theorem hostReset_uninit (s : State) (k : Nat) :
    (s.hostReset.encAt k).phase = .uninit ∧ (s.hostReset.decAt k).phase = .uninit := by
  have henc : s.hostReset.enc = (State.resetWith s.cfg).enc := by
    rw [State.hostReset_eq]
    rfl
  have hdec : s.hostReset.dec = (State.resetWith s.cfg).dec := by
    rw [State.hostReset_eq]
    rfl
  rw [encAt_of_enc_eq henc, decAt_of_dec_eq hdec, encAt_resetWith, decAt_resetWith]
  exact ⟨rfl, rfl⟩

/-- Settles O58: a step of an ended run is a host access or a turn of the idle block; and a reset makes every context
UNINIT, which is neither CLOSED nor FAILED. -/
theorem endedRunStaysEnded : Obligations.EndedRunStaysEnded := by
  constructor
  · intro o left s t hended hr h
    have ⟨hissue, hidle, _, _⟩ := hended
    obtain ⟨henc, hdec, hcmd, hstatus⟩ := idle_step_frame hidle hissue hr h
    refine ⟨afterStep_of_idle o hidle, ended_of_frame hended (step_inputs h) (step_cfg h) hstatus henc hdec, henc, hdec,
      hcmd, hstatus, fun hreg hmem => ?_⟩
    rcases idle_step_cases hidle hr h with rfl | ⟨a, rest, hin, hreset, hyield, hact⟩
    · rfl
    · exact observation_of_read (s := { s with inputs := rest }) hact hreset hyield
        (fun addr width v ha => hreg addr width v rest (ha ▸ hin)) fun addr b ha => hmem addr b rest (ha ▸ hin)
  · rintro o left s t h ⟨-, -, he, hd⟩
    cases h
    refine ⟨fun k hk => ?_, fun k hk => ?_⟩
    · simpa [(hostReset_uninit s k).1] using he k hk
    · simpa [(hostReset_uninit s k).2] using hd k hk

/-! ## The streams a run has opened (44_host_interface R299, 10_state R44) -/

/-- Every stream of `o` is of a context that exists and was opened: an encode context is OPEN or CLOSED, a decode
context OPEN, CLOSED or FAILED. -/
def StreamsOpened (o : Streams) (s : State) : Prop :=
  (∀ k ∈ o.enc, k < s.cfg.nctx ∧ ((s.encAt k).phase = .opened ∨ (s.encAt k).phase = .closed)) ∧
  (∀ k ∈ o.dec, k < s.cfg.nctx ∧
    ((s.decAt k).phase = .opened ∨ (s.decAt k).phase = .closed ∨ (s.decAt k).phase = .failed))

theorem streamsOpened_none (s : State) : StreamsOpened Streams.none s :=
  ⟨fun _ hk => absurd hk List.not_mem_nil, fun _ hk => absurd hk List.not_mem_nil⟩

/-- A step opens the encode stream of an ENC_INIT that completes, and no other. -/
theorem mem_afterStep_enc {o : Streams} {s : State} {k : Nat} (h : k ∈ (o.afterStep s).enc) :
    k ∈ o.enc ∨ (s.status.busy = true ∧ blockHasTurn s = true ∧
      ∃ j : BitVec 4, decode s.cmd = .command (.encInit j) ∧ j.toNat < s.cfg.nctx ∧ k = j.toNat) := by
  unfold Streams.afterStep at h
  split at h
  next hturn =>
    obtain ⟨hbusy, hturn⟩ := Bool.and_eq_true_iff.mp hturn
    split at h
    next j hj =>
      split at h
      next hlt => exact (List.mem_cons.mp h).elim (fun hk => .inr ⟨hbusy, hturn, j, hj, hlt, hk⟩) .inl
      next => exact .inl h
    next => split at h <;> exact .inl h
    next => exact .inl h
  next => exact .inl h

/-- A step opens the decode stream of a DEC_INIT that completes, and no other. -/
theorem mem_afterStep_dec {o : Streams} {s : State} {k : Nat} (h : k ∈ (o.afterStep s).dec) :
    k ∈ o.dec ∨ (s.status.busy = true ∧ blockHasTurn s = true ∧
      ∃ j : BitVec 4, decode s.cmd = .command (.decInit j) ∧ j.toNat < s.cfg.nctx ∧ k = j.toNat) := by
  unfold Streams.afterStep at h
  split at h
  next hturn =>
    obtain ⟨hbusy, hturn⟩ := Bool.and_eq_true_iff.mp hturn
    split at h
    next => split at h <;> exact .inl h
    next j hj =>
      split at h
      next hlt => exact (List.mem_cons.mp h).elim (fun hk => .inr ⟨hbusy, hturn, j, hj, hlt, hk⟩) .inl
      next => exact .inl h
    next => exact .inl h
  next => exact .inl h

/-- With a command pending and the block's turn come, the step is the command. -/
theorem exists_step_eq_exec {s : State} {i : Instr} (hbusy : s.status.busy = true) (hturn : blockHasTurn s = true)
    (hi : decode s.cmd = .command i) : ∃ rest, step s = exec i { s with inputs := rest } := by
  obtain ⟨rest, hstep⟩ := exists_step_eq_blockTurn hturn
  exact ⟨rest, hstep.trans (blockTurn_of_command (s := { s with inputs := rest }) hbusy hi)⟩

/-- An INIT that completes leaves its encode context OPEN. -/
theorem step_encInit_opened {s t : State} {j : BitVec 4} (hok : ContextsOk s) (hbusy : s.status.busy = true)
    (hturn : blockHasTurn s = true) (hi : decode s.cmd = .command (.encInit j)) (hj : j.toNat < s.cfg.nctx)
    (h : step s = .next t) : (t.encAt j.toNat).phase = .opened := by
  obtain ⟨hel, -⟩ := hok
  obtain ⟨rest, hstep⟩ := exists_step_eq_exec hbusy hturn hi
  rcases exec_encInit_cases j { s with inputs := rest } with ⟨-, e⟩ | ⟨hge, -⟩
  · cases h.symm.trans (hstep.trans e)
    rw [encAt_of_enc_set (s := s) rfl, if_pos ⟨rfl, hel ▸ hj⟩]
    rfl
  · exact absurd hj (Nat.not_lt.mpr hge)

/-- An INIT that completes leaves its decode context OPEN. -/
theorem step_decInit_opened {s t : State} {j : BitVec 4} (hok : ContextsOk s) (hbusy : s.status.busy = true)
    (hturn : blockHasTurn s = true) (hi : decode s.cmd = .command (.decInit j)) (hj : j.toNat < s.cfg.nctx)
    (h : step s = .next t) : (t.decAt j.toNat).phase = .opened := by
  obtain ⟨-, hdl, -⟩ := hok
  obtain ⟨rest, hstep⟩ := exists_step_eq_exec hbusy hturn hi
  rcases exec_decInit_cases j { s with inputs := rest } with ⟨-, e⟩ | ⟨hge, -⟩
  · cases h.symm.trans (hstep.trans e)
    rw [decAt_of_dec_set (s := s) rfl, if_pos ⟨rfl, hdl ▸ hj⟩]
    rfl
  · exact absurd hj (Nat.not_lt.mpr hge)

/-- Storing a context that was opened keeps all the others and what was opened. -/
theorem streamsOpened_of_storesOwnContext {o : Streams} {i : Instr} {s t : State} (h : StoresOwnContext i s t)
    (hcfg : t.cfg = s.cfg) (ho : StreamsOpened o s) : StreamsOpened o t := by
  obtain ⟨he, hd⟩ := ho
  rw [StreamsOpened, hcfg]
  cases h with
  | none henc hdec =>
    simp only [encAt_of_enc_eq henc, decAt_of_dec_eq hdec]
    exact ⟨he, hd⟩
  | enc k c _ hp henc hdec =>
    simp only [encAt_of_enc_set henc, decAt_of_dec_eq hdec]
    refine ⟨fun j hj => ⟨(he j hj).1, ?_⟩, hd⟩
    split
    · exact hp
    · exact (he j hj).2
  | dec k d _ hp henc hdec =>
    simp only [encAt_of_enc_eq henc, decAt_of_dec_set hdec]
    refine ⟨he, fun j hj => ⟨(hd j hj).1, ?_⟩⟩
    split
    · exact hp
    · exact (hd j hj).2

/-- A step with no reset ahead keeps what was opened, and what it opens itself is OPEN. -/
theorem streamsOpened_step {o : Streams} {s t : State} (hok : ContextsOk s) (hr : .reset ∉ s.inputs)
    (h : step s = .next t) (ho : StreamsOpened o s) : StreamsOpened (o.afterStep s) t := by
  have hcfg := step_cfg h
  obtain ⟨i, hi⟩ := step_storesOwnContext hr h
  obtain ⟨he, hd⟩ := streamsOpened_of_storesOwnContext hi hcfg ho
  refine ⟨fun k hk => ?_, fun k hk => ?_⟩
  · rcases mem_afterStep_enc hk with hk | ⟨hbusy, hturn, j, hj, hlt, rfl⟩
    · exact he k hk
    · exact ⟨hcfg ▸ hlt, .inl (step_encInit_opened hok hbusy hturn hj hlt h)⟩
  · rcases mem_afterStep_dec hk with hk | ⟨hbusy, hturn, j, hj, hlt, rfl⟩
    · exact hd k hk
    · exact ⟨hcfg ▸ hlt, .inl (step_decInit_opened hok hbusy hturn hj hlt h)⟩

/-- Along a run without a reset what was opened stays so, from any streams opened before. -/
theorem streamsOpened_runFor {n : Nat} {s t : State} {o o' : Streams} (hok : ContextsOk s) (hr : .reset ∉ s.inputs)
    (ho : StreamsOpened o s) (h : runFor n s o = some (t, o')) : StreamsOpened o' t := by
  induction n generalizing s o with
  | zero =>
    cases h
    exact ho
  | succ n ih =>
    rw [runFor] at h
    split at h
    next u hstep =>
      have hr' : .reset ∉ u.inputs := fun hmem => hr (List.mem_of_mem_tail (step_inputs hstep ▸ hmem))
      exact ih (contextInvariantsArePreserved s u hstep hok) hr' (streamsOpened_step hok hr hstep ho) h
    all_goals cases h

/-- Settles O59: `streamsOpened_runFor` from no stream; and a stream that was opened and is not OPEN has ended. -/
theorem openedStreamsEndOrStayOpen : Obligations.OpenedStreamsEndOrStayOpen := by
  intro n s t o left hok hr hrun
  obtain ⟨he, hd⟩ := streamsOpened_runFor hok hr (streamsOpened_none s) hrun
  refine ⟨he, hd, fun hissue hidle hleftenc hleftdec => ⟨o, hrun, hissue, hidle, fun k hk => ?_, fun k hk => ?_⟩⟩
  · rcases (he k hk).2 with hp | hp
    · exact .inr (.inr (hleftenc k hk hp))
    · exact .inl hp
  · rcases (hd k hk).2 with hp | hp | hp
    · exact .inr (.inr (hleftdec k hk hp))
    · exact .inl hp
    · exact .inr (.inl hp)

end Sys2Proof.Machine
end

section
/-! PROOFS. What a command depends on: of memory its source window, and of the contexts its own
(20_memory R90, 10_state R53, 70_reset_and_hazards R369). Each is a relation between the next states of two runs, which
holds if every outcome of the command keeps it. -/

namespace Sys2Proof.Machine

/-! ## Two runs of a command take the same branch -/

/-- What the checks of a command read of a state, its own context aside. -/
structure SameOperands (s s' : State) : Prop where
  cfg : s'.cfg = s.cfg
  srcAddr : s'.srcAddr = s.srcAddr
  srcLen : s'.srcLen = s.srcLen
  dstAddr : s'.dstAddr = s.dstAddr
  dstCap : s'.dstCap = s.dstCap

theorem sameOperands_of_mem (s : State) (m : Memory) : SameOperands s { s with mem := m } := ⟨rfl, rfl, rfl, rfl, rfl⟩

theorem sameOperands_of_contexts (s : State) (e : List EncCtx) (d : List DecCtx) :
    SameOperands s { s with enc := e, dec := d } := ⟨rfl, rfl, rfl, rfl, rfl⟩

/-- A FEED or FINAL finds its own context the same in both states. -/
def SameOwnContext (i : Instr) (s s' : State) : Prop :=
  match i with
  | .encFeed k | .encFinal k => s'.encAt k.toNat = s.encAt k.toNat
  | .decFeed k | .decFinal k => s'.decAt k.toNat = s.decAt k.toNat
  | _ => True

/-- The windows of a command come from its operands and its own context (20_memory R87). -/
theorem windowsOf_of_sameOperands {i : Instr} {s s' : State} (h : SameOperands s s') (hown : SameOwnContext i s s') :
    windowsOf s' i = windowsOf s i := by
  obtain ⟨hcfg, hsrc, hlen, hdst, -⟩ := h
  cases i <;> simp_all [SameOwnContext, windowsOf, encFeedWindows, encFinalWindows, decFeedWindows, decFinalWindows,
    vencWindows, vdecWindows, State.srcBytesWin, State.srcSymsWin, State.dstSymsWin, State.dstBytesWin]

theorem memCheck_of_sameOperands {s s' : State} (h : SameOperands s s') (w : Windows) :
    s'.memCheck w = s.memCheck w := by rw [State.memCheck, h.cfg, h.dstCap, State.memCheck]

/-- What a memory command does once its checks pass; another command has no such effect. -/
def memoryEffect (i : Instr) (s : State) : State :=
  match i with
  | .encFeed k => encFeedBody k.toNat s
  | .encFinal k => encFinalBody k.toNat s
  | .decFeed k => decFeedBody k.toNat s
  | .decFinal k => decFinalBody k.toNat s
  | .venc => vencBody s
  | .vdec => vdecBody s
  | _ => s

section TwoRuns

variable {R : State → State → Prop} {s s' t u : State}

/-- A context command relates its two next states if being illegal does and, with the context there, its body does. -/
theorem State.onContext_rel {k : BitVec 4} {f : State → State} (hcfg : s'.cfg = s.cfg)
    (hillegal : s.cfg.nctx ≤ k.toNat → R s.illegal s'.illegal) (hbody : k.toNat < s.cfg.nctx → R (f s) (f s'))
    (ht : s.onContext k f = .next t) (hu : s'.onContext k f = .next u) : R t u := by
  unfold State.onContext at ht hu
  rw [hcfg] at hu
  by_cases hk : k.toNat < s.cfg.nctx
  · rw [if_pos hk] at ht hu
    cases ht
    cases hu
    exact hbody hk
  · rw [if_neg hk] at ht hu
    cases ht
    cases hu
    exact hillegal (Nat.le_of_not_lt hk)

/-- A FEED or FINAL relates its two next states if each of its outcomes does. -/
theorem State.onReadyContext_rel {k : BitVec 4} {p : State → Phase} {w : State → Windows} {f : State → State}
    (h : SameOperands s s') (hp : p s' = p s) (hw : w s' = w s)
    (hillegal : decide (k.toNat < s.cfg.nctx) = false → R s.illegal s'.illegal)
    (hfail : decide (k.toNat < s.cfg.nctx) = true → ∀ e, R (s.failMem e) (s'.failMem e))
    (hbody : decide (k.toNat < s.cfg.nctx) = true → R (f s) (f s'))
    (ht : s.onContext k (fun s => s.whenReady (p s) (w s) f) = .next t)
    (hu : s'.onContext k (fun s => s.whenReady (p s) (w s) f) = .next u) : R t u := by
  refine State.onContext_rel h.cfg (fun hk => hillegal (decide_eq_false (Nat.not_lt.mpr hk))) (fun hk => ?_) ht hu
  replace hk := decide_eq_true hk
  rw [State.whenReady, State.whenReady, hp, hw, memCheck_of_sameOperands h]
  split
  · split
    · exact hfail hk _
    · exact hbody hk
  · exact hfail hk _

/-- A vector command relates its two next states if each of its outcomes does. -/
theorem State.onGranules_rel {n : Nat} {w : State → Windows} {f : State → State} (h : SameOperands s s')
    (hw : w s' = w s) (hillegal : s.cfg.hasVec = false → R s.illegal s'.illegal)
    (hfail : s.cfg.hasVec = true → ∀ e, R (s.failMem e) (s'.failMem e))
    (hbody : s.cfg.hasVec = true → R (f s) (f s')) (ht : s.onGranules n (w s) f = .next t)
    (hu : s'.onGranules n (w s') f = .next u) : R t u := by
  rw [State.onGranules, h.cfg, h.srcLen, hw, memCheck_of_sameOperands h] at hu
  rcases State.onGranules_cases s n (w s) f with ⟨hv, e⟩ | ⟨hv, hn, e⟩ | ⟨hv, hn, c, hm, e⟩ | ⟨hv, hn, hm, e⟩ <;>
    cases ht.symm.trans e
  · rw [if_neg (ne_true_of_eq_false hv)] at hu
    cases hu
    exact hillegal hv
  · rw [if_pos hv, if_pos hn] at hu
    cases hu
    exact hfail hv _
  · rw [if_pos hv, if_neg (not_not_intro hn), hm] at hu
    cases hu
    exact hfail hv _
  · rw [if_pos hv, if_neg (not_not_intro hn), hm] at hu
    cases hu
    exact hbody hv

/-- A memory command relates its two next states if each of its outcomes does: the checks of both runs agree. -/
theorem exec_memoryCommand_rel {i : Instr} (hmem : isMemoryCommand i = true) (h : SameOperands s s')
    (hown : SameOwnContext i s s') (hillegal : wellFormed s.cfg i = false → R s.illegal s'.illegal)
    (hfail : wellFormed s.cfg i = true → ∀ e, R (s.failMem e) (s'.failMem e))
    (heffect : wellFormed s.cfg i = true → R (memoryEffect i s) (memoryEffect i s'))
    (ht : exec i s = .next t) (hu : exec i s' = .next u) : R t u := by
  have hw := windowsOf_of_sameOperands h hown
  cases i with
  | encFeed k =>
    exact State.onReadyContext_rel (p := fun s => (s.encAt k.toNat).phase) (w := (encFeedWindows · k.toNat)) h
      (congrArg _ hown) hw hillegal hfail heffect ht hu
  | encFinal k =>
    exact State.onReadyContext_rel (p := fun s => (s.encAt k.toNat).phase) (w := (encFinalWindows · k.toNat)) h
      (congrArg _ hown) hw hillegal hfail heffect ht hu
  | decFeed k =>
    exact State.onReadyContext_rel (p := fun s => (s.decAt k.toNat).phase) (w := (decFeedWindows · k.toNat)) h
      (congrArg _ hown) hw hillegal hfail heffect ht hu
  | decFinal k =>
    exact State.onReadyContext_rel (p := fun s => (s.decAt k.toNat).phase) (w := (decFinalWindows · k.toNat)) h
      (congrArg _ hown) hw hillegal hfail heffect ht hu
  | venc => exact State.onGranules_rel h hw hillegal hfail heffect ht hu
  | vdec => exact State.onGranules_rel h hw hillegal hfail heffect ht hu
  | nop | encInit | decInit | uenc2 | uenc1 | udec4 | udec2 | lutSym | lutCls | divc => cases hmem

/-- An ENC_INIT relates its two next states if both outcomes do. -/
theorem exec_encInit_rel {k : BitVec 4} (h : SameOperands s s')
    (hillegal : wellFormed s.cfg (.encInit k) = false → R s.illegal s'.illegal)
    (hinit : R ((s.setEnc k.toNat (EncCtx.empty .opened)).finish .noError)
      ((s'.setEnc k.toNat (EncCtx.empty .opened)).finish .noError))
    (ht : exec (.encInit k) s = .next t) (hu : exec (.encInit k) s' = .next u) : R t u :=
  State.onContext_rel (f := fun s => (s.setEnc k.toNat (EncCtx.empty .opened)).finish .noError) h.cfg
    (fun hk => hillegal (decide_eq_false (Nat.not_lt.mpr hk))) (fun _ => hinit) ht hu

/-- A DEC_INIT relates its two next states if both outcomes do. -/
theorem exec_decInit_rel {k : BitVec 4} (h : SameOperands s s')
    (hillegal : wellFormed s.cfg (.decInit k) = false → R s.illegal s'.illegal)
    (hinit : R ((s.setDec k.toNat (DecCtx.empty .opened)).finish .noError)
      ((s'.setDec k.toNat (DecCtx.empty .opened)).finish .noError))
    (ht : exec (.decInit k) s = .next t) (hu : exec (.decInit k) s' = .next u) : R t u :=
  State.onContext_rel (f := fun s => (s.setDec k.toNat (DecCtx.empty .opened)).finish .noError) h.cfg
    (fun hk => hillegal (decide_eq_false (Nat.not_lt.mpr hk))) (fun _ => hinit) ht hu

end TwoRuns

/-- The commands that are neither memory commands nor INITs. -/
def registersOnly : Instr → Bool
  | .nop | .uenc2 | .uenc1 | .udec4 | .udec2 | .lutSym _ | .lutCls | .divc _ => true
  | _ => false

/-- Such a command leaves memory and contexts, and does the same whatever they hold. -/
theorem exec_of_registersOnly {i : Instr} {s t : State} (hi : registersOnly i = true) (m : Memory) (e : List EncCtx)
    (d : List DecCtx) (h : exec i s = .next t) :
    exec i { s with mem := m, enc := e, dec := d } = .next { t with mem := m, enc := e, dec := d } ∧
      t.mem = s.mem ∧ t.enc = s.enc ∧ t.dec = s.dec := by
  cases i with
  | encInit | decInit | encFeed | encFinal | decFeed | decFinal | venc | vdec => cases hi
  | nop =>
    cases h
    exact ⟨rfl, rfl, rfl, rfl⟩
  | lutCls =>
    rw [exec_lutCls] at h ⊢
    cases h
    exact ⟨rfl, rfl, rfl, rfl⟩
  | uenc2 | uenc1 | lutSym | divc =>
    simp only [exec, execUenc2, execUenc1, execLutSym, execDivc, State.setGroup, State.setTail, State.setSym0,
      State.setSym1, State.setSym2, State.setSym3, State.finish] at h ⊢
    split at h <;> rename_i hlt <;> cases h
    · exact ⟨if_pos hlt, rfl, rfl, rfl⟩
    · exact ⟨if_neg hlt, rfl, rfl, rfl⟩
  | udec4 | udec2 =>
    simp only [exec, execUdec4, execUdec2] at h ⊢
    split at h <;> cases h <;> exact ⟨rfl, rfl, rfl, rfl⟩

/-! ## The source window (20_memory R90) -/

/-- Two next states, of `s` and of `s` with memory `m`: alike but for memory, and each byte of memory the same in both
or unchanged in both. -/
def SameButMemory (s : State) (m : Memory) (t u : State) : Prop :=
  u = { t with mem := u.mem } ∧
    ∀ a, u.mem.read a = t.mem.read a ∨ (u.mem.read a = m.read a ∧ t.mem.read a = s.mem.read a)

/-- Storing nothing. -/
theorem sameButMemory_of_unchanged {s : State} {m : Memory} {t : State} (h : t.mem = s.mem) :
    SameButMemory s m t { t with mem := m } :=
  ⟨rfl, fun _ => .inr ⟨rfl, congrArg (Memory.read · _) h⟩⟩

/-- Storing the same bytes at the same address. -/
theorem sameButMemory_of_store {s : State} {m : Memory} {t : State} {a : Nat} {bs : List Byte}
    (h : t.mem = s.mem.writeBytes a bs) : SameButMemory s m t { t with mem := m.writeBytes a bs } :=
  ⟨rfl, fun x => h ▸ Memory.read_writeBytes_or m s.mem a bs x⟩

/-- DEC_FINAL reads its context and no memory. -/
theorem decFinalBody_sameButMemory (s : State) (m : Memory) (k : Nat) :
    SameButMemory s m (decFinalBody k s) (decFinalBody k { s with mem := m }) := by
  rcases decFinalBody_cases k s with ⟨hi, -⟩ | ⟨hi, -⟩ | ⟨hi, ⟨e, hd, -⟩ | ⟨x, hd, -⟩⟩
  · rw [decFinalBody_of_zero hi, decFinalBody_of_zero (s := { s with mem := m }) hi]
    exact sameButMemory_of_unchanged rfl
  · rw [decFinalBody_of_odd hi, decFinalBody_of_odd (s := { s with mem := m }) hi]
    exact sameButMemory_of_unchanged rfl
  · rw [decFinalBody_of_two_err hi hd, decFinalBody_of_two_err (s := { s with mem := m }) hi hd]
    exact sameButMemory_of_unchanged rfl
  · rw [decFinalBody_of_two_ok hi hd, decFinalBody_of_two_ok (s := { s with mem := m }) hi hd]
    exact sameButMemory_of_store (bs := [x]) rfl

/-- Of memory, the effect of a memory command reads its source window. -/
theorem memoryEffect_sameButMemory {i : Instr} {s : State} {m : Memory} (hmem : isMemoryCommand i = true)
    (h : ∀ a, (windowsOf s i).src.has a = true → m.read a = s.mem.read a) :
    SameButMemory s m (memoryEffect i s) (memoryEffect i { s with mem := m }) := by
  unfold memoryEffect
  cases i with
  | encFeed k =>
    simp only [encFeedBody_eq, State.srcBytes_of_mem h]
    exact sameButMemory_of_store rfl
  | encFinal k =>
    simp only [encFinalBody_eq]
    exact sameButMemory_of_store rfl
  | decFeed k =>
    simp only [decFeedBody_eq, State.srcSyms_of_mem h]
    exact sameButMemory_of_store rfl
  | decFinal k => exact decFinalBody_sameButMemory s m k.toNat
  | venc =>
    simp only [vencBody_eq, State.srcBytes_of_mem h]
    exact sameButMemory_of_store rfl
  | vdec =>
    simp only [vdecBody_eq, State.srcSyms_of_mem h]
    exact sameButMemory_of_store rfl
  | nop | encInit | decInit | uenc2 | uenc1 | udec4 | udec2 | lutSym | lutCls | divc => cases hmem

/-- Settles O39: the checks of a command read no memory, and its effect reads the source window. -/
theorem commandsReadOnlySourceWindow : Obligations.CommandsReadOnlySourceWindow := by
  intro i s m t u hsrc ht hu
  have operands := sameOperands_of_mem s m
  have own : SameOwnContext i s { s with mem := m } := by cases i <;> trivial
  have illegal : SameButMemory s m s.illegal (State.illegal { s with mem := m }) := sameButMemory_of_unchanged rfl
  have failMem (e : ErrCode) : SameButMemory s m (s.failMem e) (State.failMem { s with mem := m } e) :=
    sameButMemory_of_unchanged rfl
  show SameButMemory s m t u
  cases i with
  | encInit => exact exec_encInit_rel operands (fun _ => illegal) (sameButMemory_of_unchanged rfl) ht hu
  | decInit => exact exec_decInit_rel operands (fun _ => illegal) (sameButMemory_of_unchanged rfl) ht hu
  | encFeed | encFinal | decFeed | decFinal | venc | vdec =>
    exact exec_memoryCommand_rel rfl operands own (fun _ => illegal) (fun _ => failMem)
      (fun _ => memoryEffect_sameButMemory rfl hsrc) ht hu
  | nop | uenc2 | uenc1 | udec4 | udec2 | lutSym | lutCls | divc =>
    obtain ⟨hexec, hmem, henc, hdec⟩ := exec_of_registersOnly rfl m s.enc s.dec ht
    cases hexec.symm.trans hu
    rw [← henc, ← hdec]
    exact sameButMemory_of_unchanged hmem

/-! ## The own context (10_state R53) -/

/-- Two next states alike but for the contexts. -/
def SameButContexts (t u : State) : Prop := u = { t with enc := u.enc, dec := u.dec }

/-- Storing the same encode context into files of the same length leaves the same context at its number: the one stored,
or, past the end of both files, the reset value. -/
theorem encAt_eq_of_sets {t u : State} {l l' : List EncCtx} {k : Nat} {c : EncCtx} (ht : t.enc = l.set k c)
    (hu : u.enc = l'.set k c) (hlen : l'.length = l.length) : u.encAt k = t.encAt k := by
  simp [State.encAt, ht, hu, List.getD_eq_getElem?_getD, List.getElem?_set, hlen]

/-- Storing the same decode context into files of the same length leaves the same context at its number. -/
theorem decAt_eq_of_sets {t u : State} {l l' : List DecCtx} {k : Nat} {d : DecCtx} (ht : t.dec = l.set k d)
    (hu : u.dec = l'.set k d) (hlen : l'.length = l.length) : u.decAt k = t.decAt k := by
  simp [State.decAt, ht, hu, List.getD_eq_getElem?_getD, List.getElem?_set, hlen]

/-- Two next states of a command on encode context `k`, from states whose files of decode contexts are different: alike
but for the contexts, that context the same, if there is one, and the decode contexts `d` kept. -/
def SameEncSide (s : State) (k : BitVec 4) (d : List DecCtx) (t u : State) : Prop :=
  SameButContexts t u ∧ (wellFormed s.cfg (.encInit k) = true → u.encAt k.toNat = t.encAt k.toNat) ∧ u.dec = d

/-- Two next states of a command on decode context `k`, likewise. -/
def SameDecSide (s : State) (k : BitVec 4) (e : List EncCtx) (t u : State) : Prop :=
  SameButContexts t u ∧ (wellFormed s.cfg (.decInit k) = true → u.decAt k.toNat = t.decAt k.toNat) ∧ u.enc = e

/-- Two next states of a command without a context: alike but for the contexts, which are kept. -/
def SameNoSide (e : List EncCtx) (d : List DecCtx) (t u : State) : Prop := SameButContexts t u ∧ u.enc = e ∧ u.dec = d

theorem vencBody_sameNoSide (s : State) (e : List EncCtx) (d : List DecCtx) :
    SameNoSide e d (vencBody s) (vencBody { s with enc := e, dec := d }) := by
  rw [vencBody_eq, vencBody_eq]
  exact ⟨rfl, rfl, rfl⟩

theorem vdecBody_sameNoSide (s : State) (e : List EncCtx) (d : List DecCtx) :
    SameNoSide e d (vdecBody s) (vdecBody { s with enc := e, dec := d }) := by
  rw [vdecBody_eq, vdecBody_eq]
  exact ⟨rfl, rfl, rfl⟩

section OwnContext

variable {s : State} {e : List EncCtx} {d : List DecCtx} {k : BitVec 4}

theorem encFeedBody_sameEncSide (he : e.length = s.enc.length)
    (hown : SameOwnContext (.encFeed k) s { s with enc := e, dec := d }) :
    SameEncSide s k d (encFeedBody k.toNat s) (encFeedBody k.toNat { s with enc := e, dec := d }) := by
  have hw : encFeedWindows { s with enc := e, dec := d } k.toNat = encFeedWindows s k.toNat :=
    windowsOf_of_sameOperands (sameOperands_of_contexts s e d) hown
  rw [encFeedBody_eq, encFeedBody_eq, hown, hw]
  exact ⟨rfl, fun _ => encAt_eq_of_sets rfl rfl he, rfl⟩

theorem encFinalBody_sameEncSide (he : e.length = s.enc.length)
    (hown : SameOwnContext (.encFinal k) s { s with enc := e, dec := d }) :
    SameEncSide s k d (encFinalBody k.toNat s) (encFinalBody k.toNat { s with enc := e, dec := d }) := by
  have hw : encFinalWindows { s with enc := e, dec := d } k.toNat = encFinalWindows s k.toNat :=
    windowsOf_of_sameOperands (sameOperands_of_contexts s e d) hown
  rw [encFinalBody_eq, encFinalBody_eq, hown, hw]
  exact ⟨rfl, fun _ => encAt_eq_of_sets rfl rfl he, rfl⟩

theorem decFeedBody_sameDecSide (hd : d.length = s.dec.length)
    (hown : SameOwnContext (.decFeed k) s { s with enc := e, dec := d }) :
    SameDecSide s k e (decFeedBody k.toNat s) (decFeedBody k.toNat { s with enc := e, dec := d }) := by
  have hw : decFeedWindows { s with enc := e, dec := d } k.toNat = decFeedWindows s k.toNat :=
    windowsOf_of_sameOperands (sameOperands_of_contexts s e d) hown
  rw [decFeedBody_eq, decFeedBody_eq, hown, hw]
  exact ⟨rfl, fun _ => decAt_eq_of_sets rfl rfl hd, rfl⟩

theorem decFinalBody_sameDecSide (hd : d.length = s.dec.length)
    (hown : SameOwnContext (.decFinal k) s { s with enc := e, dec := d }) :
    SameDecSide s k e (decFinalBody k.toNat s) (decFinalBody k.toNat { s with enc := e, dec := d }) := by
  rcases decFinalBody_cases k.toNat s with ⟨hi, h⟩ | ⟨hi, h⟩ | ⟨hi, ⟨_, hx, h⟩ | ⟨_, hx, h⟩⟩ <;> rw [h] <;>
    rw [← hown] at hi
  · rw [decFinalBody_of_zero hi]
    exact ⟨rfl, fun _ => decAt_eq_of_sets rfl rfl hd, rfl⟩
  · rw [decFinalBody_of_odd hi]
    exact ⟨rfl, fun _ => decAt_eq_of_sets rfl rfl hd, rfl⟩
  · rw [← hown] at hx
    rw [decFinalBody_of_two_err hi hx]
    exact ⟨rfl, fun _ => decAt_eq_of_sets rfl rfl hd, rfl⟩
  · rw [← hown] at hx
    rw [decFinalBody_of_two_ok hi hx]
    exact ⟨rfl, fun _ => decAt_eq_of_sets rfl rfl hd, rfl⟩

end OwnContext

/-- Settles O56: the checks of a command read its own context and no other, and so does its effect. -/
theorem commandsReadOnlyNamedContext : Obligations.CommandsReadOnlyNamedContext := by
  intro i s e d t u he hd hown ht hu
  have operands := sameOperands_of_contexts s e d
  have own : SameOwnContext i s { s with enc := e, dec := d } := by cases i <;> exact hown
  have noEnc (k : BitVec 4) (h : wellFormed s.cfg (.encInit k) = false) :
      SameEncSide s k d s.illegal (State.illegal { s with enc := e, dec := d }) :=
    ⟨rfl, fun hwf => absurd hwf (ne_true_of_eq_false h), rfl⟩
  have noDec (k : BitVec 4) (h : wellFormed s.cfg (.decInit k) = false) :
      SameDecSide s k e s.illegal (State.illegal { s with enc := e, dec := d }) :=
    ⟨rfl, fun hwf => absurd hwf (ne_true_of_eq_false h), rfl⟩
  cases i with
  | encInit k =>
    exact exec_encInit_rel (R := SameEncSide s k d) operands (noEnc k)
      ⟨rfl, fun _ => encAt_eq_of_sets rfl rfl he, rfl⟩ ht hu
  | decInit k =>
    exact exec_decInit_rel (R := SameDecSide s k e) operands (noDec k)
      ⟨rfl, fun _ => decAt_eq_of_sets rfl rfl hd, rfl⟩ ht hu
  | encFeed k =>
    exact exec_memoryCommand_rel (R := SameEncSide s k d) rfl operands own (noEnc k)
      (fun _ _ => ⟨rfl, fun _ => own, rfl⟩) (fun _ => encFeedBody_sameEncSide he own) ht hu
  | encFinal k =>
    exact exec_memoryCommand_rel (R := SameEncSide s k d) rfl operands own (noEnc k)
      (fun _ _ => ⟨rfl, fun _ => own, rfl⟩) (fun _ => encFinalBody_sameEncSide he own) ht hu
  | decFeed k =>
    exact exec_memoryCommand_rel (R := SameDecSide s k e) rfl operands own (noDec k)
      (fun _ _ => ⟨rfl, fun _ => own, rfl⟩) (fun _ => decFeedBody_sameDecSide hd own) ht hu
  | decFinal k =>
    exact exec_memoryCommand_rel (R := SameDecSide s k e) rfl operands own (noDec k)
      (fun _ _ => ⟨rfl, fun _ => own, rfl⟩) (fun _ => decFinalBody_sameDecSide hd own) ht hu
  | venc =>
    exact exec_memoryCommand_rel (R := SameNoSide e d) rfl operands own (fun _ => ⟨rfl, rfl, rfl⟩)
      (fun _ _ => ⟨rfl, rfl, rfl⟩) (fun _ => vencBody_sameNoSide s e d) ht hu
  | vdec =>
    exact exec_memoryCommand_rel (R := SameNoSide e d) rfl operands own (fun _ => ⟨rfl, rfl, rfl⟩)
      (fun _ _ => ⟨rfl, rfl, rfl⟩) (fun _ => vdecBody_sameNoSide s e d) ht hu
  | nop | uenc2 | uenc1 | udec4 | udec2 | lutSym | lutCls | divc =>
    obtain ⟨hexec, hmem, henc, hdec⟩ := exec_of_registersOnly rfl s.mem e d ht
    cases hexec.symm.trans hu
    rw [← hmem]
    exact ⟨rfl, rfl, rfl⟩

end Sys2Proof.Machine
end

section
/-! PROOFS. Feeds in two chunks, and what is encoded decoded again (42_streaming R230, R233). -/

namespace Sys2Proof.Machine

/-! ## The windows of two chunks (20_memory R85, R89) -/

/-- A part of a window that is in order is in order and inside it; an empty part is so wherever it starts. -/
theorem Window.part_ok {w v : Window} {skip : Nat} (hw : w.ok = true) (hes : v.es = w.es)
    (hcount : skip + v.count ≤ w.count) (hbase : v.count ≠ 0 → v.base = w.base + w.es * skip) :
    v.ok = true ∧ ∀ a, v.has a = true → w.has a = true := by
  by_cases hv : v.count = 0
  · refine ⟨(Window.ok_iff v).mpr (.inl hv), fun a ha => ?_⟩
    rw [Window.has_iff, Window.bytes, hv] at ha
    omega
  · obtain ⟨halign, hend⟩ := ((Window.ok_iff w).mp hw).resolve_left (by omega)
    have hbytes : w.es * skip + v.bytes ≤ w.bytes := by
      rw [Window.bytes, Window.bytes, hes, Nat.mul_comm w.es, ← Nat.add_mul]
      exact Nat.mul_le_mul_right _ hcount
    refine ⟨(Window.ok_iff v).mpr (.inr ⟨?_, ?_⟩), fun a ha => ?_⟩
    · rw [hbase hv, hes, Nat.add_mul_mod_self_left, halign]
    · have := hbase hv
      omega
    · have := hbase hv
      rw [Window.has_iff] at ha ⊢
      omega

/-- The address after the first `skip` elements of a window in order does not wrap around if an element follows. -/
theorem toNat_advance {a : Word} {n es skip : Nat} (hok : Window.ok ⟨a.toNat, n, es⟩ = true) (hes : 0 < es)
    (hskip : skip < n) : (a + BitVec.ofNat 32 (es * skip)).toNat = a.toNat + es * skip := by
  obtain ⟨-, hend⟩ := ((Window.ok_iff _).mp hok).resolve_left (by simp only; omega)
  have hlt : es * skip < n * es := by
    rw [Nat.mul_comm n]
    exact Nat.mul_lt_mul_of_pos_left hskip hes
  refine toNat_add_ofNat a _ ?_
  simp only [Window.bytes] at hend
  omega

/-- When the windows of a whole feed pass `MemCheck`, so do those of a first chunk and of the second right behind it in
source, destination and capacity. -/
theorem memCheck_chunks {c : Config} {src dst cap : Word} {es es' n1 n2 r1 r2 : Nat} (hes : 0 < es) (hes' : 0 < es')
    (h : memCheck c cap.toNat ⟨⟨src.toNat, n1 + n2, es⟩, ⟨dst.toNat, r1 + r2, es'⟩⟩ = none) :
    memCheck c cap.toNat ⟨⟨src.toNat, n1, es⟩, ⟨dst.toNat, r1, es'⟩⟩ = none ∧
    memCheck c (cap - BitVec.ofNat 32 r1).toNat ⟨⟨(src + BitVec.ofNat 32 (es * n1)).toNat, n2, es⟩,
      ⟨(dst + BitVec.ofNat 32 (es' * r1)).toNat, r2, es'⟩⟩ = none := by
  obtain ⟨hcap, hsrc, hdst, -⟩ := (memCheck_eq_none_iff _ _ _).mp h
  simp only at hcap hsrc hdst
  have hlt := cap.isLt
  have hcap2 : (cap - BitVec.ofNat 32 r1).toNat = cap.toNat - r1 := by
    rw [BitVec.toNat_sub_of_le (by rw [BitVec.le_def, BitVec.toNat_ofNat, Nat.mod_eq_of_lt] <;> omega),
      BitVec.toNat_ofNat, Nat.mod_eq_of_lt (by omega)]
  have src1 := Window.part_ok (v := ⟨src.toNat, n1, es⟩) (skip := 0) hsrc rfl (by simp) fun _ => rfl
  have dst1 := Window.part_ok (v := ⟨dst.toNat, r1, es'⟩) (skip := 0) hdst rfl (by simp) fun _ => rfl
  have src2 := Window.part_ok (v := ⟨(src + BitVec.ofNat 32 (es * n1)).toNat, n2, es⟩) (skip := n1) hsrc rfl
    (Nat.le_refl _) fun hn => toNat_advance hsrc hes (Nat.lt_add_of_pos_right (Nat.pos_of_ne_zero hn))
  have dst2 := Window.part_ok (v := ⟨(dst + BitVec.ofNat 32 (es' * r1)).toNat, r2, es'⟩) (skip := r1) hdst rfl
    (Nat.le_refl _) fun hr => toNat_advance hdst hes' (Nat.lt_add_of_pos_right (Nat.pos_of_ne_zero hr))
  exact ⟨memCheck_mono h (by simp only; omega) src1.1 dst1.1 src1.2 dst1.2,
    memCheck_mono h (by simp only; omega) src2.1 dst2.1 src2.2 dst2.2⟩

/-- Storing in two parts, the second behind the first unless it is empty, stores the whole. -/
theorem Memory.writeBytes_chunks (m : Memory) {a b : Nat} {bs cs : List Byte}
    (h : 0 < cs.length → b = a + bs.length) : (m.writeBytes a bs).writeBytes b cs = m.writeBytes a (bs ++ cs) := by
  cases cs with
  | nil => rw [List.append_nil, Memory.writeBytes]
  | cons c cs => rw [Memory.writeBytes_append, h (Nat.zero_lt_succ _)]

/-- Reading the source bytes in two chunks, the second from a memory that agrees with the first on them. -/
theorem readBytes_chunks {m m' : Memory} {a : Word} {n1 n2 : Nat} (hok : Window.ok ⟨a.toNat, n1 + n2, 1⟩ = true)
    (hm : ∀ x, Window.has ⟨a.toNat, n1 + n2, 1⟩ x = true → m'.read x = m.read x) :
    m.readBytes a.toNat n1 ++ m'.readBytes (a + BitVec.ofNat 32 (1 * n1)).toNat n2 = m.readBytes a.toNat (n1 + n2) := by
  rw [Memory.readBytes_add]
  congr 1
  refine Memory.readBytes_ext fun i hi => ?_
  rw [toNat_advance hok Nat.zero_lt_one (by omega), Nat.one_mul]
  refine hm _ ((Window.has_iff _ _).mpr ?_)
  simp only [Window.bytes]
  omega

/-- Reading the source symbols in two chunks, likewise. -/
theorem readSyms_chunks {m m' : Memory} {a : Word} {es n1 n2 : Nat} (hes : 0 < es)
    (hok : Window.ok ⟨a.toNat, n1 + n2, es⟩ = true)
    (hm : ∀ x, Window.has ⟨a.toNat, n1 + n2, es⟩ x = true → m'.read x = m.read x) :
    m.readSyms es a.toNat n1 ++ m'.readSyms es (a + BitVec.ofNat 32 (es * n1)).toNat n2
      = m.readSyms es a.toNat (n1 + n2) := by
  rw [Memory.readSyms_add]
  congr 1
  refine Memory.readSyms_ext fun i hi => ?_
  have hn : 0 < n2 := Nat.pos_of_mul_pos_left (Nat.zero_lt_of_lt hi)
  rw [toNat_advance hok hes (by omega)]
  refine hm _ ((Window.has_iff _ _).mpr ?_)
  have hsplit : (n1 + n2) * es = es * n1 + es * n2 := by rw [Nat.mul_comm, Nat.mul_add]
  simp only [Window.bytes, hsplit]
  omega

/-- `ES` is not 0. -/
theorem Config.es_pos (c : Config) : 0 < c.es := by
  unfold Config.es
  cases c.symW <;> decide

/-! ## What a feed stores -/

/-- ENC_FEED by the bytes fed, its carry included (42_streaming R212). -/
theorem encFeedBody_of_bytes {k : Nat} {s : State} {b : List Byte} (hb : (s.encAt k).carry ++ s.srcBytes = b) :
    encFeedBody k s = { s with
      mem := s.mem.writeBytes s.dstAddr.toNat (symBytes s.cfg.es (encPairs s.cfg.alphabet b))
      enc := s.enc.set k (EncCtx.after b)
      result := BitVec.ofNat 32 (4 * (b.length / 2))
      status := statusAfter s .noError } := by
  rw [encFeedBody_eq, hb, ← hb, encFeed_length]
  rfl

/-- The context a DEC_FEED of the symbols `t` leaves: FAILED after a bad group, OPEN with the symbols left over
otherwise (42_streaming R222, R223). -/
def DecCtx.afterFeed (bad : Option ErrCode) (t : List Sym) : DecCtx :=
  match bad with
  | some _ => DecCtx.empty .failed
  | none => DecCtx.after t

/-- DEC_FEED by the symbols fed, its buffer included: `RESULT` counts the bytes stored, whether a group was bad or
not. -/
theorem decFeedBody_of_syms {k : Nat} {s : State} {t : List Sym} (ht : (s.decAt k).buffer ++ s.srcSyms = t) :
    decFeedBody k s = { s with
      mem := s.mem.writeBytes s.dstAddr.toNat (decGroups s.cfg.alphabet t).1
      dec := s.dec.set k (DecCtx.afterFeed (decGroups s.cfg.alphabet t).2 t)
      result := BitVec.ofNat 32 (decGroups s.cfg.alphabet t).1.length
      status := statusAfter s ((decGroups s.cfg.alphabet t).2.getD .noError) } := by
  rw [decFeedBody_eq, ht]
  cases hout : (decGroups s.cfg.alphabet t).2 with
  | some e => rfl
  | none =>
    rw [decGroups_length_of_ok hout, ← ht, decFeed_length]
    rfl

/-- Source and destination windows that pass `MemCheck` are apart: storing into one leaves the other. -/
theorem read_src_of_store {s : State} {w : Windows} {bs : List Byte} (hm : s.memCheck w = none)
    (hbase : w.dst.base = s.dstAddr.toNat) (hlen : bs.length ≤ w.dst.bytes) :
    ∀ x, w.src.has x = true → (s.mem.writeBytes s.dstAddr.toNat bs).read x = s.mem.read x := fun x hx =>
  read_writeBytes_of_not_has s s.mem bs w.dst hbase hlen x (Windows.disjoint_of_memCheck hm hx)

/-! ## ENC_FEED in two chunks (42_streaming R230) -/

theorem EncCtx.pending_after (b : List Byte) : (EncCtx.after b).pending = b.length % 2 := by
  rw [← EncCtx.carry_length, EncCtx.carry_after, List.length_drop]
  omega

/-- The state in which the second chunk of an ENC_FEED is fed: `n2` bytes right behind the first `n1`. -/
def encSecond (s t1 : State) (n1 n2 : Nat) : State :=
  { t1 with
    srcAddr := s.srcAddr + BitVec.ofNat 32 n1
    srcLen := BitVec.ofNat 32 n2
    dstAddr := s.dstAddr + BitVec.ofNat 32 (s.cfg.es * t1.result.toNat)
    dstCap := s.dstCap - t1.result }

section EncodeChunks

variable {s t1 : State} {k n1 n2 : Nat} {b : List Byte}

/-- The windows of both chunks pass `MemCheck`; the second starts with the byte the first leaves over. -/
theorem encFeed_chunks_memCheck (hlen : s.srcLen.toNat = n1 + n2) (hm : s.memCheck (encFeedWindows s k) = none)
    (hb : b.length = (s.encAt k).pending + n1) :
    memCheck s.cfg s.dstCap.toNat
      ⟨⟨s.srcAddr.toNat, n1, 1⟩, ⟨s.dstAddr.toNat, 4 * (b.length / 2), s.cfg.es⟩⟩ = none ∧
    memCheck s.cfg (s.dstCap - BitVec.ofNat 32 (4 * (b.length / 2))).toNat
      ⟨⟨(s.srcAddr + BitVec.ofNat 32 (1 * n1)).toNat, n2, 1⟩,
        ⟨(s.dstAddr + BitVec.ofNat 32 (s.cfg.es * (4 * (b.length / 2)))).toNat,
          4 * (((EncCtx.after b).pending + n2) / 2), s.cfg.es⟩⟩ = none := by
  refine memCheck_chunks Nat.zero_lt_one (Config.es_pos s.cfg) ?_
  have hreq : 4 * (b.length / 2) + 4 * (((EncCtx.after b).pending + n2) / 2)
      = 4 * (((s.encAt k).pending + s.srcLen.toNat) / 2) := by
    rw [EncCtx.pending_after]
    omega
  rw [hreq, ← hlen]
  exact hm

/-- The second chunk finds its context OPEN, its checks pass, and it is fed the byte left over and then the rest of the
source. -/
theorem encSecond_ready (hk : k < s.enc.length) (hlen : s.srcLen.toNat = n1 + n2)
    (hm : s.memCheck (encFeedWindows s k) = none)
    (hb : (s.encAt k).carry ++ s.mem.readBytes s.srcAddr.toNat n1 = b)
    (ht : t1 = { s with
      srcLen := BitVec.ofNat 32 n1
      mem := s.mem.writeBytes s.dstAddr.toNat (symBytes s.cfg.es (encPairs s.cfg.alphabet b))
      enc := s.enc.set k (EncCtx.after b)
      result := BitVec.ofNat 32 (4 * (b.length / 2))
      status := statusAfter s .noError }) :
    (encSecond s t1 n1 n2).encAt k = EncCtx.after b ∧
    (encSecond s t1 n1 n2).memCheck (encFeedWindows (encSecond s t1 n1 n2) k) = none ∧
    b ++ (encSecond s t1 n1 n2).srcBytes = (s.encAt k).carry ++ s.srcBytes ∧
    (0 < ((EncCtx.after b).pending + n2) / 2 →
      (encSecond s t1 n1 n2).dstAddr.toNat = s.dstAddr.toNat + s.cfg.es * (4 * (b.length / 2))) := by
  have hblen : b.length = (s.encAt k).pending + n1 := by
    rw [← hb, List.length_append, EncCtx.carry_length, Memory.readBytes_length]
  obtain ⟨hm1, hm2⟩ := encFeed_chunks_memCheck hlen hm hblen
  obtain ⟨hcap, -⟩ := (memCheck_eq_none_iff _ _ _).mp hm1
  have hw : encFeedWindows s k = ⟨⟨s.srcAddr.toNat, n1 + n2, 1⟩,
      ⟨s.dstAddr.toNat, 4 * (((s.encAt k).pending + (n1 + n2)) / 2), s.cfg.es⟩⟩ := by
    rw [← hlen]
    rfl
  obtain ⟨-, hsrcok, hdstok, -⟩ := (memCheck_eq_none_iff _ _ _).mp hm
  rw [hw] at hsrcok hdstok
  have hsrclt := s.srcLen.isLt
  have hcaplt := s.dstCap.isLt
  have hn2 : (BitVec.ofNat 32 n2).toNat = n2 := Nat.mod_eq_of_lt (by omega)
  have hres : (BitVec.ofNat 32 (4 * (b.length / 2))).toNat = 4 * (b.length / 2) :=
    Nat.mod_eq_of_lt (Nat.lt_of_le_of_lt hcap hcaplt)
  have hctx : (encSecond s t1 n1 n2).encAt k = EncCtx.after b := by
    rw [encAt_of_enc_set (s := s) (k := k) (c := EncCtx.after b) (by rw [ht]; rfl), if_pos ⟨rfl, hk⟩]
  subst ht
  refine ⟨hctx, ?checks, ?bytes, fun hmore => ?address⟩
  case checks =>
    show memCheck s.cfg _ ⟨⟨(s.srcAddr + BitVec.ofNat 32 n1).toNat, (BitVec.ofNat 32 n2).toNat, 1⟩,
      ⟨(s.dstAddr + BitVec.ofNat 32 (s.cfg.es * (BitVec.ofNat 32 (4 * (b.length / 2))).toNat)).toNat,
        4 * ((EncCtx.pending _ + (BitVec.ofNat 32 n2).toNat) / 2), s.cfg.es⟩⟩ = none
    rw [hctx, hn2, hres]
    rwa [Nat.one_mul] at hm2
  case bytes =>
    have hstored : (symBytes s.cfg.es (encPairs s.cfg.alphabet b)).length ≤ (encFeedWindows s k).dst.bytes := by
      rw [symBytes_length, encPairs_length, Nat.mul_comm, hw]
      exact Nat.mul_le_mul_right _ (by show 4 * _ ≤ 4 * _; omega)
    have hread := read_src_of_store hm rfl hstored
    rw [hw] at hread
    have hbytes := readBytes_chunks hsrcok hread
    rw [State.srcBytes, State.srcBytes, ← hb, List.append_assoc, hlen, ← hbytes, hb, Nat.one_mul]
    exact congrArg _ (congrArg _ (congrArg _ hn2))
  case address =>
    rw [EncCtx.pending_after] at hmore
    show (s.dstAddr + BitVec.ofNat 32 (s.cfg.es * (BitVec.ofNat 32 (4 * (b.length / 2))).toNat)).toNat = _
    rw [hres, toNat_advance hdstok (Config.es_pos s.cfg) (by omega)]

end EncodeChunks

/-- Settles O35: the second chunk starts from the carry of the first and right behind its symbols, so the two make the
pairs of all the bytes. -/
theorem encodeChunksMakeOneFeed : Obligations.EncodeChunksMakeOneFeed := by
  intro s t1 t2 t k n1 n2 hk hkl hp hlen hm h1 h2 h
  have hsrclt := s.srcLen.isLt
  have hn1 : (BitVec.ofNat 32 n1).toNat = n1 := Nat.mod_eq_of_lt (by omega)
  have hn2 : (BitVec.ofNat 32 n2).toNat = n2 := Nat.mod_eq_of_lt (by omega)
  obtain ⟨b, hb⟩ : ∃ b, (s.encAt k.toNat).carry ++ s.mem.readBytes s.srcAddr.toNat n1 = b := ⟨_, rfl⟩
  have hblen : b.length = (s.encAt k.toNat).pending + n1 := by
    rw [← hb, List.length_append, EncCtx.carry_length, Memory.readBytes_length]
  have hm1 : State.memCheck { s with srcLen := BitVec.ofNat 32 n1 }
      (encFeedWindows { s with srcLen := BitVec.ofNat 32 n1 } k.toNat) = none := by
    have := (encFeed_chunks_memCheck hlen hm hblen).1
    rw [hblen] at this
    rw [State.memCheck, encFeedWindows, State.srcBytesWin, hn1]
    exact this
  have ht1 := (exec_encFeed_ok (s := { s with srcLen := BitVec.ofNat 32 n1 }) hk hp hm1 h1).trans
    (encFeedBody_of_bytes (b := b) (by rw [State.srcBytes, hn1]; exact hb))
  obtain ⟨hctx, hm2, hbytes, haddr⟩ := encSecond_ready hkl hlen hm hb ht1
  have ht2 := (exec_encFeed_ok (s := encSecond s t1 n1 n2) (ht1 ▸ hk) (hctx ▸ EncCtx.after_phase b) hm2 h2).trans
    (encFeedBody_of_bytes (congrArg (EncCtx.carry · ++ _) hctx))
  have ht := (exec_encFeed_ok hk hp hm h).trans (encFeedBody_of_bytes hbytes.symm)
  have hmem : (encSecond s t1 n1 n2).mem = s.mem.writeBytes s.dstAddr.toNat
      (symBytes s.cfg.es (encPairs s.cfg.alphabet b)) := by rw [encSecond, ht1]
  have hcfg : (encSecond s t1 n1 n2).cfg = s.cfg := by rw [encSecond, ht1]
  have henc : (encSecond s t1 n1 n2).enc = s.enc.set k.toNat (EncCtx.after b) := by rw [encSecond, ht1]
  have hb2 : (encSecond s t1 n1 n2).srcBytes.length = n2 := (State.srcBytes_length _).trans hn2
  have hb3 : ((EncCtx.after b).carry ++ (encSecond s t1 n1 n2).srcBytes).length = (EncCtx.after b).pending + n2 := by
    rw [List.length_append, EncCtx.carry_length, hb2]
  refine ⟨by rw [ht1]; rfl, by rw [ht2]; rfl, ?mem, ?enc, ?result⟩
  case mem =>
    rw [ht2, ht]
    simp only [hmem, hcfg]
    rw [encPairs_split _ b, symBytes_append]
    refine Memory.writeBytes_chunks _ fun hpos => ?_
    rw [symBytes_length, encPairs_length, hb3] at hpos
    rw [haddr (Nat.pos_of_mul_pos_left (Nat.pos_of_mul_pos_left hpos)), symBytes_length, encPairs_length]
  case enc =>
    rw [ht2, ht]
    simp only [henc, List.set_set]
    rw [← EncCtx.after_split]
  case result =>
    obtain ⟨hcap, -⟩ := (memCheck_eq_none_iff _ _ _).mp hm
    have hcaplt := s.dstCap.isLt
    have hreq : 4 * ((b ++ (encSecond s t1 n1 n2).srcBytes).length / 2) ≤ s.dstCap.toNat := by
      rw [hbytes, encFeed_length]
      exact hcap
    rw [ht1, ht2, ht]
    simp only [BitVec.toNat_ofNat, hb3, EncCtx.pending_after, List.length_append, hb2] at hreq ⊢
    omega

end Sys2Proof.Machine
end

section
/-! PROOFS. DEC_FEED in two chunks, one that succeeds and one that meets a bad group (42_streaming R223, R230). -/

namespace Sys2Proof.Machine

/-! ## The two chunks -/

theorem DecCtx.count_after (l : List Sym) : (DecCtx.after l).count.val = l.length % 4 := Nat.mod_mod ..

/-- The symbols of a first chunk of `n1`, those buffered before it included. -/
def firstSyms (s : State) (k n1 : Nat) : List Sym :=
  (s.decAt k).buffer ++ s.mem.readSyms s.cfg.es s.srcAddr.toNat n1

theorem firstSyms_length (s : State) (k n1 : Nat) : (firstSyms s k n1).length = (s.decAt k).count.val + n1 := by
  rw [firstSyms, List.length_append, DecCtx.buffer_length, Memory.readSyms_length]

/-- The state in which the second chunk of a DEC_FEED is fed: `n2` symbols right behind the first `n1`. -/
def decSecond (s t1 : State) (n1 n2 : Nat) : State :=
  { t1 with
    srcAddr := s.srcAddr + BitVec.ofNat 32 (s.cfg.es * n1)
    srcLen := BitVec.ofNat 32 n2
    dstAddr := s.dstAddr + t1.result
    dstCap := s.dstCap - t1.result }

section DecodeChunks

variable {s t1 : State} {k : BitVec 4} {n1 n2 : Nat} {l : List Sym}

/-- The windows of both chunks pass `MemCheck`; the second starts with the symbols the first leaves over. -/
theorem decFeed_chunks_memCheck {k : Nat} (hlen : s.srcLen.toNat = n1 + n2)
    (hm : s.memCheck (decFeedWindows s k) = none) (hl : l.length = (s.decAt k).count.val + n1) :
    memCheck s.cfg s.dstCap.toNat
      ⟨⟨s.srcAddr.toNat, n1, s.cfg.es⟩, ⟨s.dstAddr.toNat, 2 * (l.length / 4), 1⟩⟩ = none ∧
    memCheck s.cfg (s.dstCap - BitVec.ofNat 32 (2 * (l.length / 4))).toNat
      ⟨⟨(s.srcAddr + BitVec.ofNat 32 (s.cfg.es * n1)).toNat, n2, s.cfg.es⟩,
        ⟨(s.dstAddr + BitVec.ofNat 32 (1 * (2 * (l.length / 4)))).toNat,
          2 * (((DecCtx.after l).count.val + n2) / 4), 1⟩⟩ = none := by
  refine memCheck_chunks (Config.es_pos s.cfg) Nat.zero_lt_one ?_
  have hreq : 2 * (l.length / 4) + 2 * (((DecCtx.after l).count.val + n2) / 4)
      = 2 * (((s.decAt k).count.val + s.srcLen.toNat) / 4) := by
    rw [DecCtx.count_after]
    omega
  rw [hreq, ← hlen]
  exact hm

/-- The first chunk passes its checks and is fed `firstSyms`. -/
theorem exec_decFeed_first (hk : k.toNat < s.cfg.nctx) (hp : (s.decAt k.toNat).phase = .opened)
    (hlen : s.srcLen.toNat = n1 + n2) (hm : s.memCheck (decFeedWindows s k.toNat) = none)
    (h : exec (.decFeed k) { s with srcLen := BitVec.ofNat 32 n1 } = .next t1) :
    t1 = decFeedBody k.toNat { s with srcLen := BitVec.ofNat 32 n1 } ∧
    (State.decAt { s with srcLen := BitVec.ofNat 32 n1 } k.toNat).buffer ++
      State.srcSyms { s with srcLen := BitVec.ofNat 32 n1 } = firstSyms s k.toNat n1 := by
  have hsrclt := s.srcLen.isLt
  have hn1 : (BitVec.ofNat 32 n1).toNat = n1 := Nat.mod_eq_of_lt (by omega)
  refine ⟨exec_decFeed_ok (s := { s with srcLen := BitVec.ofNat 32 n1 }) hk hp ?_ h, ?_⟩
  · have hm1 := (decFeed_chunks_memCheck hlen hm (firstSyms_length s k.toNat n1)).1
    rw [firstSyms_length] at hm1
    rw [State.memCheck, decFeedWindows, State.srcSymsWin, hn1]
    exact hm1
  · rw [State.srcSyms, hn1]
    rfl

/-- When the first chunk decodes, the second finds its context OPEN, its checks pass, and it is fed the symbols left
over and then the rest of the source, to be stored behind the bytes of the first. -/
theorem decSecond_ready {k : Nat} (hk : k < s.dec.length) (hlen : s.srcLen.toNat = n1 + n2)
    (hm : s.memCheck (decFeedWindows s k) = none) (hl : firstSyms s k n1 = l)
    (hok : (decGroups s.cfg.alphabet l).2 = none)
    (ht : t1 = { s with
      srcLen := BitVec.ofNat 32 n1
      mem := s.mem.writeBytes s.dstAddr.toNat (decGroups s.cfg.alphabet l).1
      dec := s.dec.set k (DecCtx.after l)
      result := BitVec.ofNat 32 (decGroups s.cfg.alphabet l).1.length
      status := statusAfter s .noError }) :
    (decSecond s t1 n1 n2).decAt k = DecCtx.after l ∧
    (decSecond s t1 n1 n2).memCheck (decFeedWindows (decSecond s t1 n1 n2) k) = none ∧
    l ++ (decSecond s t1 n1 n2).srcSyms = (s.decAt k).buffer ++ s.srcSyms ∧
    (0 < ((DecCtx.after l).count.val + n2) / 4 →
      (decSecond s t1 n1 n2).dstAddr.toNat = s.dstAddr.toNat + (decGroups s.cfg.alphabet l).1.length) := by
  have hllen : l.length = (s.decAt k).count.val + n1 := hl ▸ firstSyms_length s k n1
  have hout : (decGroups s.cfg.alphabet l).1.length = 2 * (l.length / 4) := decGroups_length_of_ok hok
  have hw : decFeedWindows s k = ⟨⟨s.srcAddr.toNat, n1 + n2, s.cfg.es⟩,
      ⟨s.dstAddr.toNat, 2 * (((s.decAt k).count.val + (n1 + n2)) / 4), 1⟩⟩ := by
    rw [← hlen]
    rfl
  obtain ⟨-, hm2⟩ := decFeed_chunks_memCheck hlen hm hllen
  obtain ⟨-, hsrcok, hdstok, -⟩ := (memCheck_eq_none_iff _ _ _).mp hm
  rw [hw] at hsrcok hdstok
  have hsrclt := s.srcLen.isLt
  have hn2 : (BitVec.ofNat 32 n2).toNat = n2 := Nat.mod_eq_of_lt (by omega)
  have hctx : (decSecond s t1 n1 n2).decAt k = DecCtx.after l := by
    rw [decAt_of_dec_set (s := s) (k := k) (d := DecCtx.after l) (by rw [ht]; rfl), if_pos ⟨rfl, hk⟩]
  subst ht
  refine ⟨hctx, ?checks, ?syms, fun hmore => ?address⟩
  case checks =>
    show memCheck s.cfg (s.dstCap - BitVec.ofNat 32 (decGroups s.cfg.alphabet l).1.length).toNat
      ⟨⟨(s.srcAddr + BitVec.ofNat 32 (s.cfg.es * n1)).toNat, (BitVec.ofNat 32 n2).toNat, s.cfg.es⟩,
      ⟨(s.dstAddr + BitVec.ofNat 32 (decGroups s.cfg.alphabet l).1.length).toNat,
        2 * (((DecCtx.count _).val + (BitVec.ofNat 32 n2).toNat) / 4), 1⟩⟩ = none
    rw [hctx, hn2, hout]
    rwa [Nat.one_mul] at hm2
  case syms =>
    have hstored : (decGroups s.cfg.alphabet l).1.length ≤ (decFeedWindows s k).dst.bytes := by
      rw [hout, hw, Window.bytes, Nat.mul_one]
      show 2 * _ ≤ 2 * _
      omega
    have hread := read_src_of_store hm rfl hstored
    rw [hw] at hread
    have hsyms := readSyms_chunks (Config.es_pos s.cfg) hsrcok hread
    rw [State.srcSyms, State.srcSyms, ← hl, firstSyms, List.append_assoc, hlen, ← hsyms, ← firstSyms, hl]
    exact congrArg _ (congrArg _ (congrArg _ hn2))
  case address =>
    rw [DecCtx.count_after] at hmore
    show (s.dstAddr + BitVec.ofNat 32 (decGroups s.cfg.alphabet l).1.length).toNat = _
    have haddr := toNat_advance (skip := 2 * (l.length / 4)) hdstok Nat.zero_lt_one (by omega)
    rwa [Nat.one_mul, ← hout] at haddr

/-- The symbols of a whole feed begin with those of its first chunk. -/
theorem exists_firstSyms_append {k : Nat} (hlen : s.srcLen.toNat = n1 + n2) :
    ∃ b, (s.decAt k).buffer ++ s.srcSyms = firstSyms s k n1 ++ b := by
  rw [State.srcSyms, hlen, Memory.readSyms_add, firstSyms, ← List.append_assoc]
  exact ⟨_, rfl⟩

/-- The bytes of a feed whose checks pass are no more than `RESULT` can count. -/
theorem decGroups_length_lt {k : Nat} {t : List Sym} (hm : s.memCheck (decFeedWindows s k) = none)
    (ht : (s.decAt k).buffer ++ s.srcSyms = t) : (decGroups s.cfg.alphabet t).1.length < 2 ^ 32 := by
  obtain ⟨hcap, -⟩ := (memCheck_eq_none_iff _ _ _).mp hm
  have hcaplt := s.dstCap.isLt
  have hle := decFeed_stores_le s k
  rw [ht, Window.bytes, show (decFeedWindows s k).dst.es = 1 from rfl, Nat.mul_one] at hle
  omega

/-- When the groups of the first chunk decode, the second chunk ends as the whole feed does. -/
theorem decSecond_ends_alike {t2 t : State} (hk : k.toNat < s.cfg.nctx) (hkl : k.toNat < s.dec.length)
    (hp : (s.decAt k.toNat).phase = .opened) (hlen : s.srcLen.toNat = n1 + n2)
    (hm : s.memCheck (decFeedWindows s k.toNat) = none)
    (hok : (decGroups s.cfg.alphabet (firstSyms s k.toNat n1)).2 = none) (h : exec (.decFeed k) s = .next t)
    (h1 : exec (.decFeed k) { s with srcLen := BitVec.ofNat 32 n1 } = .next t1)
    (h2 : exec (.decFeed k) (decSecond s t1 n1 n2) = .next t2) :
    t2.status.err = t.status.err ∧ t2.mem = t.mem ∧ t2.dec = t.dec ∧
    t1.result.toNat + t2.result.toNat = t.result.toNat := by
  obtain ⟨l, hl⟩ : ∃ l, firstSyms s k.toNat n1 = l := ⟨_, rfl⟩
  rw [hl] at hok
  obtain ⟨hbody, hsyms1⟩ := exec_decFeed_first hk hp hlen hm h1
  have ht1 := hbody.trans (decFeedBody_of_syms (hsyms1.trans hl))
  simp only [hok, DecCtx.afterFeed, Option.getD_none] at ht1
  obtain ⟨hctx, hm2, hsyms, haddr⟩ := decSecond_ready hkl hlen hm hl hok ht1
  have hcfg : (decSecond s t1 n1 n2).cfg = s.cfg := by rw [decSecond, ht1]
  have hmem : (decSecond s t1 n1 n2).mem = s.mem.writeBytes s.dstAddr.toNat (decGroups s.cfg.alphabet l).1 := by
    rw [decSecond, ht1]
  have hdec : (decSecond s t1 n1 n2).dec = s.dec.set k.toNat (DecCtx.after l) := by rw [decSecond, ht1]
  have ht2 := (exec_decFeed_ok (s := decSecond s t1 n1 n2) (hcfg ▸ hk) (hctx ▸ rfl) hm2 h2).trans
    (decFeedBody_of_syms (congrArg (DecCtx.buffer · ++ _) hctx))
  have ht := (exec_decFeed_ok hk hp hm h).trans (decFeedBody_of_syms hsyms.symm)
  have hlt := decGroups_length_lt hm hsyms.symm
  have hwhole := decGroups_split_eq s.cfg.alphabet l (decSecond s t1 n1 n2).srcSyms
  rw [if_pos hok] at hwhole
  rw [hwhole] at ht hlt
  rw [hcfg] at ht2
  refine ⟨by rw [ht, ht2]; rfl, ?mem, ?dec, ?result⟩
  case mem =>
    rw [ht, ht2]
    simp only [hmem]
    refine Memory.writeBytes_chunks _ fun hpos => haddr ?_
    have hle := decGroups_length_le s.cfg.alphabet ((DecCtx.after l).buffer ++ (decSecond s t1 n1 n2).srcSyms)
    have hsrclt := s.srcLen.isLt
    have hn2 : (decSecond s t1 n1 n2).srcSyms.length = n2 :=
      (Memory.readSyms_length ..).trans (Nat.mod_eq_of_lt (by omega))
    rw [List.length_append (as := DecCtx.buffer _), DecCtx.buffer_length, hn2] at hle
    omega
  case dec =>
    rw [ht, ht2]
    simp only [hdec, List.set_set]
    cases (decGroups s.cfg.alphabet ((DecCtx.after l).buffer ++ (decSecond s t1 n1 n2).srcSyms)).2 with
    | some e => rfl
    | none => exact congrArg (s.dec.set k.toNat ·) (DecCtx.after_split l _).symm
  case result =>
    have hresult1 : t1.result = BitVec.ofNat 32 (decGroups s.cfg.alphabet l).1.length := by rw [ht1]
    rw [ht, hresult1, ht2]
    simp only [BitVec.toNat_ofNat, List.length_append] at hlt ⊢
    omega

end DecodeChunks

/-- A DEC_FEED that reports no error had a context, OPEN, and its checks passed. -/
theorem exec_decFeed_of_noError {k : BitVec 4} {s t : State} (h : exec (.decFeed k) s = .next t)
    (he : t.status.err = .noError) : (s.decAt k.toNat).phase = .opened ∧
      s.memCheck (decFeedWindows s k.toNat) = none ∧ t = decFeedBody k.toNat s := by
  rcases exec_decFeed_cases k s with ⟨-, e⟩ | ⟨-, -, e⟩ | ⟨-, -, c, hc, e⟩ | ⟨-, hp, hm, e⟩ <;> cases h.symm.trans e
  · cases he
  · cases he
  · rcases memCheck_code hc with rfl | rfl | rfl <;> cases he
  · exact ⟨hp, hm, rfl⟩

/-- The error code of a DEC_FEED is NONE exactly when no group was bad. -/
theorem decGroups_err_eq_noError_iff (a : Alphabet) (t : List Sym) :
    (decGroups a t).2.getD .noError = .noError ↔ (decGroups a t).2 = none := by
  cases h : (decGroups a t).2 with
  | none => exact iff_of_true rfl rfl
  | some e =>
    refine iff_of_false (fun he => ?_) nofun
    rcases decGroups_err_code h with rfl | rfl <;> cases he

/-- Settles O36: when all groups decode, those of the first chunk do, and then the second chunk ends as the whole. -/
theorem decodeChunksMakeOneFeed : Obligations.DecodeChunksMakeOneFeed := by
  intro s t1 t2 t k n1 n2 hk hkl hlen h he h1 h2
  obtain ⟨hp, hm, ht⟩ := exec_decFeed_of_noError h he
  obtain ⟨b, hb⟩ := exists_firstSyms_append (s := s) (k := k.toNat) hlen
  rw [decFeedBody_of_syms hb] at ht
  have hall : (decGroups s.cfg.alphabet (firstSyms s k.toNat n1 ++ b)).2 = none :=
    (decGroups_err_eq_noError_iff _ _).mp (by rw [ht] at he; exact he)
  obtain ⟨hfirst, -⟩ := decGroups_split _ _ _ hall
  obtain ⟨hbody, hsyms⟩ := exec_decFeed_first hk hp hlen hm h1
  have he1 : t1.status.err = .noError := by
    rw [hbody.trans (decFeedBody_of_syms hsyms)]
    exact (decGroups_err_eq_noError_iff _ _).mpr hfirst
  obtain ⟨herr, hrest⟩ := decSecond_ends_alike hk hkl hp hlen hm hfirst h h1 h2
  exact ⟨he1, herr.trans he, hrest⟩

/-- Settles O55: either the first chunk holds the bad group and ends as the whole feed, or its groups decode and the
second chunk ends so. -/
theorem decodeChunksMeetSameError : Obligations.DecodeChunksMeetSameError := by
  intro s t1 t k n1 n2 hk hkl hp hlen hm h he h1
  obtain ⟨hbody, hsyms1⟩ := exec_decFeed_first hk hp hlen hm h1
  obtain ⟨b, hb⟩ := exists_firstSyms_append (s := s) (k := k.toNat) hlen
  have ht1 := hbody.trans (decFeedBody_of_syms hsyms1)
  have ht := (exec_decFeed_ok hk hp hm h).trans (decFeedBody_of_syms hb)
  have hlt := decGroups_length_lt hm hb
  have hresult : t.result.toNat = (decGroups s.cfg.alphabet (firstSyms s k.toNat n1 ++ b)).1.length := by
    rw [ht]
    exact Nat.mod_eq_of_lt hlt
  have hsplit := decGroups_split_eq s.cfg.alphabet (firstSyms s k.toNat n1) b
  rw [← firstSyms_length]
  cases hfirst : (decGroups s.cfg.alphabet (firstSyms s k.toNat n1)).2 with
  | none =>
    have he1 : t1.status.err = .noError := by
      rw [ht1]
      exact (decGroups_err_eq_noError_iff _ _).mpr hfirst
    refine ⟨iff_of_false (fun hne => hne he1) ?_, fun hne => absurd he1 hne, fun _ t2 h2 => ?_⟩
    · rw [if_pos hfirst] at hsplit
      rw [hresult, hsplit, List.length_append, decGroups_length_of_ok hfirst]
      omega
    · exact decSecond_ends_alike hk hkl hp hlen hm hfirst h h1 h2
  | some e =>
    rw [if_neg (by rw [hfirst]; nofun)] at hsplit
    rw [hsplit] at ht hresult
    have heq : t1.status.err = t.status.err := by rw [ht, ht1]; rfl
    refine ⟨iff_of_true (heq ▸ he) (hresult ▸ decGroups_length_lt_of_err hfirst), fun _ => ⟨heq, ?_, ?_, ?_⟩,
      fun hno => absurd (heq ▸ hno) he⟩
    · rw [ht, ht1]
    · rw [ht, ht1]
    · rw [ht, ht1]
      simp only [hfirst, DecCtx.afterFeed]

end Sys2Proof.Machine
end

section
/-! PROOFS. What is encoded decodes to the bytes it came from (41_unit_codec R188, 42_streaming R233). -/

namespace Sys2Proof.Machine

/-! ## Symbols stored and read back -/

/-- Symbols that fit their `ES` bytes, stored, read back as the same sequence (20_memory R82). -/
theorem Memory.readSyms_writeBytes (m : Memory) {es : Nat} (a : Nat) {l : List Sym}
    (hfit : ∀ u < l.length, (l.getD u 0).toNat < 256 ^ es) :
    (m.writeBytes a (symBytes es l)).readSyms es a l.length = l := by
  refine List.ext_getElem (Memory.readSyms_length ..) fun u _ hu => ?_
  simp only [Memory.readSyms, List.getElem_map, List.getElem_range]
  rw [readSym_writeBytes m es a l hu (hfit u hu), List.getD_eq_getElem?_getD,
    List.getElem?_eq_getElem hu, Option.getD_some]

/-- The source symbols of a state whose memory holds `l` at its source window. -/
theorem State.srcSyms_of_stored {s : State} {m : Memory} {l : List Sym}
    (hmem : s.mem = m.writeBytes s.srcAddr.toNat (symBytes s.cfg.es l)) (hlen : s.srcLen.toNat = l.length)
    (hfit : ∀ u < l.length, (l.getD u 0).toNat < 256 ^ s.cfg.es) : s.srcSyms = l := by
  rw [State.srcSyms, hmem, hlen, Memory.readSyms_writeBytes m _ hfit]

/-- The symbols of encoded pairs fit their `ES` bytes. -/
theorem encPairs_fits {a : Alphabet} {c : Config} (hv : a.Valid c.symW) (b : List Byte) :
    ∀ u < (encPairs a b).length, ((encPairs a b).getD u 0).toNat < 256 ^ c.es := fun u hu => by
  rw [encPairs_getD a b (encPairs_length a b ▸ hu)]
  exact enc2_fits hv _ _

/-- The encoded pairs of an even number of bytes decode to these bytes (41_unit_codec R188). -/
theorem decGroups_encPairs {a : Alphabet} {w : SymWidth} (hv : a.Valid w) {b : List Byte} (h : b.length % 2 = 0) :
    decGroups a (encPairs a b) = (b, none) := by
  induction b using encPairs.induct with
  | case1 b0 b1 rest ih =>
    have hrest : rest.length % 2 = 0 := by
      simp only [List.length_cons] at h
      omega
    simp only [encPairs, Group.toList, List.cons_append, List.nil_append, decGroups, dec4_enc2 hv, ih hrest,
      unitBytes_bits16]
  | case2 b hb =>
    match b, hb, h with
    | [], _, _ => rfl
    | [_], _, h => exact absurd h Nat.one_ne_zero
    | b0 :: b1 :: rest, hb, _ => exact absurd rfl (hb b0 b1 rest)

/-! ## The two decode commands when ready -/

theorem DecCtx.buffer_of_count_zero {d : DecCtx} (h : d.count = 0) : d.buffer = [] := by
  rw [DecCtx.buffer, h]
  rfl

theorem exec_decFeed_of_ready {s : State} {k : BitVec 4} (hk : k.toNat < s.cfg.nctx)
    (hp : (s.decAt k.toNat).phase = .opened) (hm : s.memCheck (decFeedWindows s k.toNat) = none) :
    exec (.decFeed k) s = .next (decFeedBody k.toNat s) := by
  rw [← State.whenReady_of_ready hp hm (decFeedBody k.toNat)]
  exact if_pos hk

theorem exec_decFinal_of_ready {s : State} {k : BitVec 4} (hk : k.toNat < s.cfg.nctx)
    (hp : (s.decAt k.toNat).phase = .opened) (hm : s.memCheck (decFinalWindows s k.toNat) = none) :
    exec (.decFinal k) s = .next (decFinalBody k.toNat s) := by
  rw [← State.whenReady_of_ready hp hm (decFinalBody k.toNat)]
  exact if_pos hk

/-! ## A stream of pairs (42_streaming R233) -/

/-- Settles O37: the feed decodes the very pairs that were encoded, so it stores the source bytes. -/
theorem streamRoundTrip : Obligations.StreamRoundTrip := by
  intro s t k j dst cap hv hk hj hp hcached hq hcount heven hm h s2 hm2
  have hcarry : (s.encAt k.toNat).carry = [] := by
    rw [EncCtx.carry, hcached]
    rfl
  have ht := (exec_encFeed_ok hk hp hm h).trans (encFeedBody_of_bytes (congrArg (· ++ s.srcBytes) hcarry))
  rw [List.nil_append] at ht
  have hlen : s.srcBytes.length = s.srcLen.toNat := State.srcBytes_length s
  have hresult : t.result.toNat = (encPairs s.cfg.alphabet s.srcBytes).length := by
    obtain ⟨hcap, -⟩ := (memCheck_eq_none_iff _ _ _).mp hm
    have hcaplt := s.dstCap.isLt
    have hreq : 4 * (s.srcBytes.length / 2) ≤ s.dstCap.toNat := by
      rw [hlen]
      exact Nat.le_trans (Nat.mul_le_mul_left _ (Nat.div_le_div_right (Nat.le_add_left ..))) hcap
    rw [ht, encPairs_length]
    exact Nat.mod_eq_of_lt (by omega)
  have hcfg : s2.cfg = s.cfg := by simp only [s2, ht]
  have hctx : s2.decAt j.toNat = s.decAt j.toNat := decAt_of_dec_eq (by simp only [s2, ht]) _
  have hsyms : (s2.decAt j.toNat).buffer ++ s2.srcSyms = encPairs s.cfg.alphabet s.srcBytes := by
    rw [hctx, DecCtx.buffer_of_count_zero hcount, List.nil_append]
    exact State.srcSyms_of_stored (m := s.mem) (by simp only [s2, ht]) hresult (hcfg ▸ encPairs_fits hv _)
  have hu := decFeedBody_of_syms hsyms
  rw [hcfg, decGroups_encPairs hv (hlen ▸ heven)] at hu
  refine ⟨_, exec_decFeed_of_ready (hcfg ▸ hj) (hctx ▸ hq) hm2, ?err, ?result, fun x hx => ?byte⟩
  case err => rw [hu]; rfl
  case result =>
    rw [hu, hlen]
    exact BitVec.ofNat_toNat ..
  case byte =>
    rw [hu]
    show (s2.mem.writeBytes dst.toNat s.srcBytes).read _ = _
    rw [Memory.read_writeBytes, if_pos (by omega), Nat.add_sub_cancel_left, State.srcBytes_getD s x hx]

/-! ## The tail of a stream (42_streaming R215, R227) -/

/-- ENC_FINAL of a pending byte stores its two tail symbols and counts them. -/
theorem exec_encFinal_of_cached {s t : State} {k : BitVec 4} (hk : k.toNat < s.cfg.nctx)
    (hp : (s.encAt k.toNat).phase = .opened) (hcached : (s.encAt k.toNat).cached = true)
    (hm : s.memCheck (encFinalWindows s k.toNat) = none) (h : exec (.encFinal k) s = .next t) : t = { s with
      mem := s.mem.writeBytes s.dstAddr.toNat
        (symBytes s.cfg.es (enc1 s.cfg.alphabet (s.encAt k.toNat).trailingByte).toList)
      enc := s.enc.set k.toNat (EncCtx.empty .closed)
      result := 2
      status := statusAfter s .noError } := by
  have hbody : exec (.encFinal k) s = .next (encFinalBody k.toNat s) := by
    rw [← State.whenReady_of_ready hp hm (encFinalBody k.toNat)]
    exact if_pos hk
  have hpending : (encFinalWindows s k.toNat).dst.count = 2 :=
    congrArg (2 * ·) (show (s.encAt k.toNat).pending = 1 from if_pos hcached)
  rw [Host.Outcome.next.inj (h.symm.trans hbody), encFinalBody_eq, hpending, if_pos hcached]
  rfl

/-- Symbols too few for a group are buffered: nothing is stored. -/
theorem decFeedBody_of_short {s : State} {k : Nat} {t : List Sym} (ht : (s.decAt k).buffer ++ s.srcSyms = t)
    (hshort : t.length < 4) : decFeedBody k s = { s with
      dec := s.dec.set k (DecCtx.after t), result := 0, status := statusAfter s .noError } := by
  rw [decFeedBody_of_syms ht, decGroups_of_short hshort]
  rfl

theorem Window.not_has_of_empty {w : Window} (h : w.count = 0) (a : Nat) : ¬ w.has a = true := by
  rw [Window.has_iff, Window.bytes, h]
  omega

/-- An empty window is in order and has no byte that could be in a hole. -/
theorem Window.ok_and_accessible_of_empty {w : Window} (h : w.count = 0) (c : Config) :
    w.ok = true ∧ w.accessible c = true :=
  ⟨(Window.ok_iff w).mpr (.inl h),
    (Window.accessible_iff w c).mpr fun a ha => absurd ha (Window.not_has_of_empty h a)⟩

/-- One accessible byte is a window in order. -/
theorem Window.ok_and_accessible_of_byte {a : Word} {c : Config} (h : Config.accessible c a.toNat = true) :
    Window.ok ⟨a.toNat, 1, 1⟩ = true ∧ Window.accessible ⟨a.toNat, 1, 1⟩ c = true := by
  refine ⟨(Window.ok_iff _).mpr (.inr ⟨Nat.mod_one _, a.isLt⟩), (Window.accessible_iff _ c).mpr fun x hx => ?_⟩
  rw [Window.has_iff] at hx
  simp only [Window.bytes] at hx
  rwa [show x = a.toNat by omega]

/-- `MemCheck` passes when one of the two windows is empty, as nothing can overlap. -/
theorem memCheck_eq_none_of_empty {c : Config} {cap : Nat} {w : Windows} (hcap : w.dst.count ≤ cap)
    (hsrc : w.src.ok = true ∧ w.src.accessible c = true) (hdst : w.dst.ok = true ∧ w.dst.accessible c = true)
    (hempty : w.src.count = 0 ∨ w.dst.count = 0) : memCheck c cap w = none := by
  refine (memCheck_eq_none_iff _ _ _).mpr ⟨hcap, hsrc.1, hdst.1, ?_, hsrc.2, hdst.2⟩
  rw [Window.overlaps_eq_false_iff]
  rintro a ⟨ha, hb⟩
  rcases hempty with h | h
  · exact Window.not_has_of_empty h a ha
  · exact Window.not_has_of_empty h a hb

/-- The two symbols of a tail, buffered. -/
theorem DecCtx.after_tail (t : Tail) : DecCtx.after t.toList =
    { count := 2, trail0 := t.s0, trail1 := t.s1, trail2 := 0, trail3 := 0, phase := .opened } := by
  simp [DecCtx.after, Tail.toList]

/-- DEC_FINAL of a buffered tail stores the byte it encodes, at any accessible destination (42_streaming R227). -/
theorem exec_decFinal_of_tail {s : State} {k : BitVec 4} {x : Byte} (hk : k.toNat < s.cfg.nctx)
    (hv : s.cfg.alphabet.Valid s.cfg.symW)
    (hctx : s.decAt k.toNat = DecCtx.after (enc1 s.cfg.alphabet x).toList) (hcap : s.dstCap = 1)
    (hacc : Config.accessible s.cfg s.dstAddr.toNat = true) : exec (.decFinal k) s = .next { s with
      mem := s.mem.write s.dstAddr.toNat x
      dec := s.dec.set k.toNat (DecCtx.empty .closed)
      result := 1
      status := statusAfter s .noError } := by
  rw [DecCtx.after_tail] at hctx
  have hm : s.memCheck (decFinalWindows s k.toNat) = none := by
    rw [decFinalWindows, hctx]
    exact memCheck_eq_none_of_empty (by rw [hcap]; exact Nat.le_refl 1) (Window.ok_and_accessible_of_empty rfl s.cfg)
      (Window.ok_and_accessible_of_byte hacc) (.inl rfl)
  rw [exec_decFinal_of_ready hk (by rw [hctx]) hm, decFinalBody_of_two_ok (x := x) (by rw [hctx]; rfl)]
  rw [hctx]
  exact dec2_enc1 hv x

/-- Settles O38: the feed buffers the tail that ENC_FINAL stored, and DEC_FINAL decodes it. -/
theorem tailRoundTrip : Obligations.TailRoundTrip := by
  intro s t k j dst hv hk hj hjl hp hcached hq hcount hm h s2 hacc
  have ht := exec_encFinal_of_cached hk hp hcached hm h
  have hcfg : s2.cfg = s.cfg := by simp only [s2, ht]
  have hdec : s2.dec = s.dec := by simp only [s2, ht]
  have hctx : s2.decAt j.toNat = s.decAt j.toNat := decAt_of_dec_eq hdec _
  have hlen : s2.srcLen = 2 := by simp only [s2, ht]
  have hsyms : (s2.decAt j.toNat).buffer ++ s2.srcSyms
      = (enc1 s.cfg.alphabet (s.encAt k.toNat).trailingByte).toList := by
    rw [hctx, DecCtx.buffer_of_count_zero hcount, List.nil_append]
    exact State.srcSyms_of_stored (m := s.mem) (by simp only [s2, ht]) (by rw [hlen]; rfl)
      fun u _ => hcfg ▸ enc1_fits hv _ u
  have hfeed : s2.memCheck (decFeedWindows s2 j.toNat) = none := by
    obtain ⟨-, -, hok, -, -, haccess⟩ := (memCheck_eq_none_iff _ _ _).mp hm
    have hsrc : s2.srcSymsWin = (encFinalWindows s k.toNat).dst := by
      rw [State.srcSymsWin, hcfg, hlen, encFinalWindows, EncCtx.pending, if_pos hcached]
      rfl
    have hempty : (decFeedWindows s2 j.toNat).dst.count = 0 := by
      rw [decFeedWindows, hctx, hcount, hlen]
      rfl
    refine memCheck_eq_none_of_empty (hempty ▸ Nat.zero_le _) ?_ (Window.ok_and_accessible_of_empty hempty _)
      (.inr hempty)
    rw [decFeedWindows, hsrc, hcfg]
    exact ⟨hok, haccess⟩
  have hexec := exec_decFeed_of_ready (hcfg ▸ hj) (hctx ▸ hq) hfeed
  rw [decFeedBody_of_short hsyms (by rw [Tail.toList_length]; decide)] at hexec
  refine ⟨_, _, hexec, rfl, rfl, exec_decFinal_of_tail (x := (s.encAt k.toNat).trailingByte) (hcfg ▸ hj) (hcfg ▸ hv)
    ?_ rfl (hcfg ▸ hacc), rfl, rfl, ?_⟩
  · rw [decAt_of_dec_set (s := s2) rfl, if_pos ⟨rfl, hdec ▸ hjl⟩, ← hcfg]
  · exact (Memory.read_write ..).trans (if_pos rfl)

end Sys2Proof.Machine
end
